-- ==== Sys2Proof/Word.lean ====
section
/-! DEFINITION. The word types of the BLIP core (spec/00_scope.md R12): what the spec treats as bits of a
fixed width. Unbounded `int` is `Int`, counts and exact scaled rationals are `Nat`. -/

namespace Sys2Proof

/-- `u8`: a register byte, an index operand, a byte of the command transport (R12, R40, R132). -/
abbrev Byte := BitVec 8

/-- `u16` or `s16`: a register address, a cutoff frequency, a kernel tap, an output sample (R12, R132, R133). -/
abbrev Half := BitVec 16

/-- `u32` or `s32`: a command word, a chip time, a rate (R12, R130). -/
abbrev Word := BitVec 32

/-- `f32`: an IEEE 754 binary32 bit pattern (R12, spec/93_implementation_defined.md G1). -/
abbrev F32 := BitVec 32

/-- `s64`: a delay-line slot or the accumulator, two's complement, wrapping (R12, R38, R39). -/
abbrev Slot := BitVec 64

end Sys2Proof
end

