-- ==== Sys2Proof/Syntax.lean ====
section
/-! DEFINITION. The host commands: one constructor per row of spec/opcode_table.json, in the table's order, each
with the fields it uses (spec/30_encoding.md R132, R136). `OFFSET` and `UPDATE` are micro-operations with no
encoding (R136, spec/41_step_synthesizer.md R261) and stand in Machine/Synth.lean. -/

namespace Sys2Proof

/-- A host command with its operands. Every field holds exactly the bits of the encoding, so every term is
encodable; what a command does with an operand outside the device's bounds is its own rule. -/
inductive Instr where
  /-- `SET_SAMPLE_RATE` (R202): buffer, `sample_rate` (`s32`), `clock_rate` (`s32`). -/
  | setSampleRate (buffer : Byte) (sampleRate clockRate : Word)
  /-- `SET_BASS_FREQ` (R206): buffer, `hz` (`s32`). -/
  | setBassFreq (buffer : Byte) (hz : Word)
  /-- `READ_SAMPLE` (R210): buffer. -/
  | readSample (buffer : Byte)
  /-- `READ_SAMPLES` (R213): buffer, `count` (`u32`). -/
  | readSamples (buffer : Byte) (count : Word)
  /-- `FLUSH` (R215): buffer. -/
  | flush (buffer : Byte)
  /-- `SET_VOLUME` (R255): synthesizer, `level` (`f32`). -/
  | setVolume (synth : Byte) (level : F32)
  /-- `SET_TREBLE` (R258): synthesizer, `cutoff_freq` (`u16`), `treble` (`f32`), `rolloff_freq` (`u32`). -/
  | setTreble (synth : Byte) (cutoff : Half) (treble : F32) (rolloff : Word)
  /-- `SET_OUTPUT` (R350): oscillator, buffer index or 0xFFFFFFFF for `NULL`. -/
  | setOutput (osc : Byte) (buffer : Word)
  /-- `WRITE` (R402): register address, data byte. -/
  | write (addr : Half) (data : Byte)
  /-- `RUN_UNTIL` (R420): `end_time` (`u32`). -/
  | runUntil (endTime : Word)
  /-- `END_FRAME` (R423): `frame_length` (`u32`). -/
  | endFrame (frameLength : Word)
  /-- `RESET` (R426). -/
  | reset
  deriving DecidableEq, Repr

end Sys2Proof
end

