-- ==== Sys2Proof/Decode.lean ====
section
/-! DEFINITION. The 96-bit command format `CMD96` (spec/30_encoding.md R130), the decoder (R131, R132, R137), the
encoder, the match/mask table of spec/opcode_table.json (R138), and the byte order of the transport
(spec/20_memory.md R104). -/

namespace Sys2Proof

/-! ### The format -/

/-- A command as it is issued: the three 32-bit words W0, W1, W2 (R130). -/
structure Cmd where
  w0 : Word
  w1 : Word
  w2 : Word
  deriving DecidableEq, Repr

/-- `OP`, W0[31:24]. -/
def Cmd.op (c : Cmd) : Byte := c.w0.extractLsb' 24 8
/-- `X`, W0[23:16]. -/
def Cmd.x (c : Cmd) : Byte := c.w0.extractLsb' 16 8
/-- `Y`, W0[15:0]. -/
def Cmd.y (c : Cmd) : Half := c.w0.extractLsb' 0 16
/-- `U`, W1. -/
def Cmd.u (c : Cmd) : Word := c.w1
/-- `V`, W2. -/
def Cmd.v (c : Cmd) : Word := c.w2

/-- Why a 96-bit value is no command: both are the status `IllegalCommand` (R137). -/
inductive DecodeError where
  /-- The opcode is reserved: 0x00 or 0x0D to 0xFF (R137). -/
  | unknownOpcode
  /-- A field the opcode does not use is not 0 (R131). -/
  | reservedField
  deriving DecidableEq, Repr

/-- The command `i`, provided the reserved-zero fields of its opcode are all zero (R131). -/
def reservedZero (ok : Bool) (i : Instr) : Except DecodeError Instr :=
  if ok then .ok i else .error .reservedField

/-- Decoding (R136, R137): total on 96-bit values. -/
def decode (c : Cmd) : Except DecodeError Instr :=
  if c.op = 0x01 then reservedZero (c.y == 0) (.setSampleRate c.x c.u c.v)
  else if c.op = 0x02 then reservedZero (c.y == 0 && c.v == 0) (.setBassFreq c.x c.u)
  else if c.op = 0x03 then reservedZero (c.y == 0 && c.u == 0 && c.v == 0) (.readSample c.x)
  else if c.op = 0x04 then reservedZero (c.y == 0 && c.v == 0) (.readSamples c.x c.u)
  else if c.op = 0x05 then reservedZero (c.y == 0 && c.u == 0 && c.v == 0) (.flush c.x)
  else if c.op = 0x06 then reservedZero (c.y == 0 && c.v == 0) (.setVolume c.x c.u)
  else if c.op = 0x07 then .ok (.setTreble c.x c.y c.u c.v)
  else if c.op = 0x08 then reservedZero (c.y == 0 && c.v == 0) (.setOutput c.x c.u)
  else if c.op = 0x09 then
    reservedZero (c.x == 0 && c.u.extractLsb' 8 24 == 0 && c.v == 0) (.write c.y (c.u.extractLsb' 0 8))
  else if c.op = 0x0A then reservedZero (c.x == 0 && c.y == 0 && c.v == 0) (.runUntil c.u)
  else if c.op = 0x0B then reservedZero (c.x == 0 && c.y == 0 && c.v == 0) (.endFrame c.u)
  else if c.op = 0x0C then reservedZero (c.x == 0 && c.y == 0 && c.u == 0 && c.v == 0) .reset
  else .error .unknownOpcode

/-! ### The encoder -/

/-- The fields of a command put together (R130). -/
def Cmd.make (op x : Byte) (y : Half) (u v : Word) : Cmd := ⟨op ++ x ++ y, u, v⟩

/-- The words of a command (R136): reserved-zero fields are 0. -/
def encode : Instr → Cmd
  | .setSampleRate x u v => .make 0x01 x 0 u v
  | .setBassFreq x u => .make 0x02 x 0 u 0
  | .readSample x => .make 0x03 x 0 0 0
  | .readSamples x u => .make 0x04 x 0 u 0
  | .flush x => .make 0x05 x 0 0 0
  | .setVolume x u => .make 0x06 x 0 u 0
  | .setTreble x y u v => .make 0x07 x y u v
  | .setOutput x u => .make 0x08 x 0 u 0
  | .write y d => .make 0x09 0 y (d.setWidth 32) 0
  | .runUntil u => .make 0x0A 0 0 u 0
  | .endFrame u => .make 0x0B 0 0 u 0
  | .reset => .make 0x0C 0 0 0 0

/-! ### The opcode table (R138) -/

/-- A row of spec/opcode_table.json: `match` and `mask` over `W0 || W1 || W2`, W0 in bits 95:64. -/
structure OpcodeRow where
  mnemonic : String
  pattern : BitVec 96
  mask : BitVec 96
  deriving DecidableEq, Repr

/-- The rows of spec/opcode_table.json, in its order. -/
def opcodeTable : List OpcodeRow :=
  [⟨"SET_SAMPLE_RATE", 0x010000000000000000000000, 0xFF00FFFF0000000000000000⟩,
   ⟨"SET_BASS_FREQ", 0x020000000000000000000000, 0xFF00FFFF00000000FFFFFFFF⟩,
   ⟨"READ_SAMPLE", 0x030000000000000000000000, 0xFF00FFFFFFFFFFFFFFFFFFFF⟩,
   ⟨"READ_SAMPLES", 0x040000000000000000000000, 0xFF00FFFF00000000FFFFFFFF⟩,
   ⟨"FLUSH", 0x050000000000000000000000, 0xFF00FFFFFFFFFFFFFFFFFFFF⟩,
   ⟨"SET_VOLUME", 0x060000000000000000000000, 0xFF00FFFF00000000FFFFFFFF⟩,
   ⟨"SET_TREBLE", 0x070000000000000000000000, 0xFF0000000000000000000000⟩,
   ⟨"SET_OUTPUT", 0x080000000000000000000000, 0xFF00FFFF00000000FFFFFFFF⟩,
   ⟨"WRITE", 0x090000000000000000000000, 0xFFFF0000FFFFFF00FFFFFFFF⟩,
   ⟨"RUN_UNTIL", 0x0A0000000000000000000000, 0xFFFFFFFF00000000FFFFFFFF⟩,
   ⟨"END_FRAME", 0x0B0000000000000000000000, 0xFFFFFFFF00000000FFFFFFFF⟩,
   ⟨"RESET", 0x0C0000000000000000000000, 0xFFFFFFFFFFFFFFFFFFFFFFFF⟩]

/-- The row of a command in the table. -/
def Instr.mnemonic : Instr → String
  | .setSampleRate .. => "SET_SAMPLE_RATE"
  | .setBassFreq .. => "SET_BASS_FREQ"
  | .readSample .. => "READ_SAMPLE"
  | .readSamples .. => "READ_SAMPLES"
  | .flush .. => "FLUSH"
  | .setVolume .. => "SET_VOLUME"
  | .setTreble .. => "SET_TREBLE"
  | .setOutput .. => "SET_OUTPUT"
  | .write .. => "WRITE"
  | .runUntil .. => "RUN_UNTIL"
  | .endFrame .. => "END_FRAME"
  | .reset => "RESET"

/-- The 96-bit value `W0 || W1 || W2` of a command (R138). -/
def Cmd.bits (c : Cmd) : BitVec 96 := c.w0 ++ c.w1 ++ c.w2

/-- The command of a 96-bit value numbered as spec/opcode_table.json numbers it: W0 in bits 95:64. -/
def Cmd.ofBits (b : BitVec 96) : Cmd := ⟨b.extractLsb' 64 32, b.extractLsb' 32 32, b.extractLsb' 0 32⟩

/-! ### The transport (R104) -/

/-- A word as it is sent: least-significant byte first. -/
def wordBytes (w : Word) : List Byte :=
  [w.extractLsb' 0 8, w.extractLsb' 8 8, w.extractLsb' 16 8, w.extractLsb' 24 8]

/-- The word of four bytes, the first least significant. -/
def wordOfBytes (b0 b1 b2 b3 : Byte) : Word := b3 ++ b2 ++ b1 ++ b0

/-- A command as it is sent: W0, W1, W2, each least-significant byte first. -/
def Cmd.bytes (c : Cmd) : List Byte := wordBytes c.w0 ++ wordBytes c.w1 ++ wordBytes c.w2

/-- What the head of the transport's bytes holds. -/
inductive Fetched where
  /-- Nothing: the host has sent no further command. -/
  | idle
  /-- One to eleven bytes: no whole command (spec/70_reset_and_hazards.md R612). -/
  | incomplete
  /-- A whole command and the bytes after it. -/
  | command (c : Cmd) (rest : List Byte)
  deriving DecidableEq, Repr

/-- Take the next whole command off the transport: every command is 96 bits, whatever it holds (R130). -/
def fetchCommand : List Byte → Fetched
  | [] => .idle
  | a0 :: a1 :: a2 :: a3 :: b0 :: b1 :: b2 :: b3 :: c0 :: c1 :: c2 :: c3 :: rest =>
    .command ⟨wordOfBytes a0 a1 a2 a3, wordOfBytes b0 b1 b2 b3, wordOfBytes c0 c1 c2 c3⟩ rest
  | _ => .incomplete

/-- The bytes of the command whose bits are `w`, numbered as spec/opcode_table.json numbers them (a 96-bit value,
W0 in bits 95:64); bits above `nbits` are 0. Assumption log entry 4. -/
def tableWordBytes (nbits w : Nat) : List Byte := (Cmd.ofBits (BitVec.ofNat 96 (w % 2 ^ nbits))).bytes

/-- The command the decoder reads from a table word: its bytes fetched as the device fetches them, then decoded. -/
def decodeTableWord (nbits w : Nat) : Option Instr :=
  match fetchCommand (tableWordBytes nbits w) with
  | .command c _ => (decode c).toOption
  | .idle => none
  | .incomplete => none

end Sys2Proof
end

