-- ==== Sys2Proof/Config.lean ====
section
/-! DEFINITION. What an implementation fixes: the parameters of the generic core (spec/00_scope.md R9), the type
`ChipConfig` of every chip table (R10), its one value `ref1` (REF-1), and the OPEN kernel generator
(spec/41_step_synthesizer.md R252). None of this is state (spec/10_state.md R30). -/

namespace Sys2Proof

namespace Config

/-! ### The generic core (R9) -/

/-- `FACTOR_FRAC_BITS`: fraction bits of a buffer's `factor` (Q16.16). -/
abbrev factorFracBits : Nat := 16
/-- `PHASE_BITS`: bits of the sub-sample phase. -/
abbrev phaseBits : Nat := 6
/-- `PHASES`: sub-sample phases, the rows of a kernel table. -/
abbrev phases : Nat := 64
/-- `DELAY_LEN`: slots of a delay line, the widest kernel plus one. -/
abbrev delayLen : Nat := 17
/-- `DF_BITS`: scale of `delta_factor`. -/
abbrev dfBits : Nat := 31
/-- `OUT_SHIFT`: accumulator to sample shift. -/
abbrev outShift : Nat := 16
/-- `BASS_BASE`: bass shift of the lowest cutoff. -/
abbrev bassBase : Nat := 13
/-- `BASS_MAX`: bass shift of cutoff 0. -/
abbrev bassMax : Nat := 31
/-- `BASS_FREQ_RESET`: bass cutoff after power-on, in Hz. -/
abbrev bassFreqReset : Word := 16

/-- The identity string of the configured device (R3). -/
def identity : String := "POTATOCHIPS-BLIP-CORE/REF-1"

end Config

/-! ### Quality tiers and kernels -/

/-- A quality tier (R250): it fixes the kernel width. -/
inductive Tier where
  | q8 | q12 | q16
  deriving DecidableEq, Repr

/-- The kernel width `W` of a tier, in taps (R9, R250). -/
def Tier.width : Tier → Nat
  | .q8 => 8
  | .q12 => 12
  | .q16 => 16

/-- The equaliser description `(treble, rolloff_freq, cutoff_freq)` (R46, R257): a gain in dB as an `f32` pattern
and two frequencies in Hz. -/
structure Equaliser where
  treble : F32
  rolloff : Word
  cutoff : Half
  deriving DecidableEq, Repr, Inhabited

/-- `EQ_DEFAULT = (0.0, 0, 0)` (R46). -/
def Equaliser.default : Equaliser := ⟨0, 0, 0⟩

/-- A kernel table `K`, row `p` for sub-sample phase `p`, with its `kernel_unit` (R44, R251). The taps are held as
integers, and their `s16` range is a clause of the kernel law (`Kernel.lawful`): the spec's own test kernel
`K_LIN` (R253) has a tap of 32768, one above that range. Assumption log entry 5. -/
structure Kernel where
  table : List (List Int)
  unit : Nat
  deriving DecidableEq, Repr, Inhabited

/-- `kernel_gen(W, eq)`, OPEN (R252, D20): the source gives no formula, so nothing here says what it returns. The
model uses it only through `Machine.kernelOf`, which keeps the law of R251. Assumption log entry 1. -/
opaque Config.kernelGen (width : Nat) (eq : Equaliser) : Kernel

/-- What a `WAVE` oscillator reads at a position past the end of the wave RAM: a free value. A chip may have more
`WAVE` steps than `WAVE_RAM_SIZE` (R10 sets no bound), and the spec states no sample there (R326); REF-1 has as many
entries as steps, so no run of it reads this. Nothing says what it is but that it is a 4-bit sample like every entry
(R47). Assumption log entry 16. -/
opaque Config.ramPastEnd (position : Nat) : BitVec 4

/-! ### Chip tables -/

/-- The kind of an oscillator (R300) with the addresses of its registers in the window (R301). A pulse may have a
sweep unit; its envelope, like the noise voice's, is read through the control register. -/
inductive Voice where
  /-- `PULSE`: control, sweep, and the two divider registers. -/
  | pulse (ctrl : Nat) (sweep : Option Nat) (nlo nhi : Nat)
  /-- `WAVE`: volume and the two divider registers. -/
  | wave (vol nlo nhi : Nat)
  /-- `NOISE`: control, mode and trigger registers. -/
  | noise (ctrl mode trig : Nat)
  deriving DecidableEq, Repr

/-- The addresses of a voice's registers. -/
def Voice.addresses : Voice → List Nat
  | .pulse ctrl sweep nlo nhi => ctrl :: nlo :: nhi :: sweep.toList
  | .wave vol nlo nhi => [vol, nlo, nhi]
  | .noise ctrl mode trig => [ctrl, mode, trig]

/-- What `ChipConfig` fixes for one oscillator: its voice and its synthesizer `SYNTH_OF` (R10, R302). -/
structure OscConfig (numSynth : Nat) where
  voice : Voice
  synth : Fin numSynth
  deriving DecidableEq, Repr

/-- The side effect of a register write (spec/43_chip.md R405 to R413). -/
inductive WriteEffect (numOsc : Nat) where
  /-- R405: `sw_reload <- 1`. -/
  | sweepReload (p : Fin numOsc)
  /-- R407: with `data[7]`, phase restart and envelope start. -/
  | pulseTrigger (p : Fin numOsc)
  /-- R409: with `data[7]`, wave position restart. -/
  | waveTrigger (p : Fin numOsc)
  /-- R411: with `data[7]`, envelope start. -/
  | noiseTrigger (p : Fin numOsc)
  /-- R412, `W_ADDR`: load the latch (5 address bits on every chip: assumption log entry 21). -/
  | ramAddress
  /-- R412, `W_DATA`: store at the latch, then advance it when `AINC` (bit 7 of the register at `ainc`) is set. -/
  | ramData (ainc : Nat)
  deriving DecidableEq, Repr

/-- `ChipConfig` (R4, R10, D35): every chip table, with the constraints a model checks on it. That `STEPS` divides
`CLOCK_DIV` is R305's; the other constraints, and what a rule that is written with REF-1's numbers says of a chip with
other numbers, are the model's choice (assumption log entries 18 and 21). -/
structure ChipConfig where
  numBuf : Nat
  numSynth : Nat
  numOsc : Nat
  /-- `QUALITY_OF` -/
  tierOf : Vector Tier numSynth
  /-- Oscillator kinds, register map and `SYNTH_OF`. -/
  oscOf : Vector (OscConfig numSynth) numOsc
  /-- `REG_SIZE` -/
  regSize : Nat
  /-- `CLOCK_DIV` and `STEPS` of the pulse and wave kinds. -/
  pulseClockDiv : Nat
  pulseSteps : Nat
  waveClockDiv : Nat
  waveSteps : Nat
  /-- `DUTY`, indexed by the two duty bits. -/
  duty : Vector Nat 4
  /-- `INAUDIBLE_F` -/
  inaudibleF : Nat
  waveRamSize : Nat
  lfsrWidth : Nat
  lfsrSeed : Nat
  tapLong : Nat
  tapShort : Nat
  /-- `NOISE_PERIOD(i)` -/
  noisePeriod : Vector Nat 16
  fsPeriod : Nat
  fsSteps : Nat
  /-- `FS_ACTIONS`: the envelopes clocked at every step, the steps that clock sweeps, the sweeps clocked. -/
  envOscs : List (Fin numOsc)
  sweepSteps : List Nat
  sweepOscs : List (Fin numOsc)
  /-- Address of `MIX_EN`. -/
  mixEn : Nat
  /-- The side effect of each address that has one (R413). -/
  writeEffects : List (Nat × WriteEffect numOsc)
  /-- Rates the constants are tuned for; no rule reads them. -/
  refClockRate : Nat
  refSampleRate : Nat
  /-- `STEPS` divides `CLOCK_DIV` (R305); the period is at least 1, and a delay below it is a `u32` (R49). -/
  pulse_ok : 0 < pulseSteps ∧ pulseSteps ∣ pulseClockDiv ∧ 0 < pulseClockDiv ∧
    2048 * (pulseClockDiv / pulseSteps) ≤ 2 ^ 32
  wave_ok : 0 < waveSteps ∧ waveSteps ∣ waveClockDiv ∧ 0 < waveClockDiv ∧
    2048 * (waveClockDiv / waveSteps) ≤ 2 ^ 32
  /-- Every noise period is at least one cycle (R305), and a delay below it is a `u32` (R49). -/
  noise_ok : ∀ i : Fin 16, 0 < noisePeriod[i] ∧ noisePeriod[i] ≤ 2 ^ 32
  ram_ok : 0 < waveRamSize
  /-- A tap is a bit of the register other than bit 0, and the seed is not 0: so the register never becomes 0, as R331
  says of REF-1 (the model's choice for another chip, assumption log entry 21). -/
  lfsr_ok : (0 < tapLong ∧ tapLong < lfsrWidth) ∧ (0 < tapShort ∧ tapShort < lfsrWidth) ∧
    0 < lfsrSeed ∧ lfsrSeed < 2 ^ lfsrWidth
  fs_ok : 0 < fsPeriod ∧ 0 < fsSteps
  /-- Every register an oscillator reads, and `MIX_EN`, is in the window (R40, R64). -/
  window_ok : mixEn < regSize ∧ ∀ i : Fin numOsc, ∀ a ∈ oscOf[i].voice.addresses, a < regSize

namespace Config

/-- REF-1, the reference configuration (R10, R301, spec/10_state.md section 7, R413, R431). -/
abbrev ref1 : ChipConfig where
  numBuf := 4
  numSynth := 3
  numOsc := 4
  tierOf := #v[.q8, .q8, .q8]
  oscOf := #v[⟨.pulse 0x00 (some 0x01) 0x02 0x03, 0⟩,
              ⟨.pulse 0x04 (some 0x05) 0x06 0x07, 0⟩,
              ⟨.wave 0x08 0x09 0x0A, 1⟩,
              ⟨.noise 0x0D 0x0E 0x0F, 2⟩]
  regSize := 0x11
  pulseClockDiv := 8
  pulseSteps := 8
  waveClockDiv := 32
  waveSteps := 32
  duty := #v[1, 2, 4, 6]
  inaudibleF := 16
  waveRamSize := 32
  lfsrWidth := 15
  lfsrSeed := 1
  tapLong := 1
  tapShort := 6
  noisePeriod := #v[4, 8, 16, 32, 64, 128, 256, 512, 1024, 2048, 4096, 8192, 16384, 32768, 65536, 131072]
  fsPeriod := 3200
  fsSteps := 4
  envOscs := [0, 1, 3]
  sweepSteps := [1, 3]
  sweepOscs := [0, 1]
  mixEn := 0x10
  writeEffects := [(0x01, .sweepReload 0), (0x03, .pulseTrigger 0),
                   (0x05, .sweepReload 1), (0x07, .pulseTrigger 1),
                   (0x0A, .waveTrigger 2), (0x0B, .ramAddress), (0x0C, .ramData 0x0B),
                   (0x0F, .noiseTrigger 3)]
  refClockRate := 768000
  refSampleRate := 48000
  pulse_ok := by decide
  wave_ok := by decide
  noise_ok := by decide
  ram_ok := by decide
  lfsr_ok := by decide
  fs_ok := by decide
  window_ok := by decide

/-- The configuration of the host's machine: REF-1 (R3, R4). The state, every operation, the step and the core take
their configuration as an argument (`Machine.State cfg`, `Machine.stepFor`, `Machine.coreFor`); `Machine.exec`,
`Machine.step` and `core` are those at this one. Assumption log entry 2. -/
abbrev chip : ChipConfig := ref1

end Config

end Sys2Proof
end

