-- ==== Sys2Proof/Machine/Kernel.lean ====
section
/-! DEFINITION. Kernel tables (spec/41_step_synthesizer.md R251 to R254): the law every generated kernel obeys, the
kernel of a width and equaliser, the test kernel of R253, and `delta_factor`. -/

namespace Sys2Proof

/-- `K[p][j]` (R251); 0 outside the table, which no state that keeps the invariant reads (assumption log entry 16). -/
def Kernel.tap (k : Kernel) (p j : Nat) : Int := (k.table.getD p []).getD j 0

/-- A tap is an `s16` value (R251). -/
abbrev Kernel.tapInRange (t : Int) : Prop := -2 ^ 15 ≤ t ∧ t < 2 ^ 15

/-- The law of R251 and R252 for width `w`: 64 rows of `w` `s16` taps, every row summing to `kernel_unit >= 1`. -/
abbrev Kernel.lawful (w : Nat) (k : Kernel) : Prop :=
  k.table.length = Config.phases ∧ 1 ≤ k.unit ∧
  ∀ row ∈ k.table, row.length = w ∧ row.sum = (k.unit : Int) ∧ ∀ t ∈ row, Kernel.tapInRange t

namespace Machine

/-- A kernel that obeys the law at every width from 1 up: tap 0 of every row is 1, every other tap 0. -/
def unitKernel (w : Nat) : Kernel := ⟨List.replicate Config.phases (1 :: List.replicate (w - 1) 0), 1⟩

/-- The kernel of width `w` and equaliser `eq` (R252): what `kernel_gen` returns, which the law constrains and
nothing else does. Every lawful generator is of this form, and a generator that broke the law would be replaced
where it does, so no statement about the model can rest on more than the law. Assumption log entry 1. -/
def kernelOf (w : Nat) (eq : Equaliser) : Kernel :=
  if (Config.kernelGen w eq).lawful w then Config.kernelGen w eq else unitKernel w

/-- Row `p` of the test kernel `K_LIN` (R253). -/
def kLinRow (p : Nat) : List Int := [0, 0, 0, 512 * (64 - p), 512 * p, 0, 0, 0]

/-- The test kernel `K_LIN` of width 8 (R253): for the vectors of spec/95_test_vectors.md only. -/
def kLin : Kernel := ⟨(List.range Config.phases).map kLinRow, 32768⟩

/-- `delta_factor(level, kernel_unit) = floor(level * 2^31 / kernel_unit + 1/2)` on exact rationals (R254), with
the level in units of `2^-149`. -/
def deltaFactorOf (level unit : Nat) : Nat :=
  (2 * level * 2 ^ Config.dfBits + unit * 2 ^ 149) / (2 * unit * 2 ^ 149)

end Machine

end Sys2Proof
end

