-- ==== Sys2Proof/Machine/Memory.lean ====
section
/-! DEFINITION. The register window as sparse data (spec/20_memory.md R100 (1), R101, R102): one byte per address,
held as (address, byte) pairs in one canonical form. Power-on and `RESET` make every register 0x00
(spec/10_state.md R40), so that is what an unlisted address reads as. Which addresses exist is `REG_SIZE`'s, and
`WRITE` checks it (spec/43_chip.md R402). -/

namespace Sys2Proof.Machine

/-- The bytes of the register window that are not 0x00, by rising address. -/
abbrev Memory := List Host.Cell

/-- What an unlisted address reads as: the power-on and `RESET` value of every register (R40). -/
abbrev unlistedByte : Byte := 0x00

/-- `regs[a]`. -/
def Memory.read : Memory → Nat → Byte
  | [], _ => unlistedByte
  | (b, v) :: rest, a => if a = b then v else Memory.read rest a

/-- `regs[a] <- v`, keeping the canonical form. -/
def Memory.write : Memory → Nat → Byte → Memory
  | [], a, v => if v = unlistedByte then [] else [(a, v)]
  | (b, w) :: rest, a, v =>
    if a < b then (if v = unlistedByte then (b, w) :: rest else (a, v) :: (b, w) :: rest)
    else if a = b then (if v = unlistedByte then rest else (a, v) :: rest)
    else (b, w) :: Memory.write rest a v

/-- The canonical form: addresses strictly rising, no entry equal to what an unlisted address reads as. -/
abbrev Memory.wf (m : Memory) : Prop :=
  m.Pairwise (fun c d => c.1 < d.1) ∧ ∀ c ∈ m, c.2 ≠ unlistedByte

/-- Every listed address is below `n`. -/
abbrev Memory.within (m : Memory) (n : Nat) : Prop := ∀ c ∈ m, c.1 < n

end Sys2Proof.Machine
end

