-- ==== Sys2Proof/Machine/State.lean ====
section
/-! DEFINITION. The state of the device (spec/10_state.md R30 to R52), field by field, the host's side of the command
interface (spec/30_encoding.md R133, R134), the reasons a step stops, and the power-on state
(spec/70_reset_and_hazards.md R600). -/

namespace Sys2Proof.Machine

/-! ### Statuses -/

/-- The faults of `FAULT` (R32, R134): temporal violations that stop the device for good. -/
inductive FaultCode where
  | timeRegression
  | timeOutOfRange
  | bufferUnconfigured
  deriving DecidableEq, Repr

/-- The errors (R134): the command has no effect, the device goes on. -/
inductive ErrorCode where
  | invalidRate
  | volumeTooLow
  | addressOutOfRange
  | indexOutOfRange
  deriving DecidableEq, Repr

/-- The refusals (R134, R505): the command has no effect, the device goes on, and the run is marked. -/
inductive RefusalCode where
  | illegalCommand
  | invalidArgument
  deriving DecidableEq, Repr

/-- The status of a command, by outcome class (R14, R134). -/
inductive Status where
  | ok
  | error (e : ErrorCode)
  | faulted
  | fault (c : FaultCode)
  | refusal (r : RefusalCode)
  deriving DecidableEq, Repr

/-- The response to one command: its status and, for the two read commands on OK, the samples (R133). -/
structure Response where
  status : Status
  samples : List Half
  deriving DecidableEq, Repr

/-! ### The device (R30) -/

/-- One SynthesisBuffer (R33 to R39). Rates are `s32` patterns; slot 0 of the delay line is consumed next. -/
structure Buffer where
  sampleRate : Word
  clockRate : Word
  /-- Q16.16; 0 means unconfigured. -/
  factor : Word
  bassFreq : Word
  bassShift : Nat
  acc : Slot
  dl : Vector Slot Config.delayLen
  deriving DecidableEq, Repr

/-- One StepSynthesizer (R44 to R46). `level` is exact, in units of `2^-149`. -/
structure Synth where
  /-- `W`, fixed by the quality tier. -/
  width : Nat
  /-- `K` and `kernel_unit`. -/
  kernel : Kernel
  level : Nat
  deltaFactor : Nat
  eq : Equaliser
  deriving DecidableEq, Repr

/-- One oscillator (R49 to R52). A field its kind does not use stays at its reset value. -/
structure Osc (cfg : ChipConfig) where
  phase : Nat
  delay : Word
  lastAmp : Int
  /-- `none` is `NULL`. -/
  output : Option (Fin cfg.numBuf)
  lfsr : BitVec cfg.lfsrWidth
  envStart : Bool
  envDiv : BitVec 4
  envLevel : BitVec 4
  swDiv : BitVec 3
  swReload : Bool
  deriving DecidableEq, Repr

/-- The device record of R30, for a chip of configuration `cfg`. -/
structure Device (cfg : ChipConfig) where
  /-- `FAULT`; `none` is `NONE` (R32). -/
  fault : Option FaultCode
  buf : Vector Buffer cfg.numBuf
  syn : Vector Synth cfg.numSynth
  osc : Vector (Osc cfg) cfg.numOsc
  /-- The register window (R40). -/
  regs : Memory
  /-- The wave RAM (R47). -/
  ram : Vector (BitVec 4) cfg.waveRamSize
  /-- The wave RAM address latch (R48). -/
  latch : Fin cfg.waveRamSize
  /-- Chip time in the current frame (R41). -/
  lastTime : Word
  /-- Chip time of the next frame-sequencer tick (R42): below `2^32 + FS_PERIOD`, so wider than a `u32`. -/
  fsNext : Nat
  /-- Index of the next frame-sequencer step (R43). -/
  fsStep : Nat
  deriving DecidableEq, Repr

/-! ### The machine -/

/-- A device of configuration `cfg` with its command interface: the machine of the generic core takes the chip
configuration as a parameter (R4, R9), and `State` alone is the machine of `Config.chip`. The last three fields are
the MODEL's, not the spec's: the bytes the host has sent and the device has not taken yet (R104, R130), the responses
returned so far, oldest first (R133), and the mark of the run that R505 asks for, a count of refused commands. -/
structure State (cfg : ChipConfig := Config.chip) where
  dev : Device cfg
  inbox : List Byte
  outbox : List Response
  refusals : Nat
  deriving DecidableEq, Repr

/-- Reasons a step stops with a fault: none. The faults of this device (R504) are next states: `FAULT` is set, the
status is returned, and every later command is answered `Faulted`. Safe: no behaviour is cut short. -/
inductive Fault where
  deriving DecidableEq, Repr

/-- Reasons a step has no meaning. -/
inductive Refusal where
  /-- Raised by an arm of `exec` whose instruction has no meaning in the model: none is. Safe. -/
  | notModelled (mnemonic : String)
  /-- Raised by `step` when the transport holds one to eleven bytes: R612 "a model gives it no move". Safe. -/
  | partialCommand
  deriving DecidableEq, Repr

/-! ### Power-on (R600) -/

/-- A buffer at power-on: unconfigured, silent. -/
def Buffer.powerOn : Buffer where
  sampleRate := 0
  clockRate := 0
  factor := 0
  bassFreq := Config.bassFreqReset
  bassShift := Config.bassMax
  acc := 0
  dl := Vector.replicate _ 0

/-- A synthesizer of a tier at power-on: level 0 and the kernel of `EQ_DEFAULT`. -/
def Synth.powerOn (t : Tier) : Synth where
  width := t.width
  kernel := kernelOf t.width Equaliser.default
  level := 0
  deltaFactor := 0
  eq := Equaliser.default

/-- An oscillator at power-on: unbound, with the seed in its noise register. -/
def Osc.powerOn (cfg : ChipConfig) : Osc cfg where
  phase := 0
  delay := 0
  lastAmp := 0
  output := none
  lfsr := BitVec.ofNat _ cfg.lfsrSeed
  envStart := false
  envDiv := 0
  envLevel := 0
  swDiv := 0
  swReload := false

/-- The device at power-on (R600). -/
def Device.powerOn (cfg : ChipConfig) : Device cfg where
  fault := none
  buf := Vector.replicate _ Buffer.powerOn
  syn := Vector.ofFn fun s => Synth.powerOn cfg.tierOf[s]
  osc := Vector.replicate _ (Osc.powerOn cfg)
  regs := []
  ram := Vector.replicate _ 0
  latch := ⟨0, cfg.ram_ok⟩
  lastTime := 0
  fsNext := cfg.fsPeriod
  fsStep := 0

/-- The machine of a chip right after power-on: no command sent, no response returned. -/
def State.powerOn (cfg : ChipConfig) : State cfg where
  dev := Device.powerOn cfg
  inbox := []
  outbox := []
  refusals := 0

/-- The machine right after power-on. Only power-on sets every field, so the model's reset is power-on and the command
`RESET` is its own instruction (R426, R601). -/
def State.reset : State := State.powerOn Config.chip

end Sys2Proof.Machine
end

