-- ==== Sys2Proof/Machine/Operands.lean ====
section
/-! DEFINITION. Operands of commands (spec/30_encoding.md R132) and fields of the REF-1 registers
(spec/10_state.md R53 to R63). A rate or frequency operand is `s32`: its value is `BitVec.toInt`. -/

namespace Sys2Proof.Machine

/-! ### Index operands -/

/-- An index operand checked against its bound (R200): `none` is `IndexOutOfRange`. -/
def indexOperand (n : Nat) (x : Nat) : Option (Fin n) := if h : x < n then some ⟨x, h⟩ else none

/-- The buffer operand of `SET_OUTPUT` (R132, R350): 0xFFFFFFFF is `NULL`, an index below `n` is a buffer, anything
else (`none` here) is `IndexOutOfRange`. -/
def outputOperand (n : Nat) (u : Word) : Option (Option (Fin n)) :=
  if u = 0xFFFFFFFF#32 then some none else (indexOperand n u.toNat).map some

/-! ### Register fields -/

/-- `CTRL[7:6]`, the duty selector (R53). -/
def ctrlDuty (b : Byte) : Fin 4 := (b.extractLsb' 6 2).toFin
/-- `CTRL[5]`, `LOOP` (R53, R60). -/
def ctrlLoop (b : Byte) : Bool := b.getLsbD 5
/-- `CTRL[4]`, `CONST` (R53, R60). -/
def ctrlConst (b : Byte) : Bool := b.getLsbD 4
/-- `CTRL[3:0]`, `VOLP`: the constant volume or the envelope divider period (R53, R60). -/
def ctrlVolp (b : Byte) : BitVec 4 := b.extractLsb' 0 4

/-- `SWEEP[7]`, `EN` (R54). -/
def sweepEnable (b : Byte) : Bool := b.getLsbD 7
/-- `SWEEP[6:4]`, `SP` (R54). -/
def sweepPeriod (b : Byte) : BitVec 3 := b.extractLsb' 4 3
/-- `SWEEP[3]`, `NEG` (R54). -/
def sweepNegate (b : Byte) : Bool := b.getLsbD 3
/-- `SWEEP[2:0]`, `SH` (R54). -/
def sweepShift (b : Byte) : Nat := (b.extractLsb' 0 3).toNat

/-- The 11-bit divider value `N = {NHI[2:0], NLO[7:0]}` (R55, R57). -/
def dividerOf (nlo nhi : Byte) : BitVec 11 := nhi.extractLsb' 0 3 ++ nlo
/-- Bit 7 of a trigger register, `TRIG` (R55, R57, R62). -/
def triggerBit (b : Byte) : Bool := b.getLsbD 7

/-- `W_VOL[3:0]` (R56). -/
def waveVolume (b : Byte) : BitVec 4 := b.extractLsb' 0 4
/-- `W_ADDR[7]`, `AINC` (R58). -/
def addrAutoInc (b : Byte) : Bool := b.getLsbD 7
/-- `W_ADDR[4:0]`, `ADDR` (R58). -/
def addrField (b : Byte) : BitVec 5 := b.extractLsb' 0 5
/-- `W_DATA[3:0]`, `SAMPLE` (R59). -/
def dataSample (b : Byte) : BitVec 4 := b.extractLsb' 0 4

/-- `N_MODE[7]`, `SHORT` (R61). -/
def modeShort (b : Byte) : Bool := b.getLsbD 7
/-- `N_MODE[3:0]`, `PIDX` (R61). -/
def modePeriod (b : Byte) : Fin 16 := (b.extractLsb' 0 4).toFin

/-- `MIX_EN[i]`, the enable bit of oscillator `i` (R63). -/
def mixEnabled (b : Byte) (i : Nat) : Bool := b.getLsbD i

end Sys2Proof.Machine
end

