-- ==== Sys2Proof/Machine/Ops.lean ====
section
/-! DEFINITION. The operations every command shares: reading and writing one component of the device, sequencing
micro-operations that may fault, ending a command in one of its four outcomes (spec/00_scope.md R14,
spec/60_exceptions.md R500 to R507), and taking a fault (R504). There is no return from a fault (R512). -/

namespace Sys2Proof.Machine

variable {cfg : ChipConfig}

/-! ### Components -/

/-- `buf[b]`. -/
def Device.bufAt (d : Device cfg) (b : Fin cfg.numBuf) : Buffer := d.buf[b.1]
/-- `buf[b] <- v`. -/
def Device.setBuf (d : Device cfg) (b : Fin cfg.numBuf) (v : Buffer) : Device cfg :=
  { d with buf := d.buf.set b.1 v }
/-- `syn[s]`. -/
def Device.synAt (d : Device cfg) (s : Fin cfg.numSynth) : Synth := d.syn[s.1]
/-- `syn[s] <- v`. -/
def Device.setSyn (d : Device cfg) (s : Fin cfg.numSynth) (v : Synth) : Device cfg :=
  { d with syn := d.syn.set s.1 v }
/-- `osc[i]`. -/
def Device.oscAt (d : Device cfg) (i : Fin cfg.numOsc) : Osc cfg := d.osc[i.1]
/-- `osc[i] <- v`. -/
def Device.setOsc (d : Device cfg) (i : Fin cfg.numOsc) (v : Osc cfg) : Device cfg :=
  { d with osc := d.osc.set i.1 v }
/-- `regs[a]`. -/
def Device.reg (d : Device cfg) (a : Nat) : Byte := d.regs.read a
/-- `regs[a] <- v`. -/
def Device.setReg (d : Device cfg) (a : Nat) (v : Byte) : Device cfg := { d with regs := d.regs.write a v }

/-! ### Micro-operations -/

/-- How far a micro-operation got: it completed, or it faulted in a device that keeps every effect before the
faulting step (R504). -/
inductive Progress (cfg : ChipConfig) where
  | ok (d : Device cfg)
  | trap (d : Device cfg) (c : FaultCode)
  deriving DecidableEq, Repr

/-- Go on after a micro-operation; a fault ends the command at the step that raised it (R504). -/
def Progress.andThen (p : Progress cfg) (k : Device cfg → Progress cfg) : Progress cfg :=
  match p with
  | .ok d => k d
  | .trap d c => .trap d c

/-! ### Ending a command -/

/-- What a command body does to the device: one of the four outcomes of R14. -/
inductive Answer (cfg : ChipConfig) where
  /-- OK, with the payload of a read. -/
  | done (d : Device cfg) (samples : List Half)
  /-- An error: no state changes (R503). -/
  | error (e : ErrorCode)
  /-- A fault raised at a step whose earlier effects are kept (R504). -/
  | fault (d : Device cfg) (c : FaultCode)
  /-- A refusal: no state changes (R505). -/
  | refusal (r : RefusalCode)
  deriving DecidableEq, Repr

/-- A command that is over when its micro-operation is. -/
def Progress.answer : Progress cfg → Answer cfg
  | .ok d => .done d []
  | .trap d c => .fault d c

/-- Taking a fault: `FAULT <- code`, nothing else (R504, R511). -/
def Device.takeFault (d : Device cfg) (c : FaultCode) : Device cfg := { d with fault := some c }

/-- Return one response to the host (R133). -/
def State.respond (s : State cfg) (st : Status) (samples : List Half) : State cfg :=
  { s with outbox := s.outbox ++ [⟨st, samples⟩] }

/-- Record that a command was refused: the mark of the run that R505 asks for. -/
def State.markRefusal (s : State cfg) : State cfg := { s with refusals := s.refusals + 1 }

/-- A refusal (R505): the status is returned, the run is marked, the device is unchanged. -/
def State.refuse (s : State cfg) (r : RefusalCode) : State cfg := s.markRefusal.respond (.refusal r) []

/-- End a command with its outcome (R14): the payload of a status other than `OK` is empty (R133). -/
def State.conclude (s : State cfg) : Answer cfg → State cfg
  | .done d samples => { s with dev := d }.respond .ok samples
  | .error e => s.respond (.error e) []
  | .fault d c => { s with dev := d.takeFault c }.respond (.fault c) []
  | .refusal r => s.refuse r

/-- Execute a command: while `FAULT` is set the answer is `Faulted` and nothing changes (R506, R507 step 1);
otherwise the body decides. -/
def issue (s : State cfg) (body : Device cfg → Answer cfg) : Host.Outcome (State cfg) Fault Refusal :=
  match s.dev.fault with
  | some _ => .next (s.respond .faulted [])
  | none => .next (s.conclude (body s.dev))

end Sys2Proof.Machine
end

