-- ==== Sys2Proof/Machine/Buffer.lean ====
section
/-! DEFINITION. The SynthesisBuffer and its five commands (spec/40_synthesis_buffer.md). -/

namespace Sys2Proof.Machine

variable {cfg : ChipConfig}

/-! ### Shared functions -/

/-- Re-quantisation of the clock rate (R203): the largest multiple of `sr` not above `cr`. -/
def requant (sr cr : Int) : Int := sr * (cr / sr)

/-- The Q16.16 factor (R204): `sample_rate / clock_rate` rounded to nearest, ties upward. -/
def factorOf (sr crq : Int) : Int := (sr * 2 ^ 17 + crq) / (2 * crq)

/-- The loop of `bass_calc` (R205) from shift `shift` and power `p`. -/
def bassLoop (f : Int) : (shift : Nat) → (p : Int) → Nat
  | 0, _ => 0
  | shift + 1, p => if p ≤ f then bassLoop f shift (2 * p) else shift + 1

/-- The bass shift function (R205). -/
def bassCalc (hz sr : Int) : Nat :=
  if hz ≤ 0 ∨ sr ≤ 0 then Config.bassMax else bassLoop (hz * 2 ^ 16 / sr) Config.bassBase 2

/-- Accumulator and delay line zeroed (R215). -/
def Buffer.flushed (b : Buffer) : Buffer := { b with acc := 0, dl := Vector.replicate _ 0 }

/-- The accumulator after a read: the oldest slot goes in, the leak is taken from the old value (R210). -/
def Buffer.nextAcc (b : Buffer) : Slot := b.acc + b.dl[0] - b.acc.sshiftRight b.bassShift

/-- The delay line moved down one place (R210). -/
def shiftLine (dl : Vector Slot Config.delayLen) : Vector Slot Config.delayLen :=
  Vector.ofFn fun j => if h : j.1 + 1 < Config.delayLen then dl[j.1 + 1] else 0

/-- `sat16` (spec/00_scope.md R12). -/
def sat16 (v : Int) : Int := min 32767 (max (-32768) v)

/-- The sample of an accumulator (R211). -/
def sampleOf (acc : Slot) : Half := BitVec.ofInt 16 (sat16 (acc.toInt >>> Config.outShift))

/-- The buffer after one read (R210). -/
def Buffer.afterRead (b : Buffer) : Buffer := { b with acc := b.nextAcc, dl := shiftLine b.dl }

/-- The sample one read returns: taken after the slot is added (R210). -/
def Buffer.nextSample (b : Buffer) : Half := sampleOf b.nextAcc

/-- The buffer after `n` reads (R213). -/
def Buffer.afterReads : Nat → Buffer → Buffer
  | 0, b => b
  | n + 1, b => Buffer.afterReads n b.afterRead

/-- The samples of `n` reads, oldest first (R213). -/
def Buffer.nextSamples : Nat → Buffer → List Half
  | 0, _ => []
  | n + 1, b => b.nextSample :: Buffer.nextSamples n b.afterRead

/-! ### Command bodies -/

/-- A buffer configured with positive rates that re-quantise and convert (R202). -/
def Buffer.configured (b : Buffer) (sr crq f : Int) : Buffer :=
  { b.flushed with
    sampleRate := BitVec.ofInt 32 sr
    clockRate := BitVec.ofInt 32 crq
    factor := BitVec.ofInt 32 f
    bassShift := bassCalc b.bassFreq.toInt sr }

/-- `SET_SAMPLE_RATE` (R202). -/
def setSampleRate (x : Byte) (u v : Word) (d : Device cfg) : Answer cfg :=
  match indexOperand cfg.numBuf x.toNat with
  | none => .error .indexOutOfRange
  | some b =>
    let sr := u.toInt
    let cr := v.toInt
    if sr ≤ 0 ∨ cr ≤ 0 then .error .invalidRate
    else if requant sr cr ≤ 0 then .error .invalidRate
    else if factorOf sr (requant sr cr) = 0 then .error .invalidRate
    else .done (d.setBuf b ((d.bufAt b).configured sr (requant sr cr) (factorOf sr (requant sr cr)))) []

/-- `SET_BASS_FREQ` (R206). -/
def setBassFreq (x : Byte) (u : Word) (d : Device cfg) : Answer cfg :=
  match indexOperand cfg.numBuf x.toNat with
  | none => .error .indexOutOfRange
  | some b =>
    .done (d.setBuf b { d.bufAt b with
      bassFreq := u, bassShift := bassCalc u.toInt (d.bufAt b).sampleRate.toInt }) []

/-- `READ_SAMPLE` (R210). -/
def readSample (x : Byte) (d : Device cfg) : Answer cfg :=
  match indexOperand cfg.numBuf x.toNat with
  | none => .error .indexOutOfRange
  | some b => .done (d.setBuf b (d.bufAt b).afterRead) [(d.bufAt b).nextSample]

/-- `READ_SAMPLES` (R213). -/
def readSamples (x : Byte) (u : Word) (d : Device cfg) : Answer cfg :=
  match indexOperand cfg.numBuf x.toNat with
  | none => .error .indexOutOfRange
  | some b =>
    .done (d.setBuf b ((d.bufAt b).afterReads u.toNat)) ((d.bufAt b).nextSamples u.toNat)

/-- `FLUSH` (R215). -/
def flush (x : Byte) (d : Device cfg) : Answer cfg :=
  match indexOperand cfg.numBuf x.toNat with
  | none => .error .indexOutOfRange
  | some b => .done (d.setBuf b (d.bufAt b).flushed) []

/-! ### Meanings -/

/-- `SET_SAMPLE_RATE` (R202). -/
def execSetSampleRate (x : Byte) (u v : Word) (s : State) : Host.Outcome State Fault Refusal :=
  issue s (setSampleRate x u v)

/-- `SET_BASS_FREQ` (R206). -/
def execSetBassFreq (x : Byte) (u : Word) (s : State) : Host.Outcome State Fault Refusal :=
  issue s (setBassFreq x u)

/-- `READ_SAMPLE` (R210). -/
def execReadSample (x : Byte) (s : State) : Host.Outcome State Fault Refusal :=
  issue s (readSample x)

/-- `READ_SAMPLES` (R213). -/
def execReadSamples (x : Byte) (u : Word) (s : State) : Host.Outcome State Fault Refusal :=
  issue s (readSamples x u)

/-- `FLUSH` (R215). -/
def execFlush (x : Byte) (s : State) : Host.Outcome State Fault Refusal :=
  issue s (flush x)

end Sys2Proof.Machine
end

