-- ==== Sys2Proof/Machine/Float32.lean ====
section
/-! DEFINITION. `f32` operands: IEEE 754 binary32 bit patterns and their exact values (spec/00_scope.md R12,
spec/93_implementation_defined.md G1). Every finite binary32 value is a whole multiple of `2^-149`, so the exact
rational `real(f)` is held as a sign and a `Nat` count of `2^-149` (assumption log entry 3). -/

namespace Sys2Proof.Machine

/-- The sign bit: set for a negative pattern, negative zero included. -/
def f32Negative (u : F32) : Bool := u.getLsbD 31

/-- The 8-bit biased exponent. -/
def f32Exponent (u : F32) : Nat := (u.extractLsb' 23 8).toNat

/-- The 23-bit fraction field. -/
def f32Fraction (u : F32) : Nat := (u.extractLsb' 0 23).toNat

/-- Neither a NaN nor an infinity: the exponent field is not all ones. -/
def f32Finite (u : F32) : Bool := f32Exponent u != 255

/-- The magnitude of a finite pattern in units of `2^-149`: a denormal is its fraction, a normal number has the
hidden bit and is scaled by its exponent. -/
def f32Magnitude (u : F32) : Nat :=
  if f32Exponent u = 0 then f32Fraction u
  else (2 ^ 23 + f32Fraction u) * 2 ^ (f32Exponent u - 1)

/-- The value 1 in units of `2^-149`. -/
def levelOne : Nat := 2 ^ 149

/-- The level a finite pattern denotes, when it lies in `[0, 1]` (R255): either zero is 0; a value below 0 or
above 1 has none. -/
def f32Level (u : F32) : Option Nat :=
  if f32Negative u && f32Magnitude u != 0 then none
  else if levelOne < f32Magnitude u then none
  else some (f32Magnitude u)

end Sys2Proof.Machine
end

