-- ==== Sys2Proof/Machine/Synth.lean ====
section
/-! DEFINITION. The StepSynthesizer: its two commands and the micro-operation `OFFSET`
(spec/41_step_synthesizer.md). -/

namespace Sys2Proof.Machine

variable {cfg : ChipConfig}

/-! ### Command bodies -/

/-- `SET_VOLUME` (R255). -/
def setVolume (x : Byte) (u : F32) (d : Device cfg) : Answer cfg :=
  match indexOperand cfg.numSynth x.toNat with
  | none => .error .indexOutOfRange
  | some s =>
    if f32Finite u then
      match f32Level u with
      | none => .refusal .invalidArgument
      | some level =>
        if 0 < level ∧ deltaFactorOf level (d.synAt s).kernel.unit = 0 then .error .volumeTooLow
        else .done (d.setSyn s { d.synAt s with
          level := level, deltaFactor := deltaFactorOf level (d.synAt s).kernel.unit }) []
    else .refusal .invalidArgument

/-- A synthesizer with a new equaliser: kernel, unit and delta factor recomputed from the kept level (R258). -/
def Synth.withEq (y : Synth) (eq : Equaliser) : Synth :=
  { y with
    eq := eq
    kernel := kernelOf y.width eq
    deltaFactor := deltaFactorOf y.level (kernelOf y.width eq).unit }

/-- `SET_TREBLE` (R258). -/
def setTreble (x : Byte) (cutoff : Half) (u : F32) (v : Word) (d : Device cfg) : Answer cfg :=
  match indexOperand cfg.numSynth x.toNat with
  | none => .error .indexOutOfRange
  | some s =>
    if f32Finite u then
      if 0 < (d.synAt s).level ∧ ((d.synAt s).withEq ⟨u, v, cutoff⟩).deltaFactor = 0 then .error .volumeTooLow
      else .done (d.setSyn s ((d.synAt s).withEq ⟨u, v, cutoff⟩)) []
    else .refusal .invalidArgument

/-! ### `OFFSET` -/

/-- The buffer-fractional time of chip time `t`, in Q10.6 (R262). -/
def fractionalTime (t factor : Nat) : Nat := (t * factor) >>> 10

/-- Whole samples ahead of the next read: `s_` (R262). -/
def splitSlot (t factor : Nat) : Nat := fractionalTime t factor >>> Config.phaseBits

/-- The sub-sample phase bucket: `p` (R262). -/
def splitPhase (t factor : Nat) : Nat := fractionalTime t factor &&& 63

/-- `W` consecutive slots from `start` on, each with its amount added modulo 2^64 (R263). -/
def addSplat (dl : Vector Slot Config.delayLen) (start width : Nat) (amount : Nat → Int) :
    Vector Slot Config.delayLen :=
  Vector.ofFn fun k =>
    if start ≤ k.1 ∧ k.1 < start + width then dl[k.1] + BitVec.ofInt 64 (amount (k.1 - start)) else dl[k.1]

/-- What tap `j` of phase `p` adds for the delta `delta`: exact before the wrap (R263). -/
def Synth.tapAmount (y : Synth) (delta : Int) (p j : Nat) : Int := delta * y.deltaFactor * y.kernel.tap p j

/-- A buffer with the delta `delta` splatted at chip time `t` through synthesizer `y` (R263). -/
def Buffer.splat (b : Buffer) (y : Synth) (t : Nat) (delta : Int) : Buffer :=
  { b with
    dl := addSplat b.dl (splitSlot t b.factor.toNat) y.width (y.tapAmount delta (splitPhase t b.factor.toNat)) }

/-- `OFFSET(s, t, d, b)` (R263): both checks precede every slot write, `BufferUnconfigured` first (R508). -/
def offset (s : Fin cfg.numSynth) (t : Nat) (delta : Int) (b : Fin cfg.numBuf) (d : Device cfg) : Progress cfg :=
  if (d.bufAt b).factor = 0 then .trap d .bufferUnconfigured
  else if Config.delayLen < splitSlot t (d.bufAt b).factor.toNat + (d.synAt s).width then .trap d .timeOutOfRange
  else .ok (d.setBuf b ((d.bufAt b).splat (d.synAt s) t delta))

/-! ### Meanings -/

/-- `SET_VOLUME` (R255). -/
def execSetVolume (x : Byte) (u : F32) (s : State) : Host.Outcome State Fault Refusal :=
  issue s (setVolume x u)

/-- `SET_TREBLE` (R258). -/
def execSetTreble (x : Byte) (cutoff : Half) (u : F32) (v : Word) (s : State) : Host.Outcome State Fault Refusal :=
  issue s (setTreble x cutoff u v)

end Sys2Proof.Machine
end

