-- ==== Sys2Proof/Machine/Oscillator.lean ====
section
/-! DEFINITION. Oscillators (spec/42_oscillators.md): period, silence, amplitude, the run algorithm, the noise
register, the envelope and sweep units, the micro-operation `UPDATE` (spec/41_step_synthesizer.md R266), and the
command `SET_OUTPUT`. Register fields are read in place (R303). -/

namespace Sys2Proof.Machine

variable {cfg : ChipConfig}

/-- The voice of oscillator `i` (R300). -/
def voiceOf (cfg : ChipConfig) (i : Fin cfg.numOsc) : Voice := cfg.oscOf[i.1].voice

/-- `SYNTH_OF(i)` (R302). -/
def synthOf (cfg : ChipConfig) (i : Fin cfg.numOsc) : Fin cfg.numSynth := cfg.oscOf[i.1].synth

/-! ### Divider and period -/

/-- The divider value `N` of a register pair (R304). -/
def Device.divider (d : Device cfg) (nlo nhi : Nat) : Nat := (dividerOf (d.reg nlo) (d.reg nhi)).toNat

/-- The step period `P` (R305). -/
def Device.period (d : Device cfg) : Voice → Nat
  | .pulse _ _ nlo nhi => (d.divider nlo nhi + 1) * cfg.pulseClockDiv / cfg.pulseSteps
  | .wave _ nlo nhi => (d.divider nlo nhi + 1) * cfg.waveClockDiv / cfg.waveSteps
  | .noise _ mode _ => cfg.noisePeriod[modePeriod (d.reg mode)]

/-- Inaudible (R307): a pulse or wave whose fundamental period `STEPS * P` (R306) is below `INAUDIBLE_F`. -/
def Device.inaudible (d : Device cfg) : Voice → Bool
  | .pulse ctrl sweep nlo nhi => cfg.pulseSteps * d.period (.pulse ctrl sweep nlo nhi) < cfg.inaudibleF
  | .wave vol nlo nhi => cfg.waveSteps * d.period (.wave vol nlo nhi) < cfg.inaudibleF
  | .noise _ _ _ => false

/-! ### Sweep target and mute -/

/-- The sweep target `N ± (N >> SH)` (R340) of divider `n` under sweep register `sw`. -/
def sweepTarget (sw : Byte) (n : Nat) : Nat :=
  if sweepNegate sw then n - n >>> sweepShift sw else n + n >>> sweepShift sw

/-- The sweep unit mutes its pulse (R342). -/
def sweepMutes (sw : Byte) (n : Nat) : Bool :=
  sweepEnable sw && sweepShift sw != 0 && !sweepNegate sw && decide (0x7FF < n + n >>> sweepShift sw)

/-- Muted by its sweep unit: a pulse that has one (R309 (4), R342). -/
def Device.muted (d : Device cfg) : Voice → Bool
  | .pulse _ (some sweep) nlo nhi => sweepMutes (d.reg sweep) (d.divider nlo nhi)
  | .pulse _ none _ _ => false
  | .wave _ _ _ => false
  | .noise _ _ _ => false

/-! ### Silence and amplitude -/

/-- The volume of a control register and an envelope level (R311). -/
def controlVolume (ctrl : Byte) (envLevel : BitVec 4) : Nat :=
  if ctrlConst ctrl then (ctrlVolp ctrl).toNat else envLevel.toNat

/-- `vol(i)` (R311). -/
def Device.volume (d : Device cfg) (o : Osc cfg) : Voice → Nat
  | .pulse ctrl _ _ _ => controlVolume (d.reg ctrl) o.envLevel
  | .wave vol _ _ => (waveVolume (d.reg vol)).toNat
  | .noise ctrl _ _ => controlVolume (d.reg ctrl) o.envLevel

/-- `silent(i)` (R309). The mixer register has eight bits: that an oscillator of index 8 or more has none and is silent
is the model's choice (assumption log entry 21). -/
def Device.silent (d : Device cfg) (i : Fin cfg.numOsc) : Bool :=
  (d.oscAt i).output.isNone || !mixEnabled (d.reg cfg.mixEn) i.1 ||
    d.volume (d.oscAt i) (voiceOf cfg i) == 0 || d.muted (voiceOf cfg i)

/-- The sample a `WAVE` oscillator reads at position `p` (R325, R326): entry `p` of the wave RAM. A position past its
end, which a run reaches only on a chip with more `WAVE` steps than `WAVE_RAM_SIZE`, reads the free value
`Config.ramPastEnd`: the spec states no sample there (assumption log entry 16). -/
def Device.ramAt (d : Device cfg) (p : Nat) : Nat := ((d.ram[p]?).getD (Config.ramPastEnd p)).toNat

/-- The amplitude of an oscillator that is not silent (R310). -/
def Device.waveform (d : Device cfg) (o : Osc cfg) (v : Voice) : Nat :=
  match v with
  | .pulse ctrl _ _ _ =>
    if d.inaudible v then d.volume o v >>> 1
    else if o.phase < cfg.duty[ctrlDuty (d.reg ctrl)] then d.volume o v else 0
  | .wave _ _ _ =>
    if d.inaudible v then (d.volume o v * 15) >>> 1 else d.volume o v * d.ramAt o.phase
  | .noise _ _ _ => if o.lfsr.getLsbD 0 then d.volume o v else 0

/-- The resolved amplitude `amp(i)` (R310). -/
def Device.amp (d : Device cfg) (i : Fin cfg.numOsc) : Int :=
  if d.silent i then 0 else d.waveform (d.oscAt i) (voiceOf cfg i)

/-! ### The noise register -/

/-- One step of a noise register of width `w` with feedback tap `tap` (R330). R330 writes the feedback to bit 14 of the
15-bit register; that it enters the top bit, `w - 1`, of a register of another `LFSR_WIDTH` is the model's choice
(assumption log entry 21). -/
def lfsrStep {w : Nat} (tap : Nat) (l : BitVec w) : BitVec w :=
  (l >>> 1) ||| ((BitVec.ofBool (l.getLsbD 0 ^^ l.getLsbD tap)).setWidth w <<< (w - 1))

/-- The feedback tap a mode register selects (R61, R330). -/
def tapOf (cfg : ChipConfig) (mode : Byte) : Nat := if modeShort mode then cfg.tapShort else cfg.tapLong

/-! ### The run algorithm -/

/-- An oscillator of voice `v` moved on by `cnt` steps (R319). -/
def Device.advanced (d : Device cfg) (o : Osc cfg) (cnt : Nat) : Voice → Osc cfg
  | .pulse _ _ _ _ => { o with phase := (o.phase + cnt) % cfg.pulseSteps }
  | .wave _ _ _ => { o with phase := (o.phase + cnt) % cfg.waveSteps }
  | .noise _ mode _ => { o with lfsr := (lfsrStep (tapOf cfg (d.reg mode)))^[cnt] o.lfsr }

/-- `ADVANCE(i, cnt)` (R319). -/
def advance (i : Fin cfg.numOsc) (cnt : Nat) (d : Device cfg) : Device cfg :=
  d.setOsc i (d.advanced (d.oscAt i) cnt (voiceOf cfg i))

/-- `osc[i].last_amp <- a`. -/
def Device.setLastAmp (d : Device cfg) (i : Fin cfg.numOsc) (a : Int) : Device cfg :=
  d.setOsc i { d.oscAt i with lastAmp := a }

/-- `osc[i].delay <- n`. -/
def Device.setDelay (d : Device cfg) (i : Fin cfg.numOsc) (n : Nat) : Device cfg :=
  d.setOsc i { d.oscAt i with delay := BitVec.ofNat 32 n }

/-- `UPDATE(i, t, a)` (spec/41_step_synthesizer.md R266): a zero delta issues no splat; a splat that faults leaves
`last_amp` alone. It is called for a bound oscillator only; an unbound one has nothing to update. -/
def update (i : Fin cfg.numOsc) (t : Nat) (a : Int) (d : Device cfg) : Progress cfg :=
  match (d.oscAt i).output with
  | none => .ok d
  | some b =>
    if a - (d.oscAt i).lastAmp = 0 then .ok (d.setLastAmp i a)
    else (offset (synthOf cfg i) t (a - (d.oscAt i).lastAmp) b d).andThen fun d' => .ok (d'.setLastAmp i a)

/-- `ceil_div(a, b)` (spec/00_scope.md R12). -/
def ceilDiv (a b : Nat) : Nat := (a + b - 1) / b

/-- How many divider expiries lie in `[time, stop)` when the first is at `time` and they are `p` apart (R314, R315). -/
def expiries (time stop p : Nat) : Nat := if time < stop then ceilDiv (stop - time) p else 0

/-- The stepping loop (R315) over its expiries, the first at `time`: advance one step, then update there. -/
def stepLoop (i : Fin cfg.numOsc) (p : Nat) : (cnt : Nat) → (time : Nat) → Device cfg → Progress cfg
  | 0, _, d => .ok d
  | n + 1, time, d =>
    (update i time ((advance i 1 d).amp i) (advance i 1 d)).andThen (stepLoop i p n (time + p))

/-- Steps 2 and 3 of a run: the expiries before `stop`, the first at `time` (R312, R314, R315). -/
def runExpiries (i : Fin cfg.numOsc) (time stop : Nat) (d : Device cfg) : Progress cfg :=
  if d.silent i || d.inaudible (voiceOf cfg i) then
    .ok (advance i (expiries time stop (d.period (voiceOf cfg i))) d)
  else stepLoop i (d.period (voiceOf cfg i)) (expiries time stop (d.period (voiceOf cfg i))) time d

/-- Step 4 of a run: the overshoot of the next expiry past `stop`, from the expiry `time` of `d`'s period (R316). -/
def Device.overshoot (d : Device cfg) (i : Fin cfg.numOsc) (time stop : Nat) : Nat :=
  time + expiries time stop (d.period (voiceOf cfg i)) * d.period (voiceOf cfg i) - stop

/-- Steps 2 to 4 of a run, after the control change at `start` is accounted for (R312). -/
def runOn (i : Fin cfg.numOsc) (start stop : Nat) (d : Device cfg) : Progress cfg :=
  (runExpiries i (start + (d.oscAt i).delay.toNat) stop d).andThen fun d' =>
    .ok (d'.setDelay i (d.overshoot i (start + (d.oscAt i).delay.toNat) stop))

/-- `RUN(i, from, to)` (R312). -/
def run (i : Fin cfg.numOsc) (start stop : Nat) (d : Device cfg) : Progress cfg :=
  if stop < start then .trap d .timeRegression
  else (update i start (d.amp i) d).andThen (runOn i start stop)

/-! ### Envelope and sweep units -/

/-- One envelope clock under control register `ctrl` (R336). -/
def envClocked (ctrl : Byte) (o : Osc cfg) : Osc cfg :=
  if o.envStart then { o with envStart := false, envLevel := 15, envDiv := ctrlVolp ctrl }
  else if o.envDiv = 0 then
    { o with
      envDiv := ctrlVolp ctrl
      envLevel := if o.envLevel ≠ 0 then o.envLevel - 1 else if ctrlLoop ctrl then 15 else o.envLevel }
  else { o with envDiv := o.envDiv - 1 }

/-- `ENV_CLOCK(i)` (R336): a voice without a control register has no envelope, so its clock does nothing (assumption
log entry 21; REF-1 clocks none). -/
def envClock (i : Fin cfg.numOsc) (d : Device cfg) : Device cfg :=
  match voiceOf cfg i with
  | .pulse ctrl _ _ _ => d.setOsc i (envClocked (d.reg ctrl) (d.oscAt i))
  | .wave _ _ _ => d
  | .noise ctrl _ _ => d.setOsc i (envClocked (d.reg ctrl) (d.oscAt i))

/-- The divider registers rewritten with `target`: `TRIG` and the reserved bits of `NHI` are kept (R341). -/
def Device.writeBack (d : Device cfg) (nlo nhi target : Nat) : Device cfg :=
  (d.setReg nlo ((BitVec.ofNat 11 target).extractLsb' 0 8)).setReg nhi
    ((d.reg nhi).extractLsb' 3 5 ++ (BitVec.ofNat 11 target).extractLsb' 8 3)

/-- The sweep divider after a clock under sweep register `sw` (R341). -/
def sweepDivided (sw : Byte) (o : Osc cfg) : Osc cfg :=
  if o.swDiv = 0 ∨ o.swReload then { o with swDiv := sweepPeriod sw, swReload := false }
  else { o with swDiv := o.swDiv - 1 }

/-- `SWEEP_CLOCK(i)` (R341): the write-back test uses the old `sw_div` (R343). The clock of a voice without a sweep
unit does nothing (assumption log entry 21; REF-1 clocks none). -/
def sweepClock (i : Fin cfg.numOsc) (d : Device cfg) : Device cfg :=
  match voiceOf cfg i with
  | .pulse _ (some sweep) nlo nhi =>
    let sw := d.reg sweep
    let n := d.divider nlo nhi
    let due := (d.oscAt i).swDiv == 0 && sweepEnable sw && sweepShift sw != 0 && !sweepMutes sw n
    let d' := if due then d.writeBack nlo nhi (sweepTarget sw n) else d
    d'.setOsc i (sweepDivided sw (d'.oscAt i))
  | .pulse _ none _ _ => d
  | .wave _ _ _ => d
  | .noise _ _ _ => d

/-! ### `SET_OUTPUT` -/

/-- The new binding in force: the old level is retired, the amplitude restarts at 0 (R350). -/
def Device.rebind (d : Device cfg) (i : Fin cfg.numOsc) (new : Option (Fin cfg.numBuf)) : Device cfg :=
  d.setOsc i { d.oscAt i with lastAmp := 0, output := new }

/-- Retire the level oscillator `i` holds in its buffer, at `last_time` (R350); it may fault. -/
def retire (i : Fin cfg.numOsc) (d : Device cfg) : Progress cfg :=
  match (d.oscAt i).output with
  | none => .ok d
  | some b =>
    if (d.oscAt i).lastAmp = 0 then .ok d
    else offset (synthOf cfg i) d.lastTime.toNat (-(d.oscAt i).lastAmp) b d

/-- `SET_OUTPUT` (R350): the oscillator index is checked before the buffer operand (R507). -/
def setOutput (x : Byte) (u : Word) (d : Device cfg) : Answer cfg :=
  match indexOperand cfg.numOsc x.toNat with
  | none => .error .indexOutOfRange
  | some i =>
    match outputOperand cfg.numBuf u with
    | none => .error .indexOutOfRange
    | some new =>
      if new = (d.oscAt i).output then .done d []
      else ((retire i d).andThen fun d' => .ok (d'.rebind i new)).answer

/-- `SET_OUTPUT` (R350). -/
def execSetOutput (x : Byte) (u : Word) (s : State) : Host.Outcome State Fault Refusal :=
  issue s (setOutput x u)

end Sys2Proof.Machine
end

