-- ==== Sys2Proof/Machine/Chip.lean ====
section
/-! DEFINITION. The chip (spec/43_chip.md): register writes and their side effects, the frame sequencer, and the
commands `WRITE`, `RUN_UNTIL`, `END_FRAME` and `RESET`. -/

namespace Sys2Proof.Machine

variable {cfg : ChipConfig}

/-! ### `RUN_UNTIL` and the frame sequencer -/

/-- `FS_TICK` (R431): envelopes at every step, sweeps at the sweep steps, then the next step. -/
def fsTick (d : Device cfg) : Device cfg :=
  let enveloped := cfg.envOscs.foldl (fun e i => envClock i e) d
  let swept :=
    if d.fsStep ∈ cfg.sweepSteps then cfg.sweepOscs.foldl (fun e i => sweepClock i e) enveloped else enveloped
  { swept with fsStep := (d.fsStep + 1) % cfg.fsSteps }

/-- Run the listed oscillators over one span, in order (R420, R421). -/
def runEach (start stop : Nat) : List (Fin cfg.numOsc) → Device cfg → Progress cfg
  | [], d => .ok d
  | i :: rest, d => (run i start stop d).andThen (runEach start stop rest)

/-- One pass of the loop of R420 up to its tick: every oscillator from `last_time` to `t`, then `last_time <- t`. -/
def runPass (t : Nat) (d : Device cfg) : Progress cfg :=
  (runEach d.lastTime.toNat t (List.finRange cfg.numOsc) d).andThen fun d' =>
    .ok { d' with lastTime := BitVec.ofNat 32 t }

/-- The tick that ends a pass, and the next one's time (R420). -/
def tickDue (d : Device cfg) : Device cfg :=
  { fsTick d with fsNext := (fsTick d).fsNext + cfg.fsPeriod }

/-- Ticks performed before `stop` when the next is due at `next`: those due strictly before it (R420). -/
def ticksBefore (cfg : ChipConfig) (next stop : Nat) : Nat := expiries next stop cfg.fsPeriod

/-- The loop of R420 with `n` ticks to go: `n` passes that end in a tick, then the pass that ends at `stop`. -/
def runPasses (stop : Nat) : (n : Nat) → Device cfg → Progress cfg
  | 0, d => runPass stop d
  | n + 1, d => (runPass d.fsNext d).andThen fun d' => runPasses stop n (tickDue d')

/-- The body of `RUN_UNTIL` (R420). -/
def runTo (stop : Word) (d : Device cfg) : Progress cfg :=
  if stop < d.lastTime then .trap d .timeRegression
  else if stop = d.lastTime then .ok d
  else runPasses stop.toNat (ticksBefore cfg d.fsNext stop.toNat) d

/-- `RUN_UNTIL` (R420). -/
def runUntil (u : Word) (d : Device cfg) : Answer cfg := (runTo u d).answer

/-! ### `END_FRAME` -/

/-- Chip time re-based to the end of a frame of `n` cycles (R423). -/
def Device.rebase (d : Device cfg) (n : Word) : Device cfg :=
  { d with lastTime := d.lastTime - n, fsNext := d.fsNext - n.toNat }

/-- `END_FRAME` (R423). -/
def endFrame (u : Word) (d : Device cfg) : Answer cfg :=
  ((runTo u d).andThen fun d' => .ok (d'.rebase u)).answer

/-! ### `WRITE` -/

/-- The side effect of writing `data`, after the byte is stored (R403, R405 to R412). R412 gives `latch <- data[4:0]`
and `(latch + 1) mod 32` for REF-1's 32 entries. For another `WAVE_RAM_SIZE` the model keeps the 5-bit address field,
reduces it modulo `WAVE_RAM_SIZE`, and wraps the increment there: the model's choice, assumption log entry 21. -/
def applyEffect (data : Byte) (d : Device cfg) : WriteEffect cfg.numOsc → Device cfg
  | .sweepReload p => d.setOsc p { d.oscAt p with swReload := true }
  | .pulseTrigger p => if triggerBit data then d.setOsc p { d.oscAt p with phase := 0, envStart := true } else d
  | .waveTrigger p => if triggerBit data then d.setOsc p { d.oscAt p with phase := 0 } else d
  | .noiseTrigger p => if triggerBit data then d.setOsc p { d.oscAt p with envStart := true } else d
  | .ramAddress => { d with latch := ⟨(addrField data).toNat % cfg.waveRamSize, Nat.mod_lt _ cfg.ram_ok⟩ }
  | .ramData ainc =>
    { d with
      ram := d.ram.set d.latch.1 (dataSample data)
      latch := if addrAutoInc (d.reg ainc) then ⟨(d.latch.1 + 1) % cfg.waveRamSize, Nat.mod_lt _ cfg.ram_ok⟩
               else d.latch }

/-- `SIDE_EFFECT(addr, data)`: the rule of the address, if it has one (R405 to R413). -/
def sideEffect (addr : Nat) (data : Byte) (d : Device cfg) : Device cfg :=
  match cfg.writeEffects.lookup addr with
  | none => d
  | some e => applyEffect data d e

/-- `WRITE` (R402): the catch-up to `last_time` comes first, and does nothing (R401). -/
def write (y : Half) (data : Byte) (d : Device cfg) : Answer cfg :=
  if y.toNat < cfg.regSize then
    ((runTo d.lastTime d).andThen fun d' => .ok (sideEffect y.toNat data (d'.setReg y.toNat data))).answer
  else .error .addressOutOfRange

/-! ### `RESET` -/

/-- An oscillator after `RESET`: everything but its binding at the power-on value (R426). -/
def Osc.afterReset (o : Osc cfg) : Osc cfg := { Osc.powerOn cfg with output := o.output }

/-- The device after `RESET` (R426): rates, bass settings, synthesizers, bindings and `FAULT` are kept. -/
def Device.afterReset (d : Device cfg) : Device cfg where
  fault := d.fault
  buf := Vector.ofFn fun b => (d.bufAt b).flushed
  syn := d.syn
  osc := Vector.ofFn fun i => (d.oscAt i).afterReset
  regs := []
  ram := Vector.replicate _ 0
  latch := ⟨0, cfg.ram_ok⟩
  lastTime := 0
  fsNext := cfg.fsPeriod
  fsStep := 0

/-- `RESET` (R426). -/
def resetChip (d : Device cfg) : Answer cfg := .done d.afterReset []

/-! ### Meanings -/

/-- `WRITE` (R402). -/
def execWrite (y : Half) (data : Byte) (s : State) : Host.Outcome State Fault Refusal :=
  issue s (write y data)

/-- `RUN_UNTIL` (R420). -/
def execRunUntil (u : Word) (s : State) : Host.Outcome State Fault Refusal :=
  issue s (runUntil u)

/-- `END_FRAME` (R423). -/
def execEndFrame (u : Word) (s : State) : Host.Outcome State Fault Refusal :=
  issue s (endFrame u)

/-- `RESET` (R426). -/
def execReset (s : State) : Host.Outcome State Fault Refusal :=
  issue s resetChip

end Sys2Proof.Machine
end

