-- ==== Sys2Proof/Machine/Dispatch.lean ====
section
/-! DEFINITION. The meaning of every command, one arm per row of spec/opcode_table.json. -/

namespace Sys2Proof.Machine

def exec (i : Instr) (s : State) : Host.Outcome State Fault Refusal :=
  match i with
  -- SynthesisBuffer (spec/40_synthesis_buffer.md)
  | .setSampleRate x u v => Sys2Proof.Machine.execSetSampleRate x u v s
  | .setBassFreq x u => Sys2Proof.Machine.execSetBassFreq x u s
  | .readSample x => Sys2Proof.Machine.execReadSample x s
  | .readSamples x u => Sys2Proof.Machine.execReadSamples x u s
  | .flush x => Sys2Proof.Machine.execFlush x s
  -- StepSynthesizer (spec/41_step_synthesizer.md)
  | .setVolume x u => Sys2Proof.Machine.execSetVolume x u s
  | .setTreble x y u v => Sys2Proof.Machine.execSetTreble x y u v s
  -- Oscillator (spec/42_oscillators.md)
  | .setOutput x u => Sys2Proof.Machine.execSetOutput x u s
  -- Chip (spec/43_chip.md)
  | .write y d => Sys2Proof.Machine.execWrite y d s
  | .runUntil u => Sys2Proof.Machine.execRunUntil u s
  | .endFrame u => Sys2Proof.Machine.execEndFrame u s
  | .reset => Sys2Proof.Machine.execReset s

end Sys2Proof.Machine
end

