-- ==== Sys2Proof/Machine/Generic.lean ====
section
/-! DEFINITION. The commands of a chip of any configuration (spec/00_scope.md R4, R9: a model takes the chip
configuration as a parameter, and REF-1 is one value of it). `Machine.exec` is this at `Config.chip`. -/

namespace Sys2Proof.Machine

variable {cfg : ChipConfig}

/-- The body of each command. -/
def bodyOf : Instr → Device cfg → Answer cfg
  | .setSampleRate x u v => setSampleRate x u v
  | .setBassFreq x u => setBassFreq x u
  | .readSample x => readSample x
  | .readSamples x u => readSamples x u
  | .flush x => flush x
  | .setVolume x u => setVolume x u
  | .setTreble x y u v => setTreble x y u v
  | .setOutput x u => setOutput x u
  | .write y d => write y d
  | .runUntil u => runUntil u
  | .endFrame u => endFrame u
  | .reset => resetChip

/-- Execute a command on a chip of configuration `cfg`. -/
def execFor (i : Instr) (s : State cfg) : Host.Outcome (State cfg) Fault Refusal := issue s (bodyOf i)

end Sys2Proof.Machine
end

