-- ==== Sys2Proof/Machine/Transport.lean ====
section
/-! DEFINITION. Taking one command off the transport and answering it (spec/60_exceptions.md R506, R507 steps 1 and
2): a faulted device answers without decoding; a value that is no command is refused. What executes a decoded command is
an argument, `Machine.exec` for REF-1 and `execFor` for a chip of any configuration. -/

namespace Sys2Proof.Machine

variable {cfg : ChipConfig}

/-- Answer the whole command `c`, which has been taken off the transport of `s`. -/
def answerCommand (run : Instr → State cfg → Host.Outcome (State cfg) Fault Refusal) (c : Cmd) (s : State cfg) :
    Host.Outcome (State cfg) Fault Refusal :=
  match s.dev.fault with
  | some _ => .next (s.respond .faulted [])
  | none =>
    match decode c with
    | .ok i => run i s
    | .error _ => .next (s.refuse .illegalCommand)

/-- One step of the machine: nothing advances without a command (R519); a partial command has no move (R612). -/
def stepOn (run : Instr → State cfg → Host.Outcome (State cfg) Fault Refusal) (s : State cfg) :
    Host.Outcome (State cfg) Fault Refusal :=
  match fetchCommand s.inbox with
  | .idle => .next s
  | .incomplete => .refused .partialCommand
  | .command c rest => answerCommand run c { s with inbox := rest }

/-- One step of the machine of a chip of configuration `cfg`. -/
def stepFor (s : State cfg) : Host.Outcome (State cfg) Fault Refusal := stepOn execFor s

/-- The machine of a chip of configuration `cfg` (R4). -/
def coreFor (cfg : ChipConfig) : Host.Core where
  State := State cfg
  Fault := Fault
  Refusal := Refusal
  step := stepFor
  reset := State.powerOn cfg

/-- The machine with a command sent ahead of everything on the transport. -/
def State.send (s : State cfg) (bytes : List Byte) : State cfg := { s with inbox := bytes ++ s.inbox }

end Sys2Proof.Machine
end

