-- ==== Sys2Proof/Machine/Step.lean ====
section
/-! DEFINITION. One step of the machine, and placing an instruction where the step fetches its next one. -/

namespace Sys2Proof.Machine

/-- One step: the device takes the next whole command off its transport and executes it to completion
(spec/00_scope.md R7, spec/20_memory.md R106). -/
def step (s : State) : Host.Outcome State Fault Refusal := stepOn exec s

/-- `s` with the table word `w` as the next command on the transport. Assumption log entry 4. -/
def State.withFetchWord (s : State) (nbits w : Nat) : State := s.send (tableWordBytes nbits w)

end Sys2Proof.Machine
end

