-- ==== Sys2Proof/Machine/Flags.lean ====
section
/-! DEFINITION. Status is the only flag of the device (spec/30_encoding.md R135): the status codes and the words of a
response (R133, R134). -/

namespace Sys2Proof.Machine

/-- The code of an error (R134). -/
def ErrorCode.code : ErrorCode → Byte
  | .invalidRate => 0x01
  | .volumeTooLow => 0x02
  | .addressOutOfRange => 0x03
  | .indexOutOfRange => 0x04

/-- The code of a fault (R134). -/
def FaultCode.code : FaultCode → Byte
  | .timeRegression => 0x11
  | .timeOutOfRange => 0x12
  | .bufferUnconfigured => 0x13

/-- The code of a refusal (R134). -/
def RefusalCode.code : RefusalCode → Byte
  | .illegalCommand => 0x20
  | .invalidArgument => 0x21

/-- `STATUS` (R134): a code outside this function's range is never returned. -/
def Status.code : Status → Byte
  | .ok => 0x00
  | .error e => e.code
  | .faulted => 0x10
  | .fault c => c.code
  | .refusal r => r.code

/-- The status word: `STATUS` in bits 31:24, zero below (R133). -/
def Status.word (st : Status) : Word := st.code ++ (0 : BitVec 24)

/-- A sample word: the `s16` sample sign-extended to 32 bits (R133). -/
def sampleWord (x : Half) : Word := x.signExtend 32

/-- The words of a response: the status word, then the payload (R133). -/
def Response.words (r : Response) : List Word := r.status.word :: r.samples.map sampleWord

/-- Every word the device has returned to the host so far, in order. -/
def State.returnedWords {cfg : ChipConfig} (s : State cfg) : List Word := s.outbox.flatMap Response.words

end Sys2Proof.Machine
end

