-- ==== Sys2Proof/WellFormed.lean ====
section
/-! DEFINITION. The host's duty on the operands of a command (spec/60_exceptions.md R520: "validate indices and
addresses before issuing"), with the argument domains of R507 step 4. The device itself answers an ill-formed
command with `IndexOutOfRange`, `AddressOutOfRange` or `InvalidArgument`; decoding does not look at it. -/

namespace Sys2Proof

/-- The index operand names one of `n` (R200, R255, R258, R350). -/
def indexInRange (n : Nat) (x : Byte) : Bool := x.toNat < n

/-- The buffer operand of `SET_OUTPUT`: an index below `n` or the null value 0xFFFFFFFF (R132, R350). -/
def outputInRange (n : Nat) (u : Word) : Bool := u == 0xFFFFFFFF#32 || decide (u.toNat < n)

/-- The address of `WRITE` lies in the register window (R64, R402). -/
def addressInWindow (n : Nat) (a : Half) : Bool := a.toNat < n

/-- The level of `SET_VOLUME` is finite and in `[0, 1]` (R255). -/
def levelInRange (u : F32) : Bool := Machine.f32Finite u && (Machine.f32Level u).isSome

/-- A command a careful host issues to a device of configuration `cfg` (R520, R507 steps 3 and 4). -/
def Instr.wellFormed (cfg : ChipConfig) : Instr → Bool
  | .setSampleRate x _ _ => indexInRange cfg.numBuf x
  | .setBassFreq x _ => indexInRange cfg.numBuf x
  | .readSample x => indexInRange cfg.numBuf x
  | .readSamples x _ => indexInRange cfg.numBuf x
  | .flush x => indexInRange cfg.numBuf x
  | .setVolume x u => indexInRange cfg.numSynth x && levelInRange u
  | .setTreble x _ u _ => indexInRange cfg.numSynth x && Machine.f32Finite u
  | .setOutput x u => indexInRange cfg.numOsc x && outputInRange cfg.numBuf u
  | .write a _ => addressInWindow cfg.regSize a
  | .runUntil _ => true
  | .endFrame _ => true
  | .reset => true

end Sys2Proof
end

