-- ==== Sys2Proof/Safety.lean ====
section
/-! DEFINITION. What counts as a safe run, in the terms the statements use: the invariant of the device
(spec/10_state.md R33 to R68), a run with no fault and no refusal (spec/60_exceptions.md R520), and the lookahead
window a host must respect (spec/41_step_synthesizer.md R264, spec/70_reset_and_hazards.md R615). -/

namespace Sys2Proof.Machine

variable {cfg : ChipConfig}

/-! ### The invariant -/

/-- A buffer is unconfigured, or its rates are positive with the clock rate a multiple of the sample rate and the
factor theirs (R33 to R35); its bass shift is that of its cutoff (R36, R37). -/
structure Buffer.Inv (b : Buffer) : Prop where
  rates : (b.sampleRate = 0 ∧ b.clockRate = 0 ∧ b.factor = 0) ∨
    (0 < b.sampleRate.toInt ∧ 0 < b.clockRate.toInt ∧ b.sampleRate.toInt ∣ b.clockRate.toInt ∧
      (b.factor.toNat : Int) = factorOf b.sampleRate.toInt b.clockRate.toInt ∧ b.factor ≠ 0)
  factor_le : b.factor.toNat ≤ 2 ^ 16
  bass : b.bassShift = bassCalc b.bassFreq.toInt b.sampleRate.toInt
  bass_le : b.bassShift ≤ Config.bassMax

/-- A synthesizer has its tier's width, a lawful kernel, a level in `[0, 1]` and the delta factor of both, which is
positive when the level is (R44, R45, R251, R255). -/
structure Synth.Inv (t : Tier) (y : Synth) : Prop where
  width : y.width = t.width
  lawful : y.kernel.lawful y.width
  level_le : y.level ≤ levelOne
  delta : y.deltaFactor = deltaFactorOf y.level y.kernel.unit
  representable : 0 < y.level → 0 < y.deltaFactor

/-- Steps per waveform cycle of a voice; a noise voice has no phase, which stays 0 (R49). -/
def stepsOf (cfg : ChipConfig) : Voice → Nat
  | .pulse _ _ _ _ => cfg.pulseSteps
  | .wave _ _ _ => cfg.waveSteps
  | .noise _ _ _ => 1

/-- The longest step period of a voice: that of the largest divider value or period index (R304, R305). -/
def longestPeriod (cfg : ChipConfig) : Voice → Nat
  | .pulse _ _ _ _ => 2048 * (cfg.pulseClockDiv / cfg.pulseSteps)
  | .wave _ _ _ => 2048 * (cfg.waveClockDiv / cfg.waveSteps)
  | .noise _ _ _ => (List.finRange 16).foldr (fun j m => max cfg.noisePeriod[j] m) 0

/-- The largest amplitude of a voice (R310). -/
def largestAmp : Voice → Int
  | .pulse _ _ _ _ => 15
  | .wave _ _ _ => 225
  | .noise _ _ _ => 15

/-- An oscillator of voice `v`: its phase is a step of the waveform, its delay is below the longest period (R68),
its noise register is not 0 (R331), its last amplitude is one of the voice's (R310) and is 0 when it is unbound. -/
structure Osc.Inv (v : Voice) (o : Osc cfg) : Prop where
  phase : o.phase < stepsOf cfg v
  delay : o.delay.toNat < longestPeriod cfg v
  lfsr : o.lfsr ≠ 0
  amp : 0 ≤ o.lastAmp ∧ o.lastAmp ≤ largestAmp v
  unbound : o.output = none → o.lastAmp = 0

/-- The invariant of the device. -/
structure Device.Inv (d : Device cfg) : Prop where
  buf : ∀ b, (d.bufAt b).Inv
  syn : ∀ s, (d.synAt s).Inv cfg.tierOf[s]
  osc : ∀ i, (d.oscAt i).Inv (voiceOf cfg i)
  /-- An oscillator with a level in its buffer has been splatted there, so the buffer is configured (R350). -/
  bound : ∀ i b, (d.oscAt i).output = some b → (d.oscAt i).lastAmp ≠ 0 → (d.bufAt b).factor ≠ 0
  /-- The register window is in canonical form and holds no address outside the window (R40, R64). -/
  regs : d.regs.wf ∧ d.regs.within cfg.regSize
  /-- `last_time <= fs_next <= last_time + FS_PERIOD` (R67). -/
  tick : d.lastTime.toNat ≤ d.fsNext ∧ d.fsNext ≤ d.lastTime.toNat + cfg.fsPeriod
  step : d.fsStep < cfg.fsSteps

/-- The invariant of the machine. -/
def State.Inv (s : State cfg) : Prop := s.dev.Inv

/-! ### A clean run -/

/-- Nothing has gone wrong so far: the device has not faulted and no command was refused (R504, R505, R520). -/
def State.clean (s : State cfg) : Prop := s.dev.fault = none ∧ s.refusals = 0

/-! ### The lookahead window -/

/-- A splat at chip time `t` through a kernel of width `w` into a buffer of factor `f` is in range (R264). -/
def inWindow (f w t : Nat) : Prop := (t * f) >>> 16 + w ≤ Config.delayLen

/-- The host's duties for a run to `stop` (R520): every bound oscillator's buffer is configured, and the last cycle
before `stop` is in its lookahead window. -/
def Device.mayRun (d : Device cfg) (stop : Nat) : Prop :=
  ∀ i b, (d.oscAt i).output = some b →
    (d.bufAt b).factor ≠ 0 ∧ inWindow (d.bufAt b).factor.toNat (d.synAt (synthOf cfg i)).width (stop - 1)

/-! ### What a command leaves as it was -/

/-- `t` is `s` with one response `st`, `xs` returned (R133) and no refusal marked; the device may differ. The three
fields are the model's (assumption log entries 8 and 11). -/
structure State.Answers (s t : State cfg) (st : Status) (xs : List Half) : Prop where
  inbox : t.inbox = s.inbox
  outbox : t.outbox = s.outbox ++ [⟨st, xs⟩]
  refusals : t.refusals = s.refusals

/-- The registers, the wave RAM, the latch, chip time and the frame sequencer are the same; a register is compared
through the model's read of one byte. -/
structure Device.SameChip (d d' : Device cfg) : Prop where
  reg : ∀ a, d'.reg a = d.reg a
  ram : d'.ram = d.ram
  latch : d'.latch = d.latch
  lastTime : d'.lastTime = d.lastTime
  fsNext : d'.fsNext = d.fsNext
  fsStep : d'.fsStep = d.fsStep

/-- The whole device but for buffer `b` is the same. -/
structure Device.SameButBuf (b : Fin cfg.numBuf) (d d' : Device cfg) : Prop where
  fault : d'.fault = d.fault
  chip : d.SameChip d'
  syn : ∀ s, d'.synAt s = d.synAt s
  osc : ∀ i, d'.oscAt i = d.oscAt i
  buf : ∀ c, c ≠ b → d'.bufAt c = d.bufAt c

/-- The whole device but for synthesizer `s` is the same. -/
structure Device.SameButSyn (s : Fin cfg.numSynth) (d d' : Device cfg) : Prop where
  fault : d'.fault = d.fault
  chip : d.SameChip d'
  syn : ∀ r, r ≠ s → d'.synAt r = d.synAt r
  osc : ∀ i, d'.oscAt i = d.oscAt i
  buf : ∀ c, d'.bufAt c = d.bufAt c

/-- Two oscillators agree on everything a run of the oscillator never writes (R312): the binding, the envelope and
the sweep state. -/
structure Osc.SameUnits (o o' : Osc cfg) : Prop where
  output : o'.output = o.output
  envStart : o'.envStart = o.envStart
  envDiv : o'.envDiv = o.envDiv
  envLevel : o'.envLevel = o.envLevel
  swDiv : o'.swDiv = o.swDiv
  swReload : o'.swReload = o.swReload

/-- What a run of oscillator `i` leaves as it was (R312 to R316): everything but that oscillator's phase, noise
register, delay and last amplitude, and the delay line of the buffer it is bound to. -/
structure Device.RunFrame (i : Fin cfg.numOsc) (d d' : Device cfg) : Prop where
  fault : d'.fault = d.fault
  chip : d.SameChip d'
  syn : ∀ s, d'.synAt s = d.synAt s
  osc : ∀ j, j ≠ i → d'.oscAt j = d.oscAt j
  self : (d.oscAt i).SameUnits (d'.oscAt i)
  line : ∀ b, d'.bufAt b = { d.bufAt b with dl := (d'.bufAt b).dl }
  buf : ∀ b, (d.oscAt i).output ≠ some b → d'.bufAt b = d.bufAt b

/-- The divider registers of a voice with a sweep unit, which the unit rewrites (R341). -/
def sweptBy : Voice → List Nat
  | .pulse _ (some _) nlo nhi => [nlo, nhi]
  | .pulse _ none _ _ => []
  | .wave _ _ _ => []
  | .noise _ _ _ => []

/-- The addresses a frame-sequencer tick may rewrite. -/
def sweptRegs (cfg : ChipConfig) : List Nat := cfg.sweepOscs.flatMap fun i => sweptBy (voiceOf cfg i)

/-- What `RUN_UNTIL` leaves as it was (R420, "State written"): `FAULT`, the synthesizers, the wave RAM and its latch,
every binding, everything of a buffer but its delay line, every buffer no oscillator is bound to, every register no
sweep unit rewrites, and the envelope and sweep state of an oscillator the sequencer does not clock. -/
structure Device.AdvanceFrame (d d' : Device cfg) : Prop where
  fault : d'.fault = d.fault
  syn : ∀ s, d'.synAt s = d.synAt s
  ram : d'.ram = d.ram
  latch : d'.latch = d.latch
  output : ∀ i, (d'.oscAt i).output = (d.oscAt i).output
  line : ∀ b, d'.bufAt b = { d.bufAt b with dl := (d'.bufAt b).dl }
  buf : ∀ b, (∀ i, (d.oscAt i).output ≠ some b) → d'.bufAt b = d.bufAt b
  reg : ∀ a, a ∉ sweptRegs cfg → d'.reg a = d.reg a
  envelope : ∀ i, i ∉ cfg.envOscs → (d'.oscAt i).envStart = (d.oscAt i).envStart ∧
    (d'.oscAt i).envDiv = (d.oscAt i).envDiv ∧ (d'.oscAt i).envLevel = (d.oscAt i).envLevel
  sweep : ∀ i, i ∉ cfg.sweepOscs →
    (d'.oscAt i).swDiv = (d.oscAt i).swDiv ∧ (d'.oscAt i).swReload = (d.oscAt i).swReload

/-- The configuration `RESET` keeps (R426, R601): rates, factors and bass settings, synthesizers, bindings, `FAULT`. -/
structure Device.SameConfiguration (d d' : Device cfg) : Prop where
  fault : d'.fault = d.fault
  syn : d'.syn = d.syn
  output : ∀ i, (d'.oscAt i).output = (d.oscAt i).output
  buf : ∀ b, d'.bufAt b = { d.bufAt b with acc := (d'.bufAt b).acc, dl := (d'.bufAt b).dl }

/-! ### Statuses -/

/-- The statuses a command may return besides `OK` and `Faulted` (R502). -/
def statusesOf : Instr → List Status
  | .setSampleRate _ _ _ => [.error .indexOutOfRange, .error .invalidRate]
  | .setBassFreq _ _ => [.error .indexOutOfRange]
  | .readSample _ => [.error .indexOutOfRange]
  | .readSamples _ _ => [.error .indexOutOfRange]
  | .flush _ => [.error .indexOutOfRange]
  | .setVolume _ _ => [.error .indexOutOfRange, .refusal .invalidArgument, .error .volumeTooLow]
  | .setTreble _ _ _ _ => [.error .indexOutOfRange, .refusal .invalidArgument, .error .volumeTooLow]
  | .setOutput _ _ => [.error .indexOutOfRange, .fault .timeOutOfRange]
  | .write _ _ => [.error .addressOutOfRange]
  | .runUntil _ => [.fault .timeRegression, .fault .timeOutOfRange, .fault .bufferUnconfigured]
  | .endFrame _ => [.fault .timeRegression, .fault .timeOutOfRange, .fault .bufferUnconfigured]
  | .reset => []

/-- The first operand check of R507 steps 3 and 4 that a command fails: its index or address, then the domain of its
`f32`. -/
def operandError (cfg : ChipConfig) : Instr → Option Status
  | .setSampleRate x _ _ => if indexInRange cfg.numBuf x then none else some (.error .indexOutOfRange)
  | .setBassFreq x _ => if indexInRange cfg.numBuf x then none else some (.error .indexOutOfRange)
  | .readSample x => if indexInRange cfg.numBuf x then none else some (.error .indexOutOfRange)
  | .readSamples x _ => if indexInRange cfg.numBuf x then none else some (.error .indexOutOfRange)
  | .flush x => if indexInRange cfg.numBuf x then none else some (.error .indexOutOfRange)
  | .setVolume x u =>
    if indexInRange cfg.numSynth x then
      if levelInRange u then none else some (.refusal .invalidArgument)
    else some (.error .indexOutOfRange)
  | .setTreble x _ u _ =>
    if indexInRange cfg.numSynth x then
      if f32Finite u then none else some (.refusal .invalidArgument)
    else some (.error .indexOutOfRange)
  | .setOutput x u =>
    if indexInRange cfg.numOsc x && outputInRange cfg.numBuf u then none else some (.error .indexOutOfRange)
  | .write a _ => if addressInWindow cfg.regSize a then none else some (.error .addressOutOfRange)
  | .runUntil _ => none
  | .endFrame _ => none
  | .reset => none

/-- An index error, an address error or an out-of-domain argument: what a host that validates its operands never
sees (R507 steps 3 and 4, R520). -/
def Status.isOperandStatus : Status → Bool
  | .error .indexOutOfRange => true
  | .error .addressOutOfRange => true
  | .refusal .invalidArgument => true
  | _ => false

end Sys2Proof.Machine
end

