-- ==== Sys2Proof/Certificates/Slice0/Obligations.lean ====
section
/-! DEFINITION. The statements for the provers, rule by rule of spec/. Each docstring names the rules it formalises.
A statement about a value or a behaviour the spec leaves open says so and names the assumption log entry. -/

open Sys2Proof Sys2Proof.Machine

/-! ### Encoding and transport (spec/30_encoding.md, spec/20_memory.md R104) -/

/-- R136: command words written out from the opcode map decode to the commands they stand for. -/
def Obligations.SpecWordsDecode : Prop :=
  decode ⟨0x01000000, 0x0000BB80, 0x000BB800⟩ = .ok (.setSampleRate 0 48000 768000) ∧
  decode ⟨0x07010BB8, 0xC1000000, 0x00001F40⟩ = .ok (.setTreble 1 3000 0xC1000000 8000) ∧
  decode ⟨0x08000000, 0xFFFFFFFF, 0x00000000⟩ = .ok (.setOutput 0 0xFFFFFFFF) ∧
  decode ⟨0x09000010, 0x00000001, 0x00000000⟩ = .ok (.write 0x10 0x01) ∧
  decode ⟨0x0A000000, 0x00000CE4, 0x00000000⟩ = .ok (.runUntil 3300) ∧
  decode ⟨0x09000010, 0x00000101, 0x00000000⟩ = .error .reservedField

/-- R131, R132, R136: every command decodes back from its words, whatever its operands. -/
def Obligations.DecodeEncodeRoundTrip : Prop := ∀ i : Instr, decode (encode i) = .ok i

/-- R131, R136: a 96-bit value that decodes is exactly the words of its command: no bit is dropped. -/
def Obligations.EncodeDecodeRoundTrip : Prop := ∀ (c : Cmd) (i : Instr), decode c = .ok i → encode i = c

/-- R137, and R138's table, which the spec infers from R131 and R136: a value is the command of a row exactly when
`(cmd & mask) == match`; it is illegal exactly when no row matches; the unknown opcodes are 0x00 and 0x0D to 0xFF. -/
def Obligations.DecodeIsTheMatchMaskTable : Prop :=
  ∀ c : Cmd,
    (∀ row ∈ opcodeTable,
      (∃ i, decode c = .ok i ∧ i.mnemonic = row.mnemonic) ↔ c.bits &&& row.mask = row.pattern) ∧
    ((∃ e, decode c = .error e) ↔ ∀ row ∈ opcodeTable, c.bits &&& row.mask ≠ row.pattern) ∧
    (decode c = .error .unknownOpcode ↔ c.op = 0x00 ∨ 0x0D ≤ c.op.toNat)

/-- R104, R130, R612: the device takes twelve bytes, words least-significant byte first, and nothing less. -/
def Obligations.FetchTakesWholeCommands : Prop :=
  (∀ (c : Cmd) (rest : List Byte), fetchCommand (c.bytes ++ rest) = .command c rest) ∧
  (∀ (bs : List Byte) (c : Cmd) (rest : List Byte), fetchCommand bs = .command c rest → bs = c.bytes ++ rest) ∧
  (∀ bs : List Byte, fetchCommand bs = .idle ↔ bs = []) ∧
  ∀ bs : List Byte, fetchCommand bs = .incomplete ↔ 0 < bs.length ∧ bs.length < 12

/-- R138, R104 (the model's placing of a table word, assumption log entry 4): the table word of a command decodes to
it, and a device that has not faulted runs it as its next command. -/
def Obligations.TableWordsRoundTrip : Prop :=
  ∀ i : Instr,
    decodeTableWord 96 (encode i).bits.toNat = some i ∧
    ∀ s : State, s.dev.fault = none → step (s.withFetchWord 96 (encode i).bits.toNat) = exec i s

/-! ### A step and its outcomes (spec/60_exceptions.md) -/

/-- R106, R137, R507: a step takes the next command off the transport and executes what it decodes to. -/
def Obligations.StepRunsDecodedCommand : Prop :=
  ∀ (s : State) (c : Cmd) (rest : List Byte) (i : Instr),
    s.inbox = c.bytes ++ rest → s.dev.fault = none → decode c = .ok i → step s = exec i { s with inbox := rest }

/-- R131, R137, R505: a value that is no command is refused with `IllegalCommand`: no device state changes, the run is
marked (the mark is the model's field `refusals`, assumption log entry 8). -/
def Obligations.IllegalCommandIsRefused : Prop :=
  ∀ (s : State) (c : Cmd) (rest : List Byte) (e : DecodeError),
    s.inbox = c.bytes ++ rest → s.dev.fault = none → decode c = .error e →
    ∃ t, step s = .next t ∧ t.dev = s.dev ∧ t.inbox = rest ∧
      t.outbox = s.outbox ++ [⟨.refusal .illegalCommand, []⟩] ∧ t.refusals = s.refusals + 1

/-- R506: while `FAULT` is set every 96-bit value, decodable or not, is answered `Faulted` with an empty payload and
changes nothing. -/
def Obligations.FaultedDeviceAnswersFaulted : Prop :=
  ∀ (s : State) (f : FaultCode), s.dev.fault = some f →
    (∀ (c : Cmd) (rest : List Byte), s.inbox = c.bytes ++ rest →
      step s = .next { s with inbox := rest, outbox := s.outbox ++ [⟨.faulted, []⟩] }) ∧
    ∀ i : Instr, exec i s = .next { s with outbox := s.outbox ++ [⟨.faulted, []⟩] }

/-- R519, R612 (assumption log entries 4 and 9): nothing advances without a command, and a partial command has no
move. -/
def Obligations.IdleAndPartialTransport : Prop :=
  (∀ s : State, s.inbox = [] → step s = .next s) ∧
  ∀ s : State, 0 < s.inbox.length → s.inbox.length < 12 → step s = .refused .partialCommand

/-- R133, R134: the status word, the sample word, the payload, and the code of every status. -/
def Obligations.StatusAndSampleWords : Prop :=
  (∀ st : Status, st.word.toNat = st.code.toNat * 2 ^ 24) ∧
  (∀ x : Half, (sampleWord x).toInt = x.toInt) ∧
  (∀ (st : Status) (xs : List Half), Response.words ⟨st, xs⟩ = st.word :: xs.map sampleWord) ∧
  (Status.ok.code = 0x00 ∧ (Status.error .invalidRate).code = 0x01 ∧ (Status.error .volumeTooLow).code = 0x02 ∧
    (Status.error .addressOutOfRange).code = 0x03 ∧ (Status.error .indexOutOfRange).code = 0x04 ∧
    Status.faulted.code = 0x10 ∧ (Status.fault .timeRegression).code = 0x11 ∧
    (Status.fault .timeOutOfRange).code = 0x12 ∧ (Status.fault .bufferUnconfigured).code = 0x13 ∧
    (Status.refusal .illegalCommand).code = 0x20 ∧ (Status.refusal .invalidArgument).code = 0x21) ∧
  ∀ st : Status, st.code ∈ [0x00#8, 0x01, 0x02, 0x03, 0x04, 0x10, 0x11, 0x12, 0x13, 0x20, 0x21]

/-- R110, R133, R500, R632: every whole command, decodable or not, is answered by exactly one response and taken off
the transport; only a read command that is `OK` returns samples. -/
def Obligations.EveryCommandIsAnsweredOnce : Prop :=
  ∀ (s : State) (c : Cmd) (rest : List Byte), s.inbox = c.bytes ++ rest →
    ∃ t r, step s = .next t ∧ t.inbox = rest ∧ t.outbox = s.outbox ++ [r] ∧
      (r.samples ≠ [] → r.status = .ok ∧
        ∃ i, decode c = .ok i ∧ ((∃ x, i = .readSample x) ∨ ∃ x n, i = .readSamples x n))

/-- R503, R505: an error or a refusal changes no device state; a refusal marks the run, nothing else does (the mark is
the model's field `refusals`, assumption log entry 8). -/
def Obligations.ErrorsAndRefusalsChangeNothing : Prop :=
  ∀ (s : State) (i : Instr), ∃ t r, exec i s = .next t ∧ t.outbox = s.outbox ++ [r] ∧
    (∀ e, r.status = .error e → t.dev = s.dev) ∧
    (∀ c, r.status = .refusal c → t.dev = s.dev ∧ t.refusals = s.refusals + 1) ∧
    ((∀ c, r.status ≠ .refusal c) → t.refusals = s.refusals)

/-- R32, R504: `FAULT` is written exactly by the command that returns its fault, and no command clears it or changes
anything after it. -/
def Obligations.FaultsAreRecordedForGood : Prop :=
  ∀ (s t : State) (i : Instr), exec i s = .next t →
    (∀ f, s.dev.fault = some f → t.dev = s.dev) ∧
    (s.dev.fault = none → ∀ f, t.dev.fault = some f ↔ t.outbox = s.outbox ++ [⟨.fault f, []⟩])

/-- R502: the statuses each command can return (`SET_OUTPUT` never `BufferUnconfigured`, R350). -/
def Obligations.StatusesOfEachCommand : Prop :=
  ∀ (s t : State) (i : Instr) (r : Response), s.Inv → s.dev.fault = none → exec i s = .next t →
    t.outbox = s.outbox ++ [r] → r.status = .ok ∨ r.status ∈ statusesOf i

/-- R200, R402, R505, R507 steps 3 and 4, R520: the first operand check that fails decides the status, nothing
changes, and a well-formed command never gets such a status. -/
def Obligations.OperandChecksComeFirst : Prop :=
  ∀ (s : State) (i : Instr), s.dev.fault = none →
    (∀ e, operandError Config.chip i = some (.error e) →
      exec i s = .next { s with outbox := s.outbox ++ [⟨.error e, []⟩] }) ∧
    (∀ c, operandError Config.chip i = some (.refusal c) →
      exec i s = .next { s with outbox := s.outbox ++ [⟨.refusal c, []⟩], refusals := s.refusals + 1 }) ∧
    (operandError Config.chip i = none →
      ∃ t r, exec i s = .next t ∧ t.outbox = s.outbox ++ [r] ∧ r.status.isOperandStatus = false) ∧
    ((operandError Config.chip i).isNone = i.wellFormed Config.chip)

/-! ### SynthesisBuffer (spec/40_synthesis_buffer.md) -/

/-- R203: `requant` is the largest multiple of `sr` not above `cr`; `k` is `cr div sr`; it is 0 when `cr < sr`. -/
def Obligations.RequantIsLargestMultiple : Prop :=
  ∀ sr cr : Int, 0 < sr → 0 < cr →
    requant sr cr = sr * (cr / sr) ∧ sr ∣ requant sr cr ∧ requant sr cr ≤ cr ∧
    (∀ m, sr ∣ m → m ≤ cr → m ≤ requant sr cr) ∧ requant sr cr / sr = cr / sr ∧ (cr < sr → requant sr cr = 0)

/-- R204: the factor is the ratio rounded to nearest with ties upward; the closed form in `k` and the values listed
are the spec's own inference from R203. -/
def Obligations.FactorIsRounded : Prop :=
  ∀ sr cr : Int, 0 < sr → sr ≤ cr →
    factorOf sr (requant sr cr) = (sr * 2 ^ 17 + requant sr cr) / (2 * requant sr cr) ∧
    factorOf sr (requant sr cr) = ⌊(sr : ℚ) * 2 ^ 16 / requant sr cr + 1 / 2⌋ ∧
    factorOf sr (requant sr cr) = ⌊(2 : ℚ) ^ 16 / (cr / sr : Int) + 1 / 2⌋ ∧
    (cr / sr = 1 → factorOf sr (requant sr cr) = 65536) ∧
    (cr / sr = 16 → factorOf sr (requant sr cr) = 4096) ∧
    (cr / sr = 40 → factorOf sr (requant sr cr) = 1638) ∧
    (cr / sr = 131072 → factorOf sr (requant sr cr) = 1) ∧
    (factorOf sr (requant sr cr) = 0 ↔ 131072 < cr / sr)

/-- R205: the bass shift is 31 for a cutoff or rate that is not positive; 13 for `f = 0` and `13 - min(13, floor(log2
f))` for `f >= 1` are the spec's own inference from the rule's loop. -/
def Obligations.BassShiftClosedForm : Prop :=
  ∀ hz sr : Int,
    (hz ≤ 0 ∨ sr ≤ 0 → bassCalc hz sr = 31) ∧
    (0 < hz → 0 < sr → hz * 2 ^ 16 / sr = 0 → bassCalc hz sr = 13) ∧
    (0 < hz → 0 < sr → 1 ≤ hz * 2 ^ 16 / sr →
      bassCalc hz sr = 13 - min 13 (Nat.log2 (hz * 2 ^ 16 / sr).toNat))

/-- R202: `SET_SAMPLE_RATE` with rates that convert configures and flushes its buffer and changes nothing else. -/
def Obligations.SetSampleRateConfigures : Prop :=
  ∀ (s : State) (x : Byte) (b : Fin Config.chip.numBuf) (u v : Word), s.dev.fault = none → x.toNat = b.1 →
    0 < u.toInt → u.toInt ≤ v.toInt → v.toInt / u.toInt ≤ 131072 →
    ∃ t, exec (.setSampleRate x u v) s = .next t ∧ s.Answers t .ok [] ∧ s.dev.SameButBuf b t.dev ∧
      (t.dev.bufAt b).sampleRate = u ∧
      (t.dev.bufAt b).clockRate.toInt = u.toInt * (v.toInt / u.toInt) ∧
      ((t.dev.bufAt b).factor.toNat : Int) = factorOf u.toInt (u.toInt * (v.toInt / u.toInt)) ∧
      0 < (t.dev.bufAt b).factor.toNat ∧
      (t.dev.bufAt b).bassFreq = (s.dev.bufAt b).bassFreq ∧
      (t.dev.bufAt b).bassShift = bassCalc (s.dev.bufAt b).bassFreq.toInt u.toInt ∧
      (t.dev.bufAt b).acc = 0 ∧ ∀ (j : Nat) (h : j < 17), (t.dev.bufAt b).dl[j] = 0

/-- R202: a rate that is not positive, a clock rate below the sample rate, or a ratio whose factor rounds to 0 is
`InvalidRate`, and nothing is written. -/
def Obligations.SetSampleRateRejects : Prop :=
  ∀ (s : State) (x : Byte) (b : Fin Config.chip.numBuf) (u v : Word), s.dev.fault = none → x.toNat = b.1 →
    (u.toInt ≤ 0 ∨ v.toInt ≤ 0 ∨ v.toInt < u.toInt ∨ 131072 < v.toInt / u.toInt) →
    exec (.setSampleRate x u v) s = .next { s with outbox := s.outbox ++ [⟨.error .invalidRate, []⟩] }

/-- R206: `SET_BASS_FREQ` stores the cutoff and its shift and touches nothing else. -/
def Obligations.SetBassFreqStoresCutoff : Prop :=
  ∀ (s : State) (x : Byte) (b : Fin Config.chip.numBuf) (u : Word), s.dev.fault = none → x.toNat = b.1 →
    ∃ t, exec (.setBassFreq x u) s = .next t ∧ s.Answers t .ok [] ∧ s.dev.SameButBuf b t.dev ∧
      t.dev.bufAt b = { s.dev.bufAt b with
        bassFreq := u, bassShift := bassCalc u.toInt (s.dev.bufAt b).sampleRate.toInt }

/-- R210, R211: `READ_SAMPLE` adds the oldest slot, leaks the old accumulator, moves the line down one place and
returns the new accumulator scaled and saturated; nothing else changes. -/
def Obligations.ReadSampleConsumesOneSlot : Prop :=
  ∀ (s : State) (x : Byte) (b : Fin Config.chip.numBuf), s.dev.fault = none → x.toNat = b.1 →
    ∃ t a, exec (.readSample x) s = .next t ∧ s.Answers t .ok [a] ∧ s.dev.SameButBuf b t.dev ∧
      (t.dev.bufAt b).acc = BitVec.ofInt 64 ((s.dev.bufAt b).acc.toInt + (s.dev.bufAt b).dl[0].toInt -
        ((s.dev.bufAt b).acc.toInt >>> (s.dev.bufAt b).bassShift)) ∧
      (∀ (j : Nat) (h : j + 1 < 17), (t.dev.bufAt b).dl[j]'(Nat.lt_of_succ_lt h) = (s.dev.bufAt b).dl[j + 1]) ∧
      (t.dev.bufAt b).dl[16] = 0 ∧
      t.dev.bufAt b = { s.dev.bufAt b with acc := (t.dev.bufAt b).acc, dl := (t.dev.bufAt b).dl } ∧
      a.toInt = min 32767 (max (-32768) ((t.dev.bufAt b).acc.toInt >>> 16))

/-- R213: `READ_SAMPLES n+1` is one `READ_SAMPLE` and then `READ_SAMPLES n`, its samples in one payload, oldest first;
`READ_SAMPLES 0` returns nothing and changes nothing. -/
def Obligations.ReadSamplesAreSuccessiveReads : Prop :=
  ∀ (s : State) (x : Byte) (n : Nat), s.dev.fault = none → x.toNat < 4 → n + 1 < 2 ^ 32 →
    exec (.readSamples x 0) s = .next { s with outbox := s.outbox ++ [⟨.ok, []⟩] } ∧
    ∃ t₁ t₂ a as, exec (.readSample x) s = .next t₁ ∧ exec (.readSamples x (BitVec.ofNat 32 n)) t₁ = .next t₂ ∧
      t₂.outbox = s.outbox ++ [⟨.ok, [a]⟩, ⟨.ok, as⟩] ∧ as.length = n ∧
      exec (.readSamples x (BitVec.ofNat 32 (n + 1))) s =
        .next { t₂ with outbox := s.outbox ++ [⟨.ok, a :: as⟩] }

/-- R213, R216 (the spec's own inference from R210): seventeen reads empty the delay line, and with a bass shift of at
most 16 the samples of a buffer that no splat reaches are 0 from some read on, whatever it held. -/
def Obligations.SilenceConverges : Prop :=
  ∀ b : Buffer,
    (∀ (m j : Nat) (h : j < 17), 17 ≤ m → (b.afterReads m).dl[j] = 0) ∧
    (b.bassShift ≤ 16 → ∃ n, ∀ m, n ≤ m → (b.afterReads m).nextSample = 0)

/-- R215: `FLUSH` zeroes the accumulator and the delay line and keeps the rates, the factor and the bass settings. -/
def Obligations.FlushClearsBuffer : Prop :=
  ∀ (s : State) (x : Byte) (b : Fin Config.chip.numBuf), s.dev.fault = none → x.toNat = b.1 →
    ∃ t, exec (.flush x) s = .next t ∧ s.Answers t .ok [] ∧ s.dev.SameButBuf b t.dev ∧
      t.dev.bufAt b = { s.dev.bufAt b with acc := 0, dl := (t.dev.bufAt b).dl } ∧
      ∀ (j : Nat) (h : j < 17), (t.dev.bufAt b).dl[j] = 0

/-! ### StepSynthesizer (spec/41_step_synthesizer.md) -/

/-- R12, R255 (the IEEE 754 reading is the spec's G1; the unit of `2^-149` is the model's, assumption log entry 3): a
pattern is finite when bits 30 to 23 are not all ones; its magnitude is then the exact binary32 value of bits 30 to 23
(exponent) and 22 to 0 (fraction), with bit 31 the sign; it has a level exactly when its value lies in `[0, 1]`. -/
def Obligations.BinaryFloatValue : Prop :=
  ∀ u : F32,
    (f32Finite u = true ↔ u.toNat / 2 ^ 23 % 256 ≠ 255) ∧
    (u.toNat / 2 ^ 23 % 256 ≠ 255 →
      ((f32Magnitude u : ℚ) / 2 ^ 149 =
        if u.toNat / 2 ^ 23 % 256 = 0 then ((u.toNat % 2 ^ 23 : Nat) : ℚ) / 2 ^ 149
        else (1 + ((u.toNat % 2 ^ 23 : Nat) : ℚ) / 2 ^ 23) * 2 ^ (((u.toNat / 2 ^ 23 % 256 : Nat) : ℤ) - 127)) ∧
      ∀ l : Nat, f32Level u = some l ↔
        (f32Magnitude u : ℚ) / 2 ^ 149 ≤ 1 ∧ (2 ^ 31 ≤ u.toNat → f32Magnitude u = 0) ∧ l = f32Magnitude u)

/-- R254: the delta factor is the exact quotient rounded to nearest with ties upward; that it is positive exactly when
the level is at least `kernel_unit / 2^32` is R256's inference from it. The unit of a level is assumption log entry 3.
-/
def Obligations.DeltaFactorIsRounded : Prop :=
  ∀ level unit : Nat, 0 < unit →
    (deltaFactorOf level unit : ℤ) = ⌊(level : ℚ) / 2 ^ 149 * 2 ^ 31 / unit + 1 / 2⌋ ∧
    (1 ≤ deltaFactorOf level unit ↔ (unit : ℚ) / 2 ^ 32 ≤ (level : ℚ) / 2 ^ 149)

/-- R255: `SET_VOLUME` with a representable level stores it and its delta factor and changes nothing else. -/
def Obligations.SetVolumeAccepts : Prop :=
  ∀ (s : State) (x : Byte) (y : Fin Config.chip.numSynth) (u : F32) (l : Nat), s.dev.fault = none →
    x.toNat = y.1 → f32Finite u = true → f32Level u = some l →
    (l = 0 ∨ 1 ≤ deltaFactorOf l (s.dev.synAt y).kernel.unit) →
    ∃ t, exec (.setVolume x u) s = .next t ∧ s.Answers t .ok [] ∧ s.dev.SameButSyn y t.dev ∧
      t.dev.synAt y = { s.dev.synAt y with
        level := l, deltaFactor := deltaFactorOf l (s.dev.synAt y).kernel.unit }

/-- R255, R258: a positive level whose delta factor would round to 0 is `VolumeTooLow`, in both commands, and nothing
changes; the kernel `SET_TREBLE` tries is OPEN (assumption log entry 1). -/
def Obligations.VolumeTooLowIsRejected : Prop :=
  ∀ (s : State) (x : Byte) (y : Fin Config.chip.numSynth) (u : F32), s.dev.fault = none → x.toNat = y.1 →
    f32Finite u = true →
    (∀ l, f32Level u = some l → 0 < l → deltaFactorOf l (s.dev.synAt y).kernel.unit = 0 →
      exec (.setVolume x u) s = .next { s with outbox := s.outbox ++ [⟨.error .volumeTooLow, []⟩] }) ∧
    ∀ (cutoff : Half) (v : Word), 0 < (s.dev.synAt y).level →
      deltaFactorOf (s.dev.synAt y).level (kernelOf (s.dev.synAt y).width ⟨u, v, cutoff⟩).unit = 0 →
      exec (.setTreble x cutoff u v) s = .next { s with outbox := s.outbox ++ [⟨.error .volumeTooLow, []⟩] }

/-- R251, R252: every kernel the device uses obeys the kernel law, whatever `kernel_gen` returns (assumption log entry
1), is the one `kernel_gen` returns when that obeys the law, and keeps the bounds of R252. -/
def Obligations.KernelLawAndBounds : Prop :=
  ∀ (t : Tier) (eq : Equaliser),
    (kernelOf t.width eq).lawful t.width ∧
    ((Config.kernelGen t.width eq).lawful t.width → kernelOf t.width eq = Config.kernelGen t.width eq) ∧
    (kernelOf t.width eq).unit < 2 ^ 19 ∧
    ∀ level ≤ levelOne, deltaFactorOf level (kernelOf t.width eq).unit ≤ 2 ^ 31 ∧
      ∀ (d : ℤ) (p j : Nat), |d| < 2 ^ 16 →
        |d * deltaFactorOf level (kernelOf t.width eq).unit * (kernelOf t.width eq).tap p j| < 2 ^ 62

/-- R258: `SET_TREBLE` regenerates the kernel and the delta factor from the kept level and changes nothing else; the
kernel is OPEN (assumption log entry 1). -/
def Obligations.SetTrebleRegenerates : Prop :=
  ∀ (s : State) (x : Byte) (y : Fin Config.chip.numSynth) (cutoff : Half) (u : F32) (v : Word),
    s.dev.fault = none → x.toNat = y.1 → f32Finite u = true →
    ((s.dev.synAt y).level = 0 ∨
      1 ≤ deltaFactorOf (s.dev.synAt y).level (kernelOf (s.dev.synAt y).width ⟨u, v, cutoff⟩).unit) →
    ∃ t, exec (.setTreble x cutoff u v) s = .next t ∧ s.Answers t .ok [] ∧ s.dev.SameButSyn y t.dev ∧
      t.dev.synAt y = { s.dev.synAt y with
        eq := ⟨u, v, cutoff⟩
        kernel := kernelOf (s.dev.synAt y).width ⟨u, v, cutoff⟩
        deltaFactor :=
          deltaFactorOf (s.dev.synAt y).level (kernelOf (s.dev.synAt y).width ⟨u, v, cutoff⟩).unit }

/-- R262, R263, and the REF-1 window of R264, which the spec infers from them: `OFFSET` checks the factor, then the
window, before any write; in the window it adds `d * delta_factor * K[p][j]` to `W` consecutive slots and changes
nothing else. -/
def Obligations.OffsetChecksThenSplats : Prop :=
  ∀ (d : Device Config.chip) (y : Fin Config.chip.numSynth) (t : Nat) (delta : Int) (b : Fin Config.chip.numBuf),
    ((d.bufAt b).factor.toNat = 0 → offset y t delta b d = .trap d .bufferUnconfigured) ∧
    ((d.bufAt b).factor.toNat ≠ 0 → 17 < t * (d.bufAt b).factor.toNat / 2 ^ 16 + (d.synAt y).width →
      offset y t delta b d = .trap d .timeOutOfRange) ∧
    ((d.bufAt b).factor.toNat ≠ 0 → t * (d.bufAt b).factor.toNat / 2 ^ 16 + (d.synAt y).width ≤ 17 →
      ∃ d', offset y t delta b d = .ok d' ∧ d.SameButBuf b d' ∧
        d'.bufAt b = { d.bufAt b with dl := (d'.bufAt b).dl } ∧
        ∀ (k : Nat) (h : k < 17), (d'.bufAt b).dl[k] =
          if t * (d.bufAt b).factor.toNat / 2 ^ 16 ≤ k ∧
              k < t * (d.bufAt b).factor.toNat / 2 ^ 16 + (d.synAt y).width then
            (d.bufAt b).dl[k] + BitVec.ofInt 64 (delta * (d.synAt y).deltaFactor *
              (d.synAt y).kernel.tap (t * (d.bufAt b).factor.toNat / 2 ^ 10 % 64)
                (k - t * (d.bufAt b).factor.toNat / 2 ^ 16))
          else (d.bufAt b).dl[k]) ∧
    ((d.bufAt b).factor.toNat = 4096 → (d.synAt y).width = 8 →
      (t * (d.bufAt b).factor.toNat / 2 ^ 16 + (d.synAt y).width ≤ 17 ↔ t ≤ 159))

/-- The spec's own inference from R251 and R263 (R65): a splat through a lawful kernel adds exactly `d * delta_factor
* kernel_unit` to the sum of the delay line, whatever its phase. -/
def Obligations.SplatConservesDelta : Prop :=
  ∀ (d d' : Device Config.chip) (y : Fin Config.chip.numSynth) (t : Nat) (delta : Int)
    (b : Fin Config.chip.numBuf),
    (d.synAt y).kernel.lawful (d.synAt y).width → offset y t delta b d = .ok d' →
    (d'.bufAt b).dl.toList.sum = (d.bufAt b).dl.toList.sum +
      BitVec.ofInt 64 (delta * (d.synAt y).deltaFactor * (d.synAt y).kernel.unit)

/-- R110's inference from R263: two splats that are both in range give the same device in either order. -/
def Obligations.SplatsCommute : Prop :=
  ∀ (d d₁ d₂ : Device Config.chip) (y z : Fin Config.chip.numSynth) (t u : Nat) (x w : Int)
    (b c : Fin Config.chip.numBuf), offset y t x b d = .ok d₁ → offset z u w c d = .ok d₂ →
    ∃ e, (offset y t x b d).andThen (offset z u w c) = .ok e ∧ (offset z u w c d).andThen (offset y t x b) = .ok e

/-- R266: `UPDATE` splats the difference to the last amplitude and then stores the new one; a zero difference issues
no splat; a splat that faults leaves the last amplitude alone. -/
def Obligations.UpdateSplatsTheDifference : Prop :=
  ∀ (d : Device Config.chip) (i : Fin Config.chip.numOsc) (b : Fin Config.chip.numBuf) (t : Nat) (a : Int),
    (d.oscAt i).output = some b →
    (a = (d.oscAt i).lastAmp → update i t a d = .ok d) ∧
    (a ≠ (d.oscAt i).lastAmp →
      (∀ e, offset (synthOf Config.chip i) t (a - (d.oscAt i).lastAmp) b d = .ok e →
        update i t a d = .ok (e.setLastAmp i a)) ∧
      ∀ e c, offset (synthOf Config.chip i) t (a - (d.oscAt i).lastAmp) b d = .trap e c →
        update i t a d = .trap e c)

/-! ### Oscillators (spec/42_oscillators.md) -/

/-- R304, R305: the divider value and the step period of every REF-1 oscillator; that only a pulse of divider 0 is
inaudible is R307's inference from R306. -/
def Obligations.PeriodAndAudibility : Prop :=
  ∀ d : Device Config.chip,
    d.divider 0x02 0x03 = (d.reg 0x03).toNat % 8 * 256 + (d.reg 0x02).toNat ∧
    d.period (voiceOf Config.chip 0) = (d.reg 0x03).toNat % 8 * 256 + (d.reg 0x02).toNat + 1 ∧
    d.period (voiceOf Config.chip 1) = (d.reg 0x07).toNat % 8 * 256 + (d.reg 0x06).toNat + 1 ∧
    d.period (voiceOf Config.chip 2) = (d.reg 0x0A).toNat % 8 * 256 + (d.reg 0x09).toNat + 1 ∧
    d.period (voiceOf Config.chip 3) = 4 <<< ((d.reg 0x0E).toNat % 16) ∧
    (∀ i, 1 ≤ d.period (voiceOf Config.chip i)) ∧
    (d.inaudible (voiceOf Config.chip 0) = true ↔ d.divider 0x02 0x03 = 0) ∧
    (d.inaudible (voiceOf Config.chip 1) = true ↔ d.divider 0x06 0x07 = 0) ∧
    d.inaudible (voiceOf Config.chip 2) = false ∧ d.inaudible (voiceOf Config.chip 3) = false

/-- R309, R310, R311, R321, R323, R326, R332, R342: when each REF-1 oscillator is silent, and its amplitude. -/
def Obligations.AmplitudeOfEachVoice : Prop :=
  ∀ d : Device Config.chip,
    (∀ (p : Fin 2) (i : Fin Config.chip.numOsc) (vol n sh : Nat), i.1 = p.1 →
      vol = (if (d.reg (4 * p)).getLsbD 4 then (d.reg (4 * p)).toNat % 16 else (d.oscAt i).envLevel.toNat) →
      n = (d.reg (4 * p + 3)).toNat % 8 * 256 + (d.reg (4 * p + 2)).toNat →
      sh = (d.reg (4 * p + 1)).toNat % 8 →
      (d.silent i = true ↔ (d.oscAt i).output = none ∨ (d.reg 0x10).getLsbD i = false ∨ vol = 0 ∨
        ((d.reg (4 * p + 1)).getLsbD 7 = true ∧ sh ≠ 0 ∧ (d.reg (4 * p + 1)).getLsbD 3 = false ∧
          0x7FF < n + n / 2 ^ sh)) ∧
      d.amp i = if d.silent i then 0 else if n = 0 then ((vol / 2 : Nat) : Int)
        else if (d.oscAt i).phase < [1, 2, 4, 6].getD ((d.reg (4 * p)).toNat / 64) 0 then (vol : Int) else 0) ∧
    (∀ h : (d.oscAt 2).phase < 32,
      (d.silent 2 = true ↔ (d.oscAt 2).output = none ∨ (d.reg 0x10).getLsbD 2 = false ∨
        (d.reg 0x08).toNat % 16 = 0) ∧
      d.amp 2 = if d.silent 2 then 0
        else (((d.reg 0x08).toNat % 16 * (d.ram[(d.oscAt 2).phase]'h).toNat : Nat) : Int)) ∧
    (∀ vol : Nat,
      vol = (if (d.reg 0x0D).getLsbD 4 then (d.reg 0x0D).toNat % 16 else (d.oscAt 3).envLevel.toNat) →
      (d.silent 3 = true ↔ (d.oscAt 3).output = none ∨ (d.reg 0x10).getLsbD 3 = false ∨ vol = 0) ∧
      d.amp 3 = if d.silent 3 then 0 else if (d.oscAt 3).lfsr.getLsbD 0 then (vol : Int) else 0)

/-- R331, R334, which the spec infers by iterating R330: from the seed the long loop repeats after exactly 32767 steps
and the short loop after 93, the register never becomes 0, and the first states are those of the golden trace in
either mode. -/
def Obligations.NoiseLoopLengths : Prop :=
  Function.minimalPeriod (lfsrStep (w := 15) 1) 1 = 32767 ∧
  Function.minimalPeriod (lfsrStep (w := 15) 6) 1 = 93 ∧
  (∀ (tap : Nat) (l : BitVec 15), 0 < tap → tap < 15 → l ≠ 0 → lfsrStep tap l ≠ 0) ∧
  ∀ tap ∈ [1, 6], (List.range 10).map (fun n => (lfsrStep tap)^[n] (1 : BitVec 15)) =
    [0x0001, 0x4000, 0x2000, 0x1000, 0x0800, 0x0400, 0x0200, 0x0100, 0x0080, 0x0040]

/-- R319, R330: what `ADVANCE` does to each REF-1 oscillator; advancing by 0 changes nothing, and advancing twice is
advancing by the sum. -/
def Obligations.AdvanceAdds : Prop :=
  ∀ (d : Device Config.chip) (i : Fin Config.chip.numOsc) (m n : Nat),
    advance i n (advance i m d) = advance i (m + n) d ∧
    ((d.oscAt i).phase < stepsOf Config.chip (voiceOf Config.chip i) → advance i 0 d = d) ∧
    (i.1 < 2 → advance i n d = d.setOsc i { d.oscAt i with phase := ((d.oscAt i).phase + n) % 8 }) ∧
    (i.1 = 2 → advance i n d = d.setOsc i { d.oscAt i with phase := ((d.oscAt i).phase + n) % 32 }) ∧
    (i.1 = 3 → advance i n d = d.setOsc i { d.oscAt i with
      lfsr := (lfsrStep (if (d.reg 0x0E).getLsbD 7 then 6 else 1))^[n] (d.oscAt i).lfsr })

/-- R312 to R316, R66: a run that does not fault updates at `from` first. A silent or inaudible oscillator then only
advances by its expiries in `[from + delay, to)`; an audible one, at the time of each of them, advances one step and
updates there. The run stores the distance from `to` to the next expiry, leaves all but its oscillator and the delay line
of its buffer alone, and ends with the last amplitude equal to the amplitude when the oscillator is bound. -/
def Obligations.RunKeepsTheNextExpiry : Prop :=
  ∀ (d d' : Device Config.chip) (i : Fin Config.chip.numOsc) (start stop : Nat),
    run i start stop d = .ok d' →
    ∃ cnt : Nat,
      (∀ n, n < cnt ↔ start + (d.oscAt i).delay.toNat + n * d.period (voiceOf Config.chip i) < stop) ∧
      d.RunFrame i d' ∧
      stop + (d'.oscAt i).delay.toNat =
        start + (d.oscAt i).delay.toNat + cnt * d.period (voiceOf Config.chip i) ∧
      ((d.oscAt i).phase < stepsOf Config.chip (voiceOf Config.chip i) →
        (d'.oscAt i).phase = ((advance i cnt d).oscAt i).phase) ∧
      (d'.oscAt i).lfsr = ((advance i cnt d).oscAt i).lfsr ∧
      (∃ (e : Nat → Device Config.chip) (f : Device Config.chip),
        update i start (d.amp i) d = .ok (e 0) ∧
        (if d.silent i = true ∨ d.inaudible (voiceOf Config.chip i) = true then f = advance i cnt (e 0)
          else f = e cnt ∧ ∀ n, n < cnt →
            update i (start + (d.oscAt i).delay.toNat + n * d.period (voiceOf Config.chip i))
              ((advance i 1 (e n)).amp i) (advance i 1 (e n)) = .ok (e (n + 1))) ∧
        d' = f.setOsc i { f.oscAt i with delay := (d'.oscAt i).delay }) ∧
      ((d.oscAt i).output ≠ none → (d'.oscAt i).lastAmp = d'.amp i)

/-- R318, the spec's own inference from R312 and R266: an oscillator whose amplitude at `from` and at every expiry of
the run is its last amplitude issues no splat: the run completes, even into an unconfigured buffer, and no buffer
changes. -/
def Obligations.SteadyRunNeverSplats : Prop :=
  ∀ (d : Device Config.chip) (i : Fin Config.chip.numOsc) (start stop : Nat), start ≤ stop →
    d.amp i = (d.oscAt i).lastAmp →
    (∀ n, start + (d.oscAt i).delay.toNat + n * d.period (voiceOf Config.chip i) < stop →
      (advance i (n + 1) d).amp i = (d.oscAt i).lastAmp) →
    ∃ d', run i start stop d = .ok d' ∧ (∀ b, d'.bufAt b = d.bufAt b) ∧
      (d'.oscAt i).lastAmp = (d.oscAt i).lastAmp

/-- An inference from R313 to R316 (compare R424): a run that completes is the same as two runs that meet at any time
in between: no splat, step or delay depends on where the time line is cut. -/
def Obligations.RunSplitsAnywhere : Prop :=
  ∀ (d d' : Device Config.chip) (i : Fin Config.chip.numOsc) (start mid stop : Nat),
    start ≤ mid → mid ≤ stop → run i start stop d = .ok d' →
    (run i start mid d).andThen (run i mid stop) = .ok d'

/-- R336: the envelope clock of each REF-1 oscillator, and the level a number of clocks after the start clock: it
falls by one every `V + 1` clocks and stays at 0, or restarts at 15 with `LOOP`. -/
def Obligations.EnvelopeDecay : Prop :=
  (∀ (d : Device Config.chip) (i : Fin Config.chip.numOsc),
    (i.1 = 0 → envClock i d = d.setOsc i (envClocked (d.reg 0x00) (d.oscAt i))) ∧
    (i.1 = 1 → envClock i d = d.setOsc i (envClocked (d.reg 0x04) (d.oscAt i))) ∧
    (i.1 = 3 → envClock i d = d.setOsc i (envClocked (d.reg 0x0D) (d.oscAt i)))) ∧
  ∀ (ctrl : Byte) (o : Osc Config.chip) (n : Nat), o.envStart = true →
    ((envClocked ctrl)^[n + 1] o).envLevel.toNat =
      if ctrl.getLsbD 5 then 15 - n / (ctrl.toNat % 16 + 1) % 16 else 15 - n / (ctrl.toNat % 16 + 1)

/-- R340 to R343: a sweep clock of a REF-1 pulse rewrites the divider with the target exactly when the sweep divider
is 0, the unit is enabled with a shift and does not mute; then it reloads or counts the sweep divider; nothing else
changes. -/
def Obligations.SweepClockWritesBack : Prop :=
  ∀ (d : Device Config.chip) (p : Fin 2) (i : Fin Config.chip.numOsc) (n sh target : Nat),
    d.regs.wf → i.1 = p.1 →
    n = d.divider (4 * p + 2) (4 * p + 3) → sh = (d.reg (4 * p + 1)).toNat % 8 →
    target = (if (d.reg (4 * p + 1)).getLsbD 3 then n - n / 2 ^ sh else n + n / 2 ^ sh) →
    (if (d.oscAt i).swDiv = 0 ∧ (d.reg (4 * p + 1)).getLsbD 7 = true ∧ sh ≠ 0 ∧
        ((d.reg (4 * p + 1)).getLsbD 3 = true ∨ target ≤ 0x7FF) then
      (sweepClock i d).divider (4 * p + 2) (4 * p + 3) = target ∧
      ((sweepClock i d).reg (4 * p + 3)).toNat / 8 = (d.reg (4 * p + 3)).toNat / 8
    else ∀ a, (sweepClock i d).reg a = d.reg a) ∧
    (∀ a : Nat, a ≠ 4 * p + 2 → a ≠ 4 * p + 3 → (sweepClock i d).reg a = d.reg a) ∧
    (sweepClock i d).oscAt i = { d.oscAt i with
      swDiv := if (d.oscAt i).swDiv = 0 ∨ (d.oscAt i).swReload = true then (d.reg (4 * p + 1)).extractLsb' 4 3
        else (d.oscAt i).swDiv - 1
      swReload := if (d.oscAt i).swDiv = 0 ∨ (d.oscAt i).swReload = true then false else (d.oscAt i).swReload } ∧
    (∀ j, j ≠ i → (sweepClock i d).oscAt j = d.oscAt j) ∧
    { sweepClock i d with regs := d.regs, osc := d.osc } = d

/-- R350: `SET_OUTPUT` to the binding it has changes nothing; otherwise it retires the level held in the old buffer at
`last_time`, sets the last amplitude to 0 and binds, and changes nothing else; retiring outside the window faults
`TimeOutOfRange` (R263, R264) with nothing written but `FAULT` (R504; the inside of a faulted device is assumption log
entry 7). -/
def Obligations.SetOutputRebinds : Prop :=
  ∀ (s : State) (x : Byte) (i : Fin Config.chip.numOsc) (u : Word) (new : Option (Fin Config.chip.numBuf)),
    s.dev.fault = none → x.toNat = i.1 →
    (new = none ∧ u = 0xFFFFFFFF ∨ ∃ b, new = some b ∧ u.toNat = b.1) →
    (new = (s.dev.oscAt i).output →
      exec (.setOutput x u) s = .next { s with outbox := s.outbox ++ [⟨.ok, []⟩] }) ∧
    (new ≠ (s.dev.oscAt i).output → ((s.dev.oscAt i).output = none ∨ (s.dev.oscAt i).lastAmp = 0) →
      ∃ t, exec (.setOutput x u) s = .next t ∧ s.Answers t .ok [] ∧
        t.dev = s.dev.setOsc i { s.dev.oscAt i with lastAmp := 0, output := new }) ∧
    ∀ b, new ≠ (s.dev.oscAt i).output → (s.dev.oscAt i).output = some b → (s.dev.oscAt i).lastAmp ≠ 0 →
      (s.dev.bufAt b).factor ≠ 0 →
      (inWindow (s.dev.bufAt b).factor.toNat (s.dev.synAt (synthOf Config.chip i)).width s.dev.lastTime.toNat →
        ∃ t e, exec (.setOutput x u) s = .next t ∧ s.Answers t .ok [] ∧
          offset (synthOf Config.chip i) s.dev.lastTime.toNat (-(s.dev.oscAt i).lastAmp) b s.dev = .ok e ∧
          t.dev = e.setOsc i { s.dev.oscAt i with lastAmp := 0, output := new }) ∧
      (¬ inWindow (s.dev.bufAt b).factor.toNat (s.dev.synAt (synthOf Config.chip i)).width s.dev.lastTime.toNat →
        exec (.setOutput x u) s = .next { s with
          dev := { s.dev with fault := some .timeOutOfRange }
          outbox := s.outbox ++ [⟨.fault .timeOutOfRange, []⟩] })

/-! ### Chip (spec/43_chip.md) -/

/-- R402, R403, R405 to R413: `WRITE` in the window stores its byte, has exactly the side effect of its address, and
changes nothing else: no time, no delay, no amplitude, no buffer, no synthesizer. -/
def Obligations.WriteStoresOneByte : Prop :=
  ∀ (s : State) (y : Half) (v : Byte), s.Inv → s.dev.fault = none → y.toNat < 0x11 →
    ∃ t, exec (.write y v) s = .next t ∧ s.Answers t .ok [] ∧
      t.dev.reg y.toNat = v ∧ (∀ a, a ≠ y.toNat → t.dev.reg a = s.dev.reg a) ∧
      (∀ i, t.dev.oscAt i = { s.dev.oscAt i with
        phase :=
          if 0x80 ≤ v.toNat ∧ (y = 0x03 ∧ i.1 = 0 ∨ y = 0x07 ∧ i.1 = 1 ∨ y = 0x0A ∧ i.1 = 2) then 0
          else (s.dev.oscAt i).phase
        envStart :=
          if 0x80 ≤ v.toNat ∧ (y = 0x03 ∧ i.1 = 0 ∨ y = 0x07 ∧ i.1 = 1 ∨ y = 0x0F ∧ i.1 = 3) then true
          else (s.dev.oscAt i).envStart
        swReload :=
          if y = 0x01 ∧ i.1 = 0 ∨ y = 0x05 ∧ i.1 = 1 then true else (s.dev.oscAt i).swReload }) ∧
      (t.dev.latch.1 = if y = 0x0B then v.toNat % 32
        else if y = 0x0C ∧ (s.dev.reg 0x0B).getLsbD 7 = true then (s.dev.latch.1 + 1) % 32
        else s.dev.latch.1) ∧
      (∀ (j : Nat) (h : j < 32), (t.dev.ram[j]'h).toNat =
        if y = 0x0C ∧ j = s.dev.latch.1 then v.toNat % 16 else (s.dev.ram[j]'h).toNat) ∧
      t.dev.fault = none ∧ t.dev.buf = s.dev.buf ∧ t.dev.syn = s.dev.syn ∧
      t.dev.lastTime = s.dev.lastTime ∧ t.dev.fsNext = s.dev.fsNext ∧ t.dev.fsStep = s.dev.fsStep

/-- R404, the spec's own inference from R405 to R413: of all writes only a `W_DATA` write with `AINC = 1` changes
state when repeated; a write of the value already held, to an address without a side effect, changes nothing. -/
def Obligations.RepeatedWriteChangesNothing : Prop :=
  ∀ (s : State) (y : Half) (v : Byte), s.Inv → s.dev.fault = none → y.toNat < 0x11 →
    (¬ (y = 0x0C ∧ (s.dev.reg 0x0B).getLsbD 7 = true) →
      ∃ t t', exec (.write y v) s = .next t ∧ exec (.write y v) t = .next t' ∧ t'.dev = t.dev) ∧
    (y.toNat ∈ [0x00, 0x02, 0x04, 0x06, 0x08, 0x09, 0x0D, 0x0E, 0x10] → s.dev.reg y.toNat = v →
      ∃ t, exec (.write y v) s = .next t ∧ t.dev = s.dev)

/-- R420, R423: a time before `last_time` faults `TimeRegression` and changes nothing but `FAULT` (R504; the inside of a
faulted device is assumption log entry 7); `RUN_UNTIL` to `last_time` is a no-op, even when a tick is due. -/
def Obligations.RunUntilBackwardOrNowhere : Prop :=
  ∀ (s : State) (u : Word), s.dev.fault = none →
    (u.toNat < s.dev.lastTime.toNat →
      ∀ i ∈ [Instr.runUntil u, Instr.endFrame u], exec i s = .next { s with
        dev := { s.dev with fault := some .timeRegression }
        outbox := s.outbox ++ [⟨.fault .timeRegression, []⟩] }) ∧
    (u = s.dev.lastTime → exec (.runUntil u) s = .next { s with outbox := s.outbox ++ [⟨.ok, []⟩] })

/-- R420, R421, R520: a run forward whose splats stay in the lookahead window completes: chip time is `end`, a tick was
counted for every tick time strictly before it, and only what the rule lists changed. With no tick due before `end` it is
one run of every oscillator in index order; with one due, it is such a run to `fs_next`, chip time set to it, the tick,
the next tick's time, and then `RUN_UNTIL end` from there. -/
def Obligations.RunUntilCompletes : Prop :=
  ∀ (s : State) (u : Word), s.Inv → s.dev.fault = none → s.dev.lastTime.toNat < u.toNat →
    s.dev.mayRun u.toNat →
    ∃ t n, exec (.runUntil u) s = .next t ∧ s.Answers t .ok [] ∧ s.dev.AdvanceFrame t.dev ∧
      t.dev.lastTime = u ∧ t.dev.fsNext = s.dev.fsNext + 3200 * n ∧
      (∀ m, m < n ↔ s.dev.fsNext + 3200 * m < u.toNat) ∧
      t.dev.fsStep = (s.dev.fsStep + n) % 4 ∧
      (u.toNat ≤ s.dev.fsNext →
        ∃ e, runEach s.dev.lastTime.toNat u.toNat [0, 1, 2, 3] s.dev = .ok e ∧ t.dev = { e with lastTime := u }) ∧
      (s.dev.fsNext < u.toNat →
        ∃ e t', runEach s.dev.lastTime.toNat s.dev.fsNext [0, 1, 2, 3] s.dev = .ok e ∧
          exec (.runUntil u) { s with
            dev := { fsTick { e with lastTime := BitVec.ofNat 32 s.dev.fsNext } with
              fsNext := s.dev.fsNext + 3200 } } = .next t' ∧
          t'.dev = t.dev)

/-- R263, R312 step 1, R420, R504, R508: a run forward whose first oscillator must splat at once faults, with nothing
written but `FAULT` (the inside of a faulted device: assumption log entry 7): `BufferUnconfigured` when its buffer is
unconfigured, otherwise `TimeOutOfRange` when `last_time` is outside the lookahead window. -/
def Obligations.RunFaultsAtFirstSplat : Prop :=
  ∀ (s : State) (u : Word) (b : Fin Config.chip.numBuf), s.Inv → s.dev.fault = none →
    s.dev.lastTime.toNat < u.toNat → (s.dev.oscAt 0).output = some b → s.dev.amp 0 ≠ (s.dev.oscAt 0).lastAmp →
    ∀ i ∈ [Instr.runUntil u, Instr.endFrame u],
      ((s.dev.bufAt b).factor = 0 → exec i s = .next { s with
        dev := { s.dev with fault := some .bufferUnconfigured }
        outbox := s.outbox ++ [⟨.fault .bufferUnconfigured, []⟩] }) ∧
      ((s.dev.bufAt b).factor ≠ 0 →
        ¬ inWindow (s.dev.bufAt b).factor.toNat (s.dev.synAt (synthOf Config.chip 0)).width s.dev.lastTime.toNat →
        exec i s = .next { s with
          dev := { s.dev with fault := some .timeOutOfRange }
          outbox := s.outbox ++ [⟨.fault .timeOutOfRange, []⟩] })

/-- R423: `END_FRAME n` is `RUN_UNTIL n` followed by the re-basing of chip time and of the next tick. -/
def Obligations.EndFrameRebasesTime : Prop :=
  ∀ (s : State) (u : Word), s.Inv → s.dev.fault = none → s.dev.lastTime.toNat ≤ u.toNat →
    s.dev.mayRun u.toNat →
    ∃ t r, exec (.endFrame u) s = .next t ∧ exec (.runUntil u) s = .next r ∧ s.Answers t .ok [] ∧
      t.dev = { r.dev with lastTime := 0, fsNext := r.dev.fsNext - u.toNat } ∧ u.toNat ≤ r.dev.fsNext ∧
      s.dev.AdvanceFrame t.dev

/-- R431: a tick clocks the envelopes of oscillators 0, 1 and 3, at steps 1 and 3 the sweeps of 0 and 1, and moves to
the next step; that it never splats is the spec's own inference from R420; it moves no waveform. -/
def Obligations.FrameSequencerTick : Prop :=
  ∀ d : Device Config.chip,
    fsTick d = { (if d.fsStep = 1 ∨ d.fsStep = 3
        then sweepClock 1 (sweepClock 0 (envClock 3 (envClock 1 (envClock 0 d))))
        else envClock 3 (envClock 1 (envClock 0 d))) with fsStep := (d.fsStep + 1) % 4 } ∧
    (fsTick d).buf = d.buf ∧ (fsTick d).lastTime = d.lastTime ∧ (fsTick d).fsNext = d.fsNext ∧
    ∀ i, ((fsTick d).oscAt i).phase = (d.oscAt i).phase ∧ ((fsTick d).oscAt i).delay = (d.oscAt i).delay ∧
      ((fsTick d).oscAt i).lastAmp = (d.oscAt i).lastAmp ∧ ((fsTick d).oscAt i).lfsr = (d.oscAt i).lfsr

/-- R426, R601: `RESET` sets every register, the wave RAM, the latch, every oscillator but its binding, the times and
every delay line to the power-on value and keeps the configuration; right after power-on it changes nothing (the
spec's own inference). -/
def Obligations.ResetReturnsToPowerOn : Prop :=
  (∀ s : State, s.dev.fault = none →
    ∃ t, exec .reset s = .next t ∧ s.Answers t .ok [] ∧ s.dev.SameConfiguration t.dev ∧
      (∀ a, t.dev.reg a = 0) ∧ (∀ (j : Nat) (h : j < 32), (t.dev.ram[j]'h) = 0) ∧ t.dev.latch.1 = 0 ∧
      (∀ i, t.dev.oscAt i = ⟨0, 0, 0, (s.dev.oscAt i).output, 1, false, 0, 0, 0, false⟩) ∧
      t.dev.lastTime = 0 ∧ t.dev.fsNext = 3200 ∧ t.dev.fsStep = 0 ∧
      ∀ b, (t.dev.bufAt b).acc = 0 ∧ ∀ (j : Nat) (h : j < 17), (t.dev.bufAt b).dl[j] = 0) ∧
  exec .reset State.reset = .next { State.reset with outbox := [⟨.ok, []⟩] }

/-- R427, the spec's own inference: two devices with the same configuration that are sent `RESET` and then the same
commands return the same responses, bit for bit, after every number of commands. -/
def Obligations.ReplayIsBitIdentical : Prop :=
  ∀ (s s' t t' : State) (cmds : List Byte) (n : Nat), s.dev.SameConfiguration s'.dev → s.dev.fault = none →
    s.inbox = (encode .reset).bytes ++ cmds → s'.inbox = (encode .reset).bytes ++ cmds →
    core.run (n + 1) s = .next t → core.run (n + 1) s' = .next t' →
    t.dev = t'.dev ∧ t.outbox.drop s.outbox.length = t'.outbox.drop s'.outbox.length

/-! ### Invariants (spec/10_state.md) -/

/-- R600: the power-on state keeps the invariant, and nothing has gone wrong. -/
def Obligations.PowerOnKeepsInvariant : Prop := State.reset.Inv ∧ State.reset.clean

/-- R33 to R52, R64, R67, R68, R251, R310, R331: every step keeps the invariant of the device. -/
def Obligations.StepKeepsInvariant : Prop :=
  ∀ s t : State, s.Inv → step s = .next t → t.Inv

/-- R67, the spec's own inference from R420 and R423: `last_time` never decreases except by `END_FRAME` and `RESET`,
which set it to 0, and `last_time <= fs_next <= last_time + FS_PERIOD` after every command. -/
def Obligations.ChipTimeMovesForward : Prop :=
  ∀ (s t : State) (i : Instr), s.Inv → exec i s = .next t →
    (s.dev.lastTime.toNat ≤ t.dev.lastTime.toNat ∨ i = .reset ∨ ∃ n, i = .endFrame n) ∧
    ((i = .reset ∨ ∃ n, i = .endFrame n) → t.dev.fault = none → t.dev.lastTime = 0) ∧
    t.dev.lastTime.toNat ≤ t.dev.fsNext ∧ t.dev.fsNext ≤ t.dev.lastTime.toNat + 3200

/-- An inference from R420 (R424 says it of frames): a `RUN_UNTIL` that is OK is the same as two that meet at any time
in between: ticks, expiries and splats do not depend on how the host cuts the time line. -/
def Obligations.RunUntilSplitsAnywhere : Prop :=
  ∀ (s t : State) (a u : Word), s.Inv → s.dev.fault = none → s.dev.lastTime.toNat ≤ a.toNat →
    a.toNat ≤ u.toNat → exec (.runUntil u) s = .next t → t.dev.fault = none →
    ∃ m t', exec (.runUntil a) s = .next m ∧ exec (.runUntil u) m = .next t' ∧ t'.dev = t.dev

/-- R4, R9: the machine takes the chip configuration as a parameter, and the machine of the host is its REF-1 value. The
machine of EVERY configuration starts in its invariant, and every step keeps it (what a configuration may be, and what
a rule written with REF-1's numbers says of another chip, are the model's: assumption log entries 16, 18 and 21). -/
def Obligations.EveryChipKeepsInvariant : Prop :=
  core = coreFor Config.chip ∧
  ∀ cfg : ChipConfig, (State.powerOn cfg).Inv ∧ ∀ s t : State cfg, s.Inv → stepFor s = .next t → t.Inv
end

