-- ==== Sys2Proof/Laws/Buffer.lean ====
section
/-! SUPPORT. What a read does to a buffer, slot by slot, and how reads compose. -/

namespace Sys2Proof.Machine

@[simp] theorem Buffer.afterRead_sampleRate (b : Buffer) : b.afterRead.sampleRate = b.sampleRate := rfl
@[simp] theorem Buffer.afterRead_clockRate (b : Buffer) : b.afterRead.clockRate = b.clockRate := rfl
@[simp] theorem Buffer.afterRead_factor (b : Buffer) : b.afterRead.factor = b.factor := rfl
@[simp] theorem Buffer.afterRead_bassFreq (b : Buffer) : b.afterRead.bassFreq = b.bassFreq := rfl
@[simp] theorem Buffer.afterRead_bassShift (b : Buffer) : b.afterRead.bassShift = b.bassShift := rfl
@[simp] theorem Buffer.afterRead_acc (b : Buffer) : b.afterRead.acc = b.nextAcc := rfl
@[simp] theorem Buffer.afterRead_dl (b : Buffer) : b.afterRead.dl = shiftLine b.dl := rfl

@[simp] theorem Buffer.flushed_sampleRate (b : Buffer) : b.flushed.sampleRate = b.sampleRate := rfl
@[simp] theorem Buffer.flushed_clockRate (b : Buffer) : b.flushed.clockRate = b.clockRate := rfl
@[simp] theorem Buffer.flushed_factor (b : Buffer) : b.flushed.factor = b.factor := rfl
@[simp] theorem Buffer.flushed_bassFreq (b : Buffer) : b.flushed.bassFreq = b.bassFreq := rfl
@[simp] theorem Buffer.flushed_bassShift (b : Buffer) : b.flushed.bassShift = b.bassShift := rfl
@[simp] theorem Buffer.flushed_acc (b : Buffer) : b.flushed.acc = 0 := rfl

theorem Buffer.flushed_slot (b : Buffer) (j : Nat) (h : j < Config.delayLen) : b.flushed.dl[j] = 0 := by
  simp [Buffer.flushed]

/-- Slot `j` of the line moved down one place. -/
theorem shiftLine_slot (dl : Vector Slot Config.delayLen) (j : Nat) (h : j < Config.delayLen) :
    (shiftLine dl)[j] = if h' : j + 1 < Config.delayLen then dl[j + 1] else 0 := by
  simp [shiftLine]

/-- Slot `j` after `n` reads is the slot `n` places further on, or 0 past the end of the line. -/
theorem Buffer.afterReads_slot (n : Nat) (b : Buffer) (j : Nat) (h : j < Config.delayLen) :
    (b.afterReads n).dl[j] = if h' : j + n < Config.delayLen then b.dl[j + n] else 0 := by
  induction n generalizing b with
  | zero => simp [Buffer.afterReads, h]
  | succ n ih =>
    simp only [Buffer.afterReads, ih, Buffer.afterRead_dl]
    by_cases h1 : j + n < Config.delayLen
    · rw [dif_pos h1, shiftLine_slot]
      by_cases h2 : j + n + 1 < Config.delayLen
      · rw [dif_pos h2, dif_pos (by omega)]; rfl
      · rw [dif_neg h2, dif_neg (by omega)]
    · rw [dif_neg h1, dif_neg (by omega)]

@[simp] theorem Buffer.afterReads_bassShift (n : Nat) (b : Buffer) : (b.afterReads n).bassShift = b.bassShift := by
  induction n generalizing b with
  | zero => rfl
  | succ n ih => simp [Buffer.afterReads, ih]

@[simp] theorem Buffer.afterReads_sampleRate (n : Nat) (b : Buffer) :
    (b.afterReads n).sampleRate = b.sampleRate := by
  induction n generalizing b with
  | zero => rfl
  | succ n ih => simp [Buffer.afterReads, ih]

@[simp] theorem Buffer.afterReads_clockRate (n : Nat) (b : Buffer) :
    (b.afterReads n).clockRate = b.clockRate := by
  induction n generalizing b with
  | zero => rfl
  | succ n ih => simp [Buffer.afterReads, ih]

@[simp] theorem Buffer.afterReads_factor (n : Nat) (b : Buffer) : (b.afterReads n).factor = b.factor := by
  induction n generalizing b with
  | zero => rfl
  | succ n ih => simp [Buffer.afterReads, ih]

@[simp] theorem Buffer.afterReads_bassFreq (n : Nat) (b : Buffer) : (b.afterReads n).bassFreq = b.bassFreq := by
  induction n generalizing b with
  | zero => rfl
  | succ n ih => simp [Buffer.afterReads, ih]

theorem Buffer.afterReads_add (m n : Nat) (b : Buffer) : b.afterReads (m + n) = (b.afterReads m).afterReads n := by
  induction m generalizing b with
  | zero => simp [Buffer.afterReads]
  | succ m ih => rw [Nat.succ_add]; exact ih b.afterRead

theorem Buffer.afterReads_succ (n : Nat) (b : Buffer) : b.afterReads (n + 1) = (b.afterReads n).afterRead := by
  rw [Buffer.afterReads_add]; rfl

@[simp] theorem Buffer.nextSamples_length (n : Nat) (b : Buffer) : (b.nextSamples n).length = n := by
  induction n generalizing b with
  | zero => rfl
  | succ n ih => simp [Buffer.nextSamples, ih]

/-- The accumulator after a read, on integers: the sum wraps (R210). -/
theorem Buffer.nextAcc_eq (b : Buffer) :
    b.nextAcc = BitVec.ofInt 64 (b.acc.toInt + b.dl[0].toInt - b.acc.toInt >>> b.bassShift) := by
  simp only [Buffer.nextAcc]
  apply BitVec.eq_of_toInt_eq
  rw [BitVec.toInt_ofInt, BitVec.toInt_sub, BitVec.toInt_add, BitVec.toInt_sshiftRight, Int.bmod_sub_bmod]

/-- The sample of an accumulator, on integers (R211). -/
theorem sampleOf_toInt (acc : Slot) : (sampleOf acc).toInt = sat16 (acc.toInt >>> Config.outShift) := by
  unfold sampleOf
  rw [BitVec.toInt_ofInt]
  have h1 : -32768 ≤ sat16 (acc.toInt >>> Config.outShift) := by unfold sat16; omega
  have h2 : sat16 (acc.toInt >>> Config.outShift) ≤ 32767 := by unfold sat16; omega
  rw [Int.bmod_def]; omega

/-- With an empty line and an accumulator that is not negative, a read leaks towards 0. -/
theorem Buffer.nextAcc_nonneg {b : Buffer} (h0 : b.dl[0] = 0) (ha : 0 ≤ b.acc.toInt) :
    b.nextAcc.toInt = b.acc.toInt - b.acc.toInt / 2 ^ b.bassShift ∧
      0 ≤ b.nextAcc.toInt ∧ b.nextAcc.toInt ≤ b.acc.toInt := by
  have hlt := BitVec.toInt_lt (x := b.acc)
  have hle := BitVec.le_toInt b.acc
  have hd : 0 ≤ b.acc.toInt / 2 ^ b.bassShift := Int.ediv_nonneg ha (by positivity)
  have hd' : b.acc.toInt / 2 ^ b.bassShift ≤ b.acc.toInt := Int.ediv_le_self _ ha
  have : b.nextAcc.toInt = b.acc.toInt - b.acc.toInt / 2 ^ b.bassShift := by
    rw [Buffer.nextAcc_eq, h0, BitVec.toInt_ofInt, Int.shiftRight_eq_div_pow]
    have hz : (0 : Slot).toInt = 0 := rfl
    rw [hz]
    norm_cast
    rw [Int.bmod_def]; push_cast at *; omega
  omega

/-- With an empty line a negative accumulator rises by at least one, and not past 0. -/
theorem Buffer.nextAcc_neg {b : Buffer} (h0 : b.dl[0] = 0) (ha : b.acc.toInt < 0) :
    b.acc.toInt + 1 ≤ b.nextAcc.toInt ∧ b.nextAcc.toInt ≤ 0 := by
  have hle := BitVec.le_toInt b.acc
  have hp : (0 : Int) < 2 ^ b.bassShift := by positivity
  have hd : b.acc.toInt / 2 ^ b.bassShift ≤ -1 := by
    have := Int.ediv_neg_of_neg_of_pos ha hp; omega
  have hd' : b.acc.toInt ≤ b.acc.toInt / 2 ^ b.bassShift := by
    rw [Int.le_ediv_iff_mul_le hp]
    nlinarith
  have : b.nextAcc.toInt = b.acc.toInt - b.acc.toInt / 2 ^ b.bassShift := by
    rw [Buffer.nextAcc_eq, h0, BitVec.toInt_ofInt, Int.shiftRight_eq_div_pow]
    have hz : (0 : Slot).toInt = 0 := rfl
    rw [hz]
    norm_cast
    rw [Int.bmod_def]; push_cast at *; omega
  omega

end Sys2Proof.Machine
end

