-- ==== Sys2Proof/Laws/Encoding.lean ====
section
/-! SUPPORT. The fields of a command put together and taken apart, and the bytes of the transport. -/

namespace Sys2Proof

/-- Bit `k` of W0 of a command put together from its fields. -/
theorem Cmd.make_w0_bit (op x : Byte) (y : Half) (u v : Word) (k : Nat) :
    (Cmd.make op x y u v).w0.getLsbD k =
      if k < 16 then y.getLsbD k else if k - 16 < 8 then x.getLsbD (k - 16) else op.getLsbD (k - 16 - 8) := by
  show (op ++ x ++ y : BitVec (8 + 8 + 16)).getLsbD k = _
  rw [BitVec.getLsbD_append, BitVec.getLsbD_append]

theorem Cmd.make_op (op x : Byte) (y : Half) (u v : Word) : (Cmd.make op x y u v).op = op := by
  apply BitVec.eq_of_getLsbD_eq; intro i hi
  rw [Cmd.op, BitVec.getLsbD_extractLsb', Cmd.make_w0_bit, if_neg (by omega), if_neg (by omega)]
  simp only [hi, decide_true, Bool.true_and]; congr 1; omega

theorem Cmd.make_x (op x : Byte) (y : Half) (u v : Word) : (Cmd.make op x y u v).x = x := by
  apply BitVec.eq_of_getLsbD_eq; intro i hi
  rw [Cmd.x, BitVec.getLsbD_extractLsb', Cmd.make_w0_bit, if_neg (by omega), if_pos (by omega)]
  simp only [hi, decide_true, Bool.true_and]; congr 1; omega

theorem Cmd.make_y (op x : Byte) (y : Half) (u v : Word) : (Cmd.make op x y u v).y = y := by
  apply BitVec.eq_of_getLsbD_eq; intro i hi
  rw [Cmd.y, BitVec.getLsbD_extractLsb', Cmd.make_w0_bit, if_pos (by omega)]
  simp only [hi, decide_true, Bool.true_and]; congr 1; omega

theorem Cmd.make_u (op x : Byte) (y : Half) (u v : Word) : (Cmd.make op x y u v).u = u := rfl

theorem Cmd.make_v (op x : Byte) (y : Half) (u v : Word) : (Cmd.make op x y u v).v = v := rfl

/-- A command is its fields. -/
theorem Cmd.make_fields (c : Cmd) : Cmd.make c.op c.x c.y c.u c.v = c := by
  obtain ⟨w0, w1, w2⟩ := c
  simp only [Cmd.make, Cmd.op, Cmd.x, Cmd.y, Cmd.u, Cmd.v, Cmd.mk.injEq, and_true]
  apply BitVec.eq_of_getLsbD_eq; intro i hi
  simp only [BitVec.getLsbD_append, BitVec.getLsbD_extractLsb']
  split
  · simp_all
  · split
    · next h1 h2 => simp [h2]; congr 1; omega
    · next h1 h2 =>
      have : i - 16 - 8 < 8 := by omega
      simp [this]; congr 1; omega

/-- Two commands are the same when their fields are. -/
theorem Cmd.ext_fields {c e : Cmd} (hop : c.op = e.op) (hx : c.x = e.x) (hy : c.y = e.y) (hu : c.u = e.u)
    (hv : c.v = e.v) : c = e := by
  rw [← c.make_fields, ← e.make_fields, hop, hx, hy, hu, hv]

/-- Bit `k` of the 96-bit value of a command (R138): W0 in bits 95:64. -/
theorem Cmd.bits_bit (c : Cmd) (k : Nat) :
    c.bits.getLsbD k =
      if k < 32 then c.w2.getLsbD k else if k - 32 < 32 then c.w1.getLsbD (k - 32) else c.w0.getLsbD (k - 32 - 32) := by
  show (c.w0 ++ c.w1 ++ c.w2 : BitVec (32 + 32 + 32)).getLsbD k = _
  rw [BitVec.getLsbD_append, BitVec.getLsbD_append]

theorem Cmd.ofBits_bits (c : Cmd) : Cmd.ofBits c.bits = c := by
  have h0 : c.bits.extractLsb' 64 32 = c.w0 := by
    apply BitVec.eq_of_getLsbD_eq; intro i hi
    rw [BitVec.getLsbD_extractLsb', Cmd.bits_bit, if_neg (by omega), if_neg (by omega)]
    simp only [hi, decide_true, Bool.true_and]; congr 1; omega
  have h1 : c.bits.extractLsb' 32 32 = c.w1 := by
    apply BitVec.eq_of_getLsbD_eq; intro i hi
    rw [BitVec.getLsbD_extractLsb', Cmd.bits_bit, if_neg (by omega), if_pos (by omega)]
    simp only [hi, decide_true, Bool.true_and]; congr 1; omega
  have h2 : c.bits.extractLsb' 0 32 = c.w2 := by
    apply BitVec.eq_of_getLsbD_eq; intro i hi
    rw [BitVec.getLsbD_extractLsb', Cmd.bits_bit, if_pos (by omega)]
    simp only [hi, decide_true, Bool.true_and]; congr 1; omega
  rw [Cmd.ofBits, h0, h1, h2]

/-- Bit `k` of a word of bytes. -/
theorem wordOfBytes_bit (b0 b1 b2 b3 : Byte) (k : Nat) :
    (wordOfBytes b0 b1 b2 b3).getLsbD k =
      if k < 8 then b0.getLsbD k else if k - 8 < 8 then b1.getLsbD (k - 8)
      else if k - 8 - 8 < 8 then b2.getLsbD (k - 8 - 8) else b3.getLsbD (k - 8 - 8 - 8) := by
  show (b3 ++ b2 ++ b1 ++ b0 : BitVec (8 + 8 + 8 + 8)).getLsbD k = _
  rw [BitVec.getLsbD_append, BitVec.getLsbD_append, BitVec.getLsbD_append]

/-- The word of a word's bytes. -/
theorem wordOfBytes_bytes (w : Word) :
    wordOfBytes (w.extractLsb' 0 8) (w.extractLsb' 8 8) (w.extractLsb' 16 8) (w.extractLsb' 24 8) = w := by
  apply BitVec.eq_of_getLsbD_eq; intro i hi
  simp only [wordOfBytes_bit, BitVec.getLsbD_extractLsb']
  split
  · next h => simp [h]
  · split
    · next h => simp only [h, decide_true, Bool.true_and]; congr 1; omega
    · split
      · next h => simp only [h, decide_true, Bool.true_and]; congr 1; omega
      · next h =>
        have : i - 8 - 8 - 8 < 8 := by omega
        simp only [this, decide_true, Bool.true_and]; congr 1; omega

/-- The bytes of a word of bytes. -/
theorem wordBytes_word (b0 b1 b2 b3 : Byte) : wordBytes (wordOfBytes b0 b1 b2 b3) = [b0, b1, b2, b3] := by
  simp only [wordBytes, List.cons.injEq, and_true]
  refine ⟨?_, ?_, ?_, ?_⟩ <;> apply BitVec.eq_of_getLsbD_eq <;> intro i hi <;>
    rw [BitVec.getLsbD_extractLsb', wordOfBytes_bit]
  · rw [if_pos (by omega)]; simp only [hi, decide_true, Bool.true_and]; congr 1; omega
  · rw [if_neg (by omega), if_pos (by omega)]; simp only [hi, decide_true, Bool.true_and]; congr 1; omega
  · rw [if_neg (by omega), if_neg (by omega), if_pos (by omega)]
    simp only [hi, decide_true, Bool.true_and]; congr 1; omega
  · rw [if_neg (by omega), if_neg (by omega), if_neg (by omega)]
    simp only [hi, decide_true, Bool.true_and]; congr 1; omega

@[simp] theorem wordBytes_length (w : Word) : (wordBytes w).length = 4 := rfl

@[simp] theorem Cmd.bytes_length (c : Cmd) : c.bytes.length = 12 := rfl

/-! ### Decoding -/

theorem reservedZero_eq_ok {ok : Bool} {i j : Instr} : reservedZero ok i = .ok j ↔ ok = true ∧ i = j := by
  unfold reservedZero; split <;> simp_all

/-- The data byte of a `WRITE` operand word whose upper bits are 0. -/
theorem setWidth_extract_data {u : Word} (h : u.extractLsb' 8 24 = 0) : (u.extractLsb' 0 8).setWidth 32 = u := by
  apply BitVec.eq_of_getLsbD_eq; intro i hi
  by_cases h8 : i < 8
  · simp [h8, hi]
  · have hb := congrArg (fun w => BitVec.getLsbD w (i - 8)) h
    have h24 : i - 8 < 24 := by omega
    have e : 8 + (i - 8) = i := by omega
    simp only [BitVec.getLsbD_extractLsb', h24, decide_true, Bool.true_and, e] at hb
    rw [hb]; simp [h8]

theorem extract_data_setWidth (d : Byte) :
    (d.setWidth 32).extractLsb' 8 24 = 0#24 ∧ (d.setWidth 32).extractLsb' 0 8 = d := by
  constructor
  · apply BitVec.eq_of_getLsbD_eq; intro i hi
    simp
  · apply BitVec.eq_of_getLsbD_eq; intro i hi
    simp [hi]; omega

/-- Everything a 96-bit value can decode to: its opcode, the fields that must be 0, and its operands. -/
theorem decode_cases {c : Cmd} {i : Instr} (h : decode c = .ok i) :
    (c.op = 0x01 ∧ c.y = 0 ∧ i = .setSampleRate c.x c.u c.v) ∨
    (c.op = 0x02 ∧ c.y = 0 ∧ c.v = 0 ∧ i = .setBassFreq c.x c.u) ∨
    (c.op = 0x03 ∧ c.y = 0 ∧ c.u = 0 ∧ c.v = 0 ∧ i = .readSample c.x) ∨
    (c.op = 0x04 ∧ c.y = 0 ∧ c.v = 0 ∧ i = .readSamples c.x c.u) ∨
    (c.op = 0x05 ∧ c.y = 0 ∧ c.u = 0 ∧ c.v = 0 ∧ i = .flush c.x) ∨
    (c.op = 0x06 ∧ c.y = 0 ∧ c.v = 0 ∧ i = .setVolume c.x c.u) ∨
    (c.op = 0x07 ∧ i = .setTreble c.x c.y c.u c.v) ∨
    (c.op = 0x08 ∧ c.y = 0 ∧ c.v = 0 ∧ i = .setOutput c.x c.u) ∨
    (c.op = 0x09 ∧ c.x = 0 ∧ c.u.extractLsb' 8 24 = 0 ∧ c.v = 0 ∧ i = .write c.y (c.u.extractLsb' 0 8)) ∨
    (c.op = 0x0A ∧ c.x = 0 ∧ c.y = 0 ∧ c.v = 0 ∧ i = .runUntil c.u) ∨
    (c.op = 0x0B ∧ c.x = 0 ∧ c.y = 0 ∧ c.v = 0 ∧ i = .endFrame c.u) ∨
    (c.op = 0x0C ∧ c.x = 0 ∧ c.y = 0 ∧ c.u = 0 ∧ c.v = 0 ∧ i = .reset) := by
  unfold decode at h
  by_cases h1 : c.op = 0x01
  · rw [if_pos h1, reservedZero_eq_ok] at h; simp at h
    exact .inl ⟨h1, h.1, h.2.symm⟩
  rw [if_neg h1] at h; right
  by_cases h2 : c.op = 0x02
  · rw [if_pos h2, reservedZero_eq_ok] at h; simp at h
    exact .inl ⟨h2, h.1.1, h.1.2, h.2.symm⟩
  rw [if_neg h2] at h; right
  by_cases h3 : c.op = 0x03
  · rw [if_pos h3, reservedZero_eq_ok] at h; simp at h
    exact .inl ⟨h3, h.1.1.1, h.1.1.2, h.1.2, h.2.symm⟩
  rw [if_neg h3] at h; right
  by_cases h4 : c.op = 0x04
  · rw [if_pos h4, reservedZero_eq_ok] at h; simp at h
    exact .inl ⟨h4, h.1.1, h.1.2, h.2.symm⟩
  rw [if_neg h4] at h; right
  by_cases h5 : c.op = 0x05
  · rw [if_pos h5, reservedZero_eq_ok] at h; simp at h
    exact .inl ⟨h5, h.1.1.1, h.1.1.2, h.1.2, h.2.symm⟩
  rw [if_neg h5] at h; right
  by_cases h6 : c.op = 0x06
  · rw [if_pos h6, reservedZero_eq_ok] at h; simp at h
    exact .inl ⟨h6, h.1.1, h.1.2, h.2.symm⟩
  rw [if_neg h6] at h; right
  by_cases h7 : c.op = 0x07
  · rw [if_pos h7] at h
    exact .inl ⟨h7, (Except.ok.inj h).symm⟩
  rw [if_neg h7] at h; right
  by_cases h8 : c.op = 0x08
  · rw [if_pos h8, reservedZero_eq_ok] at h; simp at h
    exact .inl ⟨h8, h.1.1, h.1.2, h.2.symm⟩
  rw [if_neg h8] at h; right
  by_cases h9 : c.op = 0x09
  · rw [if_pos h9, reservedZero_eq_ok] at h; simp at h
    exact .inl ⟨h9, h.1.1.1, h.1.1.2, h.1.2, h.2.symm⟩
  rw [if_neg h9] at h; right
  by_cases hA : c.op = 0x0A
  · rw [if_pos hA, reservedZero_eq_ok] at h; simp at h
    exact .inl ⟨hA, h.1.1.1, h.1.1.2, h.1.2, h.2.symm⟩
  rw [if_neg hA] at h; right
  by_cases hB : c.op = 0x0B
  · rw [if_pos hB, reservedZero_eq_ok] at h; simp at h
    exact .inl ⟨hB, h.1.1.1, h.1.1.2, h.1.2, h.2.symm⟩
  rw [if_neg hB] at h; right
  by_cases hC : c.op = 0x0C
  · rw [if_pos hC, reservedZero_eq_ok] at h; simp at h
    exact ⟨hC, h.1.1.1.1, h.1.1.1.2, h.1.1.2, h.1.2, h.2.symm⟩
  rw [if_neg hC] at h; exact absurd h (by simp)

/-! ### The match/mask table -/

/-- Two bit strings put together are the same when their parts are. -/
theorem append_eq_append_iff {n m : Nat} {a c : BitVec n} {b d : BitVec m} : a ++ b = c ++ d ↔ a = c ∧ b = d := by
  constructor
  · intro h
    refine ⟨BitVec.eq_of_getLsbD_eq fun i hi => ?_, BitVec.eq_of_getLsbD_eq fun i hi => ?_⟩
    · have := congrArg (fun w => w.getLsbD (m + i)) h
      simpa [BitVec.getLsbD_append] using this
    · have := congrArg (fun w => w.getLsbD i) h
      simpa [BitVec.getLsbD_append, hi] using this
  · rintro ⟨rfl, rfl⟩; rfl

/-- A masked comparison of a command is one of each of its fields. -/
theorem Cmd.match_fields (c : Cmd) (mop mx pop px : Byte) (my py : Half) (mu mv pu pv : Word) :
    c.bits &&& (Cmd.make mop mx my mu mv).bits = (Cmd.make pop px py pu pv).bits ↔
      c.op &&& mop = pop ∧ c.x &&& mx = px ∧ c.y &&& my = py ∧ c.u &&& mu = pu ∧ c.v &&& mv = pv := by
  have hb : c.bits = c.op ++ c.x ++ c.y ++ c.u ++ c.v := by
    conv_lhs => rw [← c.make_fields]
    rfl
  rw [hb]
  show (c.op ++ c.x ++ c.y ++ c.u ++ c.v) &&& (mop ++ mx ++ my ++ mu ++ mv) = pop ++ px ++ py ++ pu ++ pv ↔ _
  simp only [BitVec.and_append, append_eq_append_iff, and_assoc]

@[simp] theorem and_byte_ones (a : Byte) : a &&& 255#8 = a := BitVec.and_allOnes

@[simp] theorem and_half_ones (a : Half) : a &&& 65535#16 = a := BitVec.and_allOnes

@[simp] theorem and_word_ones (a : Word) : a &&& 4294967295#32 = a := BitVec.and_allOnes

/-! One lemma per row: its mask and pattern say which fields are fixed (R131, R136, R138). -/

theorem row_setSampleRate (c : Cmd) :
    c.bits &&& 0xFF00FFFF0000000000000000 = 0x010000000000000000000000 ↔ c.op = 0x01 ∧ c.y = 0 := by
  have h := c.match_fields 0xFF 0x00 0x01 0 0xFFFF 0 0x00000000 0x00000000 0 0
  rw [show (Cmd.make 0xFF 0x00 0xFFFF 0x00000000 0x00000000 : Cmd).bits = 0xFF00FFFF0000000000000000 from rfl,
    show (Cmd.make 0x01 0 0 0 0 : Cmd).bits = 0x010000000000000000000000 from rfl] at h
  rw [h]
  simp

theorem row_setBassFreq (c : Cmd) :
    c.bits &&& 0xFF00FFFF00000000FFFFFFFF = 0x020000000000000000000000 ↔ c.op = 0x02 ∧ c.y = 0 ∧ c.v = 0 := by
  have h := c.match_fields 0xFF 0x00 0x02 0 0xFFFF 0 0x00000000 0xFFFFFFFF 0 0
  rw [show (Cmd.make 0xFF 0x00 0xFFFF 0x00000000 0xFFFFFFFF : Cmd).bits = 0xFF00FFFF00000000FFFFFFFF from rfl,
    show (Cmd.make 0x02 0 0 0 0 : Cmd).bits = 0x020000000000000000000000 from rfl] at h
  rw [h]
  simp

theorem row_readSample (c : Cmd) :
    c.bits &&& 0xFF00FFFFFFFFFFFFFFFFFFFF = 0x030000000000000000000000 ↔ c.op = 0x03 ∧ c.y = 0 ∧ c.u = 0 ∧ c.v = 0 := by
  have h := c.match_fields 0xFF 0x00 0x03 0 0xFFFF 0 0xFFFFFFFF 0xFFFFFFFF 0 0
  rw [show (Cmd.make 0xFF 0x00 0xFFFF 0xFFFFFFFF 0xFFFFFFFF : Cmd).bits = 0xFF00FFFFFFFFFFFFFFFFFFFF from rfl,
    show (Cmd.make 0x03 0 0 0 0 : Cmd).bits = 0x030000000000000000000000 from rfl] at h
  rw [h]
  simp

theorem row_readSamples (c : Cmd) :
    c.bits &&& 0xFF00FFFF00000000FFFFFFFF = 0x040000000000000000000000 ↔ c.op = 0x04 ∧ c.y = 0 ∧ c.v = 0 := by
  have h := c.match_fields 0xFF 0x00 0x04 0 0xFFFF 0 0x00000000 0xFFFFFFFF 0 0
  rw [show (Cmd.make 0xFF 0x00 0xFFFF 0x00000000 0xFFFFFFFF : Cmd).bits = 0xFF00FFFF00000000FFFFFFFF from rfl,
    show (Cmd.make 0x04 0 0 0 0 : Cmd).bits = 0x040000000000000000000000 from rfl] at h
  rw [h]
  simp

theorem row_flush (c : Cmd) :
    c.bits &&& 0xFF00FFFFFFFFFFFFFFFFFFFF = 0x050000000000000000000000 ↔ c.op = 0x05 ∧ c.y = 0 ∧ c.u = 0 ∧ c.v = 0 := by
  have h := c.match_fields 0xFF 0x00 0x05 0 0xFFFF 0 0xFFFFFFFF 0xFFFFFFFF 0 0
  rw [show (Cmd.make 0xFF 0x00 0xFFFF 0xFFFFFFFF 0xFFFFFFFF : Cmd).bits = 0xFF00FFFFFFFFFFFFFFFFFFFF from rfl,
    show (Cmd.make 0x05 0 0 0 0 : Cmd).bits = 0x050000000000000000000000 from rfl] at h
  rw [h]
  simp

theorem row_setVolume (c : Cmd) :
    c.bits &&& 0xFF00FFFF00000000FFFFFFFF = 0x060000000000000000000000 ↔ c.op = 0x06 ∧ c.y = 0 ∧ c.v = 0 := by
  have h := c.match_fields 0xFF 0x00 0x06 0 0xFFFF 0 0x00000000 0xFFFFFFFF 0 0
  rw [show (Cmd.make 0xFF 0x00 0xFFFF 0x00000000 0xFFFFFFFF : Cmd).bits = 0xFF00FFFF00000000FFFFFFFF from rfl,
    show (Cmd.make 0x06 0 0 0 0 : Cmd).bits = 0x060000000000000000000000 from rfl] at h
  rw [h]
  simp

theorem row_setTreble (c : Cmd) :
    c.bits &&& 0xFF0000000000000000000000 = 0x070000000000000000000000 ↔ c.op = 0x07 := by
  have h := c.match_fields 0xFF 0x00 0x07 0 0x0000 0 0x00000000 0x00000000 0 0
  rw [show (Cmd.make 0xFF 0x00 0x0000 0x00000000 0x00000000 : Cmd).bits = 0xFF0000000000000000000000 from rfl,
    show (Cmd.make 0x07 0 0 0 0 : Cmd).bits = 0x070000000000000000000000 from rfl] at h
  rw [h]
  simp

theorem row_setOutput (c : Cmd) :
    c.bits &&& 0xFF00FFFF00000000FFFFFFFF = 0x080000000000000000000000 ↔ c.op = 0x08 ∧ c.y = 0 ∧ c.v = 0 := by
  have h := c.match_fields 0xFF 0x00 0x08 0 0xFFFF 0 0x00000000 0xFFFFFFFF 0 0
  rw [show (Cmd.make 0xFF 0x00 0xFFFF 0x00000000 0xFFFFFFFF : Cmd).bits = 0xFF00FFFF00000000FFFFFFFF from rfl,
    show (Cmd.make 0x08 0 0 0 0 : Cmd).bits = 0x080000000000000000000000 from rfl] at h
  rw [h]
  simp

theorem row_write (c : Cmd) :
    c.bits &&& 0xFFFF0000FFFFFF00FFFFFFFF = 0x090000000000000000000000 ↔ c.op = 0x09 ∧ c.x = 0 ∧ c.u &&& 0xFFFFFF00 = 0 ∧ c.v = 0 := by
  have h := c.match_fields 0xFF 0xFF 0x09 0 0x0000 0 0xFFFFFF00 0xFFFFFFFF 0 0
  rw [show (Cmd.make 0xFF 0xFF 0x0000 0xFFFFFF00 0xFFFFFFFF : Cmd).bits = 0xFFFF0000FFFFFF00FFFFFFFF from rfl,
    show (Cmd.make 0x09 0 0 0 0 : Cmd).bits = 0x090000000000000000000000 from rfl] at h
  rw [h]
  simp

theorem row_runUntil (c : Cmd) :
    c.bits &&& 0xFFFFFFFF00000000FFFFFFFF = 0x0A0000000000000000000000 ↔ c.op = 0x0A ∧ c.x = 0 ∧ c.y = 0 ∧ c.v = 0 := by
  have h := c.match_fields 0xFF 0xFF 0x0A 0 0xFFFF 0 0x00000000 0xFFFFFFFF 0 0
  rw [show (Cmd.make 0xFF 0xFF 0xFFFF 0x00000000 0xFFFFFFFF : Cmd).bits = 0xFFFFFFFF00000000FFFFFFFF from rfl,
    show (Cmd.make 0x0A 0 0 0 0 : Cmd).bits = 0x0A0000000000000000000000 from rfl] at h
  rw [h]
  simp

theorem row_endFrame (c : Cmd) :
    c.bits &&& 0xFFFFFFFF00000000FFFFFFFF = 0x0B0000000000000000000000 ↔ c.op = 0x0B ∧ c.x = 0 ∧ c.y = 0 ∧ c.v = 0 := by
  have h := c.match_fields 0xFF 0xFF 0x0B 0 0xFFFF 0 0x00000000 0xFFFFFFFF 0 0
  rw [show (Cmd.make 0xFF 0xFF 0xFFFF 0x00000000 0xFFFFFFFF : Cmd).bits = 0xFFFFFFFF00000000FFFFFFFF from rfl,
    show (Cmd.make 0x0B 0 0 0 0 : Cmd).bits = 0x0B0000000000000000000000 from rfl] at h
  rw [h]
  simp

theorem row_reset (c : Cmd) :
    c.bits &&& 0xFFFFFFFFFFFFFFFFFFFFFFFF = 0x0C0000000000000000000000 ↔ c.op = 0x0C ∧ c.x = 0 ∧ c.y = 0 ∧ c.u = 0 ∧ c.v = 0 := by
  have h := c.match_fields 0xFF 0xFF 0x0C 0 0xFFFF 0 0xFFFFFFFF 0xFFFFFFFF 0 0
  rw [show (Cmd.make 0xFF 0xFF 0xFFFF 0xFFFFFFFF 0xFFFFFFFF : Cmd).bits = 0xFFFFFFFFFFFFFFFFFFFFFFFF from rfl,
    show (Cmd.make 0x0C 0 0 0 0 : Cmd).bits = 0x0C0000000000000000000000 from rfl] at h
  rw [h]
  simp

end Sys2Proof
end

