-- ==== Sys2Proof/Laws/Memory.lean ====
section
/-! SUPPORT. The register window: a read after a write, and the canonical form, which every write keeps. -/

namespace Sys2Proof.Machine

@[simp] theorem Memory.read_nil (a : Nat) : Memory.read [] a = unlistedByte := rfl

/-- Below every listed address nothing is listed. -/
theorem Memory.read_of_lt {m : Memory} {a : Nat} (h : ∀ c ∈ m, a < c.1) : m.read a = unlistedByte := by
  induction m with
  | nil => rfl
  | cons c rest ih =>
    have : a ≠ c.1 := by have := h c (by simp); omega
    simp only [Memory.read, if_neg this]
    exact ih fun d hd => h d (by simp [hd])

theorem Memory.read_write_ne (m : Memory) {a b : Nat} (v : Byte) (h : b ≠ a) :
    (m.write a v).read b = m.read b := by
  induction m with
  | nil =>
    simp only [Memory.write]
    split <;> simp [Memory.read, h]
  | cons c rest ih =>
    obtain ⟨p, w⟩ := c
    simp only [Memory.write]
    split
    · split <;> simp [Memory.read, h]
    · split
      · subst_vars
        split <;> simp [Memory.read, h]
      · simp [Memory.read, ih]

theorem Memory.read_write_self {m : Memory} (hm : m.wf) (a : Nat) (v : Byte) : (m.write a v).read a = v := by
  induction m with
  | nil =>
    simp only [Memory.write]
    split <;> simp_all [Memory.read]
  | cons c rest ih =>
    obtain ⟨p, w⟩ := c
    have hrest : Memory.wf rest := ⟨(List.pairwise_cons.1 hm.1).2, fun d hd => hm.2 d (by simp [hd])⟩
    have hlt : ∀ d ∈ rest, p < d.1 := (List.pairwise_cons.1 hm.1).1
    simp only [Memory.write]
    split
    · split
      · next hv =>
        have hne : a ≠ p := by omega
        simp only [Memory.read, if_neg hne]
        rw [Memory.read_of_lt fun d hd => by have := hlt d hd; omega, hv]
      · simp [Memory.read]
    · split
      · subst_vars
        split
        · next hv => rw [Memory.read_of_lt hlt, hv]
        · simp [Memory.read]
      · next hne => simp [Memory.read, hne, ih hrest]

/-- A read after a write, at any address. -/
theorem Memory.read_write {m : Memory} (hm : m.wf) (a b : Nat) (v : Byte) :
    (m.write a v).read b = if b = a then v else m.read b := by
  split
  · subst_vars; exact Memory.read_write_self hm _ v
  · exact m.read_write_ne v ‹_›

/-- Every entry a write leaves was there or is the one written. -/
theorem Memory.mem_write {m : Memory} {a : Nat} {v : Byte} {c : Host.Cell} (h : c ∈ m.write a v) :
    c ∈ m ∨ c = (a, v) ∧ v ≠ unlistedByte := by
  induction m with
  | nil =>
    simp only [Memory.write] at h
    split at h <;> simp_all
  | cons e rest ih =>
    obtain ⟨p, w⟩ := e
    simp only [Memory.write] at h
    split at h
    · split at h
      · exact .inl h
      · rcases List.mem_cons.1 h with rfl | h
        · exact .inr ⟨rfl, ‹_›⟩
        · exact .inl h
    · split at h
      · split at h
        · exact .inl (by simp [h])
        · rcases List.mem_cons.1 h with rfl | h
          · exact .inr ⟨rfl, ‹_›⟩
          · exact .inl (by simp [h])
      · rcases List.mem_cons.1 h with rfl | h
        · exact .inl (by simp)
        · rcases ih h with h | h
          · exact .inl (by simp [h])
          · exact .inr h

/-- A write keeps the canonical form. -/
theorem Memory.wf_write {m : Memory} (hm : m.wf) (a : Nat) (v : Byte) : (m.write a v).wf := by
  refine ⟨?_, fun c hc => ?_⟩
  · induction m with
    | nil => simp only [Memory.write]; split <;> simp
    | cons e rest ih =>
      obtain ⟨p, w⟩ := e
      have hrest : Memory.wf rest := ⟨(List.pairwise_cons.1 hm.1).2, fun d hd => hm.2 d (by simp [hd])⟩
      have hlt : ∀ d ∈ rest, p < d.1 := (List.pairwise_cons.1 hm.1).1
      simp only [Memory.write]
      split
      · split
        · exact hm.1
        · refine List.pairwise_cons.2 ⟨fun d hd => ?_, hm.1⟩
          rcases List.mem_cons.1 hd with rfl | hd
          · assumption
          · have := hlt d hd; simp only; omega
      · split
        · split
          · exact hrest.1
          · refine List.pairwise_cons.2 ⟨fun d hd => ?_, hrest.1⟩
            have := hlt d hd; simp only; omega
        · refine List.pairwise_cons.2 ⟨fun d hd => ?_, ih hrest⟩
          rcases Memory.mem_write hd with hd | ⟨rfl, -⟩
          · exact hlt d hd
          · simp only; omega
  · rcases Memory.mem_write hc with hc | ⟨rfl, hv⟩
    · exact hm.2 c hc
    · exact hv

/-- A write in the window keeps every listed address in it. -/
theorem Memory.within_write {m : Memory} {n a : Nat} (hm : m.within n) (ha : a < n) (v : Byte) :
    (m.write a v).within n := by
  intro c hc
  rcases Memory.mem_write hc with hc | ⟨rfl, -⟩
  · exact hm c hc
  · exact ha

/-- Two canonical windows that read the same at every address are equal. -/
theorem Memory.ext_of_wf {m n : Memory} (hm : m.wf) (hn : n.wf) (h : ∀ a, m.read a = n.read a) : m = n := by
  induction m generalizing n with
  | nil =>
    cases n with
    | nil => rfl
    | cons e rest =>
      have := h e.1
      simp only [Memory.read, if_true] at this
      exact absurd this.symm (hn.2 e (by simp))
  | cons e rest ih =>
    obtain ⟨p, w⟩ := e
    have hw : w ≠ unlistedByte := hm.2 (p, w) (by simp)
    have hlt : ∀ d ∈ rest, p < d.1 := (List.pairwise_cons.1 hm.1).1
    have hrest : Memory.wf rest := ⟨(List.pairwise_cons.1 hm.1).2, fun d hd => hm.2 d (by simp [hd])⟩
    cases n with
    | nil =>
      have := h p
      simp only [Memory.read, if_true] at this
      exact absurd this hw
    | cons f rest' =>
      obtain ⟨q, x⟩ := f
      have hx : x ≠ unlistedByte := hn.2 (q, x) (by simp)
      have hlt' : ∀ d ∈ rest', q < d.1 := (List.pairwise_cons.1 hn.1).1
      have hrest' : Memory.wf rest' := ⟨(List.pairwise_cons.1 hn.1).2, fun d hd => hn.2 d (by simp [hd])⟩
      have hp := h p
      have hq := h q
      simp only [Memory.read, if_true] at hp hq
      have hpq : p = q := by
        rcases Nat.lt_trichotomy p q with hlt1 | heq | hgt
        · rw [if_neg (by omega), Memory.read_of_lt fun d hd => by have := hlt' d hd; omega] at hp
          exact absurd hp hw
        · exact heq
        · rw [if_neg (by omega), Memory.read_of_lt fun d hd => by have := hlt d hd; omega] at hq
          exact absurd hq.symm hx
      subst hpq
      rw [if_pos rfl] at hp
      subst hp
      congr 1
      refine ih hrest hrest' fun a => ?_
      by_cases ha : a = p
      · subst ha
        rw [Memory.read_of_lt hlt, Memory.read_of_lt hlt']
      · simpa [Memory.read, ha] using h a

/-- Writing the byte already held changes nothing. -/
theorem Memory.write_read {m : Memory} (hm : m.wf) (a : Nat) : m.write a (m.read a) = m :=
  Memory.ext_of_wf (Memory.wf_write hm a _) hm fun b => by
    rw [Memory.read_write hm]; split <;> simp_all

/-- Writing the same byte twice is writing it once. -/
theorem Memory.write_write {m : Memory} (hm : m.wf) (a : Nat) (v : Byte) : (m.write a v).write a v = m.write a v := by
  have := Memory.write_read (Memory.wf_write hm a v) a
  rwa [Memory.read_write_self hm] at this

/-- The window at power-on is in canonical form. -/
theorem Memory.wf_nil : Memory.wf [] := ⟨List.Pairwise.nil, by simp⟩

/-- Reset leaves the register window in canonical form. -/
theorem State.reset_regs_wf : State.reset.dev.regs.wf := Memory.wf_nil

end Sys2Proof.Machine
end

