-- ==== Sys2Proof/Laws/State.lean ====
section
/-! SUPPORT. One lemma per field per update of the device and of the machine: no proof unfolds a record update. -/

namespace Sys2Proof.Machine

variable {cfg : ChipConfig}


/-! ### `setBuf` -/

@[simp] theorem Device.setBuf_fault (d : Device cfg) (b : Fin cfg.numBuf) (v : Buffer) :
    (d.setBuf b v).fault = d.fault := rfl
@[simp] theorem Device.setBuf_syn (d : Device cfg) (b : Fin cfg.numBuf) (v : Buffer) :
    (d.setBuf b v).syn = d.syn := rfl
@[simp] theorem Device.setBuf_osc (d : Device cfg) (b : Fin cfg.numBuf) (v : Buffer) :
    (d.setBuf b v).osc = d.osc := rfl
@[simp] theorem Device.setBuf_regs (d : Device cfg) (b : Fin cfg.numBuf) (v : Buffer) :
    (d.setBuf b v).regs = d.regs := rfl
@[simp] theorem Device.setBuf_ram (d : Device cfg) (b : Fin cfg.numBuf) (v : Buffer) :
    (d.setBuf b v).ram = d.ram := rfl
@[simp] theorem Device.setBuf_latch (d : Device cfg) (b : Fin cfg.numBuf) (v : Buffer) :
    (d.setBuf b v).latch = d.latch := rfl
@[simp] theorem Device.setBuf_lastTime (d : Device cfg) (b : Fin cfg.numBuf) (v : Buffer) :
    (d.setBuf b v).lastTime = d.lastTime := rfl
@[simp] theorem Device.setBuf_fsNext (d : Device cfg) (b : Fin cfg.numBuf) (v : Buffer) :
    (d.setBuf b v).fsNext = d.fsNext := rfl
@[simp] theorem Device.setBuf_fsStep (d : Device cfg) (b : Fin cfg.numBuf) (v : Buffer) :
    (d.setBuf b v).fsStep = d.fsStep := rfl

/-! ### `setSyn` -/

@[simp] theorem Device.setSyn_fault (d : Device cfg) (s : Fin cfg.numSynth) (v : Synth) :
    (d.setSyn s v).fault = d.fault := rfl
@[simp] theorem Device.setSyn_buf (d : Device cfg) (s : Fin cfg.numSynth) (v : Synth) :
    (d.setSyn s v).buf = d.buf := rfl
@[simp] theorem Device.setSyn_osc (d : Device cfg) (s : Fin cfg.numSynth) (v : Synth) :
    (d.setSyn s v).osc = d.osc := rfl
@[simp] theorem Device.setSyn_regs (d : Device cfg) (s : Fin cfg.numSynth) (v : Synth) :
    (d.setSyn s v).regs = d.regs := rfl
@[simp] theorem Device.setSyn_ram (d : Device cfg) (s : Fin cfg.numSynth) (v : Synth) :
    (d.setSyn s v).ram = d.ram := rfl
@[simp] theorem Device.setSyn_latch (d : Device cfg) (s : Fin cfg.numSynth) (v : Synth) :
    (d.setSyn s v).latch = d.latch := rfl
@[simp] theorem Device.setSyn_lastTime (d : Device cfg) (s : Fin cfg.numSynth) (v : Synth) :
    (d.setSyn s v).lastTime = d.lastTime := rfl
@[simp] theorem Device.setSyn_fsNext (d : Device cfg) (s : Fin cfg.numSynth) (v : Synth) :
    (d.setSyn s v).fsNext = d.fsNext := rfl
@[simp] theorem Device.setSyn_fsStep (d : Device cfg) (s : Fin cfg.numSynth) (v : Synth) :
    (d.setSyn s v).fsStep = d.fsStep := rfl

/-! ### `setOsc` -/

@[simp] theorem Device.setOsc_fault (d : Device cfg) (i : Fin cfg.numOsc) (v : Osc cfg) :
    (d.setOsc i v).fault = d.fault := rfl
@[simp] theorem Device.setOsc_buf (d : Device cfg) (i : Fin cfg.numOsc) (v : Osc cfg) :
    (d.setOsc i v).buf = d.buf := rfl
@[simp] theorem Device.setOsc_syn (d : Device cfg) (i : Fin cfg.numOsc) (v : Osc cfg) :
    (d.setOsc i v).syn = d.syn := rfl
@[simp] theorem Device.setOsc_regs (d : Device cfg) (i : Fin cfg.numOsc) (v : Osc cfg) :
    (d.setOsc i v).regs = d.regs := rfl
@[simp] theorem Device.setOsc_ram (d : Device cfg) (i : Fin cfg.numOsc) (v : Osc cfg) :
    (d.setOsc i v).ram = d.ram := rfl
@[simp] theorem Device.setOsc_latch (d : Device cfg) (i : Fin cfg.numOsc) (v : Osc cfg) :
    (d.setOsc i v).latch = d.latch := rfl
@[simp] theorem Device.setOsc_lastTime (d : Device cfg) (i : Fin cfg.numOsc) (v : Osc cfg) :
    (d.setOsc i v).lastTime = d.lastTime := rfl
@[simp] theorem Device.setOsc_fsNext (d : Device cfg) (i : Fin cfg.numOsc) (v : Osc cfg) :
    (d.setOsc i v).fsNext = d.fsNext := rfl
@[simp] theorem Device.setOsc_fsStep (d : Device cfg) (i : Fin cfg.numOsc) (v : Osc cfg) :
    (d.setOsc i v).fsStep = d.fsStep := rfl

/-! ### `setReg` -/

@[simp] theorem Device.setReg_fault (d : Device cfg) (a : Nat) (v : Byte) :
    (d.setReg a v).fault = d.fault := rfl
@[simp] theorem Device.setReg_buf (d : Device cfg) (a : Nat) (v : Byte) :
    (d.setReg a v).buf = d.buf := rfl
@[simp] theorem Device.setReg_syn (d : Device cfg) (a : Nat) (v : Byte) :
    (d.setReg a v).syn = d.syn := rfl
@[simp] theorem Device.setReg_osc (d : Device cfg) (a : Nat) (v : Byte) :
    (d.setReg a v).osc = d.osc := rfl
@[simp] theorem Device.setReg_ram (d : Device cfg) (a : Nat) (v : Byte) :
    (d.setReg a v).ram = d.ram := rfl
@[simp] theorem Device.setReg_latch (d : Device cfg) (a : Nat) (v : Byte) :
    (d.setReg a v).latch = d.latch := rfl
@[simp] theorem Device.setReg_lastTime (d : Device cfg) (a : Nat) (v : Byte) :
    (d.setReg a v).lastTime = d.lastTime := rfl
@[simp] theorem Device.setReg_fsNext (d : Device cfg) (a : Nat) (v : Byte) :
    (d.setReg a v).fsNext = d.fsNext := rfl
@[simp] theorem Device.setReg_fsStep (d : Device cfg) (a : Nat) (v : Byte) :
    (d.setReg a v).fsStep = d.fsStep := rfl

/-! ### `takeFault` -/

@[simp] theorem Device.takeFault_buf (d : Device cfg) (c : FaultCode) :
    (d.takeFault c).buf = d.buf := rfl
@[simp] theorem Device.takeFault_syn (d : Device cfg) (c : FaultCode) :
    (d.takeFault c).syn = d.syn := rfl
@[simp] theorem Device.takeFault_osc (d : Device cfg) (c : FaultCode) :
    (d.takeFault c).osc = d.osc := rfl
@[simp] theorem Device.takeFault_regs (d : Device cfg) (c : FaultCode) :
    (d.takeFault c).regs = d.regs := rfl
@[simp] theorem Device.takeFault_ram (d : Device cfg) (c : FaultCode) :
    (d.takeFault c).ram = d.ram := rfl
@[simp] theorem Device.takeFault_latch (d : Device cfg) (c : FaultCode) :
    (d.takeFault c).latch = d.latch := rfl
@[simp] theorem Device.takeFault_lastTime (d : Device cfg) (c : FaultCode) :
    (d.takeFault c).lastTime = d.lastTime := rfl
@[simp] theorem Device.takeFault_fsNext (d : Device cfg) (c : FaultCode) :
    (d.takeFault c).fsNext = d.fsNext := rfl
@[simp] theorem Device.takeFault_fsStep (d : Device cfg) (c : FaultCode) :
    (d.takeFault c).fsStep = d.fsStep := rfl
@[simp] theorem Device.takeFault_fault (d : Device cfg) (c : FaultCode) : (d.takeFault c).fault = some c := rfl

/-! ### `rebase` -/

@[simp] theorem Device.rebase_fault (d : Device cfg) (n : Word) :
    (d.rebase n).fault = d.fault := rfl
@[simp] theorem Device.rebase_buf (d : Device cfg) (n : Word) :
    (d.rebase n).buf = d.buf := rfl
@[simp] theorem Device.rebase_syn (d : Device cfg) (n : Word) :
    (d.rebase n).syn = d.syn := rfl
@[simp] theorem Device.rebase_osc (d : Device cfg) (n : Word) :
    (d.rebase n).osc = d.osc := rfl
@[simp] theorem Device.rebase_regs (d : Device cfg) (n : Word) :
    (d.rebase n).regs = d.regs := rfl
@[simp] theorem Device.rebase_ram (d : Device cfg) (n : Word) :
    (d.rebase n).ram = d.ram := rfl
@[simp] theorem Device.rebase_latch (d : Device cfg) (n : Word) :
    (d.rebase n).latch = d.latch := rfl
@[simp] theorem Device.rebase_fsStep (d : Device cfg) (n : Word) :
    (d.rebase n).fsStep = d.fsStep := rfl
@[simp] theorem Device.rebase_lastTime (d : Device cfg) (n : Word) : (d.rebase n).lastTime = d.lastTime - n := rfl
@[simp] theorem Device.rebase_fsNext (d : Device cfg) (n : Word) : (d.rebase n).fsNext = d.fsNext - n.toNat := rfl

/-! ### `setLastAmp` -/

@[simp] theorem Device.setLastAmp_fault (d : Device cfg) (i : Fin cfg.numOsc) (a : Int) :
    (d.setLastAmp i a).fault = d.fault := rfl
@[simp] theorem Device.setLastAmp_buf (d : Device cfg) (i : Fin cfg.numOsc) (a : Int) :
    (d.setLastAmp i a).buf = d.buf := rfl
@[simp] theorem Device.setLastAmp_syn (d : Device cfg) (i : Fin cfg.numOsc) (a : Int) :
    (d.setLastAmp i a).syn = d.syn := rfl
@[simp] theorem Device.setLastAmp_regs (d : Device cfg) (i : Fin cfg.numOsc) (a : Int) :
    (d.setLastAmp i a).regs = d.regs := rfl
@[simp] theorem Device.setLastAmp_ram (d : Device cfg) (i : Fin cfg.numOsc) (a : Int) :
    (d.setLastAmp i a).ram = d.ram := rfl
@[simp] theorem Device.setLastAmp_latch (d : Device cfg) (i : Fin cfg.numOsc) (a : Int) :
    (d.setLastAmp i a).latch = d.latch := rfl
@[simp] theorem Device.setLastAmp_lastTime (d : Device cfg) (i : Fin cfg.numOsc) (a : Int) :
    (d.setLastAmp i a).lastTime = d.lastTime := rfl
@[simp] theorem Device.setLastAmp_fsNext (d : Device cfg) (i : Fin cfg.numOsc) (a : Int) :
    (d.setLastAmp i a).fsNext = d.fsNext := rfl
@[simp] theorem Device.setLastAmp_fsStep (d : Device cfg) (i : Fin cfg.numOsc) (a : Int) :
    (d.setLastAmp i a).fsStep = d.fsStep := rfl

/-! ### `setDelay` -/

@[simp] theorem Device.setDelay_fault (d : Device cfg) (i : Fin cfg.numOsc) (n : Nat) :
    (d.setDelay i n).fault = d.fault := rfl
@[simp] theorem Device.setDelay_buf (d : Device cfg) (i : Fin cfg.numOsc) (n : Nat) :
    (d.setDelay i n).buf = d.buf := rfl
@[simp] theorem Device.setDelay_syn (d : Device cfg) (i : Fin cfg.numOsc) (n : Nat) :
    (d.setDelay i n).syn = d.syn := rfl
@[simp] theorem Device.setDelay_regs (d : Device cfg) (i : Fin cfg.numOsc) (n : Nat) :
    (d.setDelay i n).regs = d.regs := rfl
@[simp] theorem Device.setDelay_ram (d : Device cfg) (i : Fin cfg.numOsc) (n : Nat) :
    (d.setDelay i n).ram = d.ram := rfl
@[simp] theorem Device.setDelay_latch (d : Device cfg) (i : Fin cfg.numOsc) (n : Nat) :
    (d.setDelay i n).latch = d.latch := rfl
@[simp] theorem Device.setDelay_lastTime (d : Device cfg) (i : Fin cfg.numOsc) (n : Nat) :
    (d.setDelay i n).lastTime = d.lastTime := rfl
@[simp] theorem Device.setDelay_fsNext (d : Device cfg) (i : Fin cfg.numOsc) (n : Nat) :
    (d.setDelay i n).fsNext = d.fsNext := rfl
@[simp] theorem Device.setDelay_fsStep (d : Device cfg) (i : Fin cfg.numOsc) (n : Nat) :
    (d.setDelay i n).fsStep = d.fsStep := rfl

/-! ### `rebind` -/

@[simp] theorem Device.rebind_fault (d : Device cfg) (i : Fin cfg.numOsc) (o : Option (Fin cfg.numBuf)) :
    (d.rebind i o).fault = d.fault := rfl
@[simp] theorem Device.rebind_buf (d : Device cfg) (i : Fin cfg.numOsc) (o : Option (Fin cfg.numBuf)) :
    (d.rebind i o).buf = d.buf := rfl
@[simp] theorem Device.rebind_syn (d : Device cfg) (i : Fin cfg.numOsc) (o : Option (Fin cfg.numBuf)) :
    (d.rebind i o).syn = d.syn := rfl
@[simp] theorem Device.rebind_regs (d : Device cfg) (i : Fin cfg.numOsc) (o : Option (Fin cfg.numBuf)) :
    (d.rebind i o).regs = d.regs := rfl
@[simp] theorem Device.rebind_ram (d : Device cfg) (i : Fin cfg.numOsc) (o : Option (Fin cfg.numBuf)) :
    (d.rebind i o).ram = d.ram := rfl
@[simp] theorem Device.rebind_latch (d : Device cfg) (i : Fin cfg.numOsc) (o : Option (Fin cfg.numBuf)) :
    (d.rebind i o).latch = d.latch := rfl
@[simp] theorem Device.rebind_lastTime (d : Device cfg) (i : Fin cfg.numOsc) (o : Option (Fin cfg.numBuf)) :
    (d.rebind i o).lastTime = d.lastTime := rfl
@[simp] theorem Device.rebind_fsNext (d : Device cfg) (i : Fin cfg.numOsc) (o : Option (Fin cfg.numBuf)) :
    (d.rebind i o).fsNext = d.fsNext := rfl
@[simp] theorem Device.rebind_fsStep (d : Device cfg) (i : Fin cfg.numOsc) (o : Option (Fin cfg.numBuf)) :
    (d.rebind i o).fsStep = d.fsStep := rfl

/-! ### `advance` -/

@[simp] theorem advance_fault (i : Fin cfg.numOsc) (n : Nat) (d : Device cfg) :
    (advance i n d).fault = d.fault := rfl
@[simp] theorem advance_buf (i : Fin cfg.numOsc) (n : Nat) (d : Device cfg) :
    (advance i n d).buf = d.buf := rfl
@[simp] theorem advance_syn (i : Fin cfg.numOsc) (n : Nat) (d : Device cfg) :
    (advance i n d).syn = d.syn := rfl
@[simp] theorem advance_regs (i : Fin cfg.numOsc) (n : Nat) (d : Device cfg) :
    (advance i n d).regs = d.regs := rfl
@[simp] theorem advance_ram (i : Fin cfg.numOsc) (n : Nat) (d : Device cfg) :
    (advance i n d).ram = d.ram := rfl
@[simp] theorem advance_latch (i : Fin cfg.numOsc) (n : Nat) (d : Device cfg) :
    (advance i n d).latch = d.latch := rfl
@[simp] theorem advance_lastTime (i : Fin cfg.numOsc) (n : Nat) (d : Device cfg) :
    (advance i n d).lastTime = d.lastTime := rfl
@[simp] theorem advance_fsNext (i : Fin cfg.numOsc) (n : Nat) (d : Device cfg) :
    (advance i n d).fsNext = d.fsNext := rfl
@[simp] theorem advance_fsStep (i : Fin cfg.numOsc) (n : Nat) (d : Device cfg) :
    (advance i n d).fsStep = d.fsStep := rfl

/-! ### `afterReset` -/

@[simp] theorem Device.afterReset_fault (d : Device cfg) : d.afterReset.fault = d.fault := rfl
@[simp] theorem Device.afterReset_syn (d : Device cfg) : d.afterReset.syn = d.syn := rfl
@[simp] theorem Device.afterReset_regs (d : Device cfg) : d.afterReset.regs = [] := rfl
@[simp] theorem Device.afterReset_lastTime (d : Device cfg) : d.afterReset.lastTime = 0 := rfl
@[simp] theorem Device.afterReset_fsNext (d : Device cfg) : d.afterReset.fsNext = cfg.fsPeriod := rfl
@[simp] theorem Device.afterReset_fsStep (d : Device cfg) : d.afterReset.fsStep = 0 := rfl
@[simp] theorem Device.afterReset_latch (d : Device cfg) : d.afterReset.latch = ⟨0, cfg.ram_ok⟩ := rfl
@[simp] theorem Device.afterReset_ram (d : Device cfg) : d.afterReset.ram = Vector.replicate _ 0 := rfl

/-! ### Components read back -/

@[simp] theorem Device.bufAt_setBuf_self (d : Device cfg) (b : Fin cfg.numBuf) (v : Buffer) :
    (d.setBuf b v).bufAt b = v := by simp [Device.setBuf, Device.bufAt]

theorem Device.bufAt_setBuf_ne (d : Device cfg) {b c : Fin cfg.numBuf} (v : Buffer) (h : c ≠ b) :
    (d.setBuf b v).bufAt c = d.bufAt c := by
  have : b.1 ≠ c.1 := fun e => h (Fin.ext e.symm)
  simp [Device.setBuf, Device.bufAt, Vector.getElem_set_ne, this]

theorem Device.bufAt_setBuf (d : Device cfg) (b c : Fin cfg.numBuf) (v : Buffer) :
    (d.setBuf b v).bufAt c = if c = b then v else d.bufAt c := by
  split
  · subst_vars; simp
  · exact d.bufAt_setBuf_ne v ‹_›

@[simp] theorem Device.synAt_setSyn_self (d : Device cfg) (s : Fin cfg.numSynth) (v : Synth) :
    (d.setSyn s v).synAt s = v := by simp [Device.setSyn, Device.synAt]

theorem Device.synAt_setSyn_ne (d : Device cfg) {s r : Fin cfg.numSynth} (v : Synth) (h : r ≠ s) :
    (d.setSyn s v).synAt r = d.synAt r := by
  have : s.1 ≠ r.1 := fun e => h (Fin.ext e.symm)
  simp [Device.setSyn, Device.synAt, Vector.getElem_set_ne, this]

theorem Device.synAt_setSyn (d : Device cfg) (s r : Fin cfg.numSynth) (v : Synth) :
    (d.setSyn s v).synAt r = if r = s then v else d.synAt r := by
  split
  · subst_vars; simp
  · exact d.synAt_setSyn_ne v ‹_›

@[simp] theorem Device.oscAt_setOsc_self (d : Device cfg) (i : Fin cfg.numOsc) (v : Osc cfg) :
    (d.setOsc i v).oscAt i = v := by simp [Device.setOsc, Device.oscAt]

theorem Device.oscAt_setOsc_ne (d : Device cfg) {i j : Fin cfg.numOsc} (v : Osc cfg) (h : j ≠ i) :
    (d.setOsc i v).oscAt j = d.oscAt j := by
  have : i.1 ≠ j.1 := fun e => h (Fin.ext e.symm)
  simp [Device.setOsc, Device.oscAt, Vector.getElem_set_ne, this]

theorem Device.oscAt_setOsc (d : Device cfg) (i j : Fin cfg.numOsc) (v : Osc cfg) :
    (d.setOsc i v).oscAt j = if j = i then v else d.oscAt j := by
  split
  · subst_vars; simp
  · exact d.oscAt_setOsc_ne v ‹_›

@[simp] theorem Device.setBuf_bufAt (d : Device cfg) (b : Fin cfg.numBuf) : d.setBuf b (d.bufAt b) = d := by
  simp [Device.setBuf, Device.bufAt]

@[simp] theorem Device.setOsc_oscAt (d : Device cfg) (i : Fin cfg.numOsc) : d.setOsc i (d.oscAt i) = d := by
  simp [Device.setOsc, Device.oscAt]

@[simp] theorem Device.setSyn_synAt (d : Device cfg) (s : Fin cfg.numSynth) : d.setSyn s (d.synAt s) = d := by
  simp [Device.setSyn, Device.synAt]

@[simp] theorem Device.setOsc_setOsc (d : Device cfg) (i : Fin cfg.numOsc) (v w : Osc cfg) :
    (d.setOsc i v).setOsc i w = d.setOsc i w := by simp [Device.setOsc]

@[simp] theorem Device.setBuf_setBuf (d : Device cfg) (b : Fin cfg.numBuf) (v w : Buffer) :
    (d.setBuf b v).setBuf b w = d.setBuf b w := by simp [Device.setBuf]

theorem Device.setBuf_comm (d : Device cfg) {b c : Fin cfg.numBuf} (v w : Buffer) (h : b ≠ c) :
    (d.setBuf b v).setBuf c w = (d.setBuf c w).setBuf b v := by
  have : b.1 ≠ c.1 := fun e => h (Fin.ext e)
  simp only [Device.setBuf, Device.mk.injEq, and_true, true_and]
  exact Vector.set_comm _ _ this

theorem Device.setOsc_comm (d : Device cfg) {i j : Fin cfg.numOsc} (v w : Osc cfg) (h : i ≠ j) :
    (d.setOsc i v).setOsc j w = (d.setOsc j w).setOsc i v := by
  have : i.1 ≠ j.1 := fun e => h (Fin.ext e)
  simp only [Device.setOsc, Device.mk.injEq, and_true, true_and]
  exact Vector.set_comm _ _ this

/-- An oscillator and a buffer are set in either order. -/
theorem Device.setOsc_setBuf (d : Device cfg) (i : Fin cfg.numOsc) (b : Fin cfg.numBuf) (o : Osc cfg) (v : Buffer) :
    (d.setOsc i o).setBuf b v = (d.setBuf b v).setOsc i o := rfl

/-! ### Components an update does not touch -/

@[simp] theorem Device.synAt_setBuf (d : Device cfg) (b : Fin cfg.numBuf) (v : Buffer) (r : Fin cfg.numSynth) :
    (d.setBuf b v).synAt r = d.synAt r := rfl
@[simp] theorem Device.oscAt_setBuf (d : Device cfg) (b : Fin cfg.numBuf) (v : Buffer) (j : Fin cfg.numOsc) :
    (d.setBuf b v).oscAt j = d.oscAt j := rfl
@[simp] theorem Device.reg_setBuf (d : Device cfg) (b : Fin cfg.numBuf) (v : Buffer) (x : Nat) :
    (d.setBuf b v).reg x = d.reg x := rfl
@[simp] theorem Device.ramAt_setBuf (d : Device cfg) (b : Fin cfg.numBuf) (v : Buffer) (p : Nat) :
    (d.setBuf b v).ramAt p = d.ramAt p := rfl
@[simp] theorem Device.divider_setBuf (d : Device cfg) (b : Fin cfg.numBuf) (v : Buffer) (lo hi : Nat) :
    (d.setBuf b v).divider lo hi = d.divider lo hi := rfl
@[simp] theorem Device.period_setBuf (d : Device cfg) (b : Fin cfg.numBuf) (v : Buffer) (v' : Voice) :
    (d.setBuf b v).period v' = d.period v' := by cases v' <;> rfl
@[simp] theorem Device.inaudible_setBuf (d : Device cfg) (b : Fin cfg.numBuf) (v : Buffer) (v' : Voice) :
    (d.setBuf b v).inaudible v' = d.inaudible v' := by cases v' <;> rfl
@[simp] theorem Device.muted_setBuf (d : Device cfg) (b : Fin cfg.numBuf) (v : Buffer) (v' : Voice) :
    (d.setBuf b v).muted v' = d.muted v' := by
  cases v' with
  | pulse c s lo hi => cases s <;> rfl
  | wave => rfl
  | noise => rfl
@[simp] theorem Device.bufAt_setSyn (d : Device cfg) (s : Fin cfg.numSynth) (v : Synth) (c : Fin cfg.numBuf) :
    (d.setSyn s v).bufAt c = d.bufAt c := rfl
@[simp] theorem Device.oscAt_setSyn (d : Device cfg) (s : Fin cfg.numSynth) (v : Synth) (j : Fin cfg.numOsc) :
    (d.setSyn s v).oscAt j = d.oscAt j := rfl
@[simp] theorem Device.reg_setSyn (d : Device cfg) (s : Fin cfg.numSynth) (v : Synth) (x : Nat) :
    (d.setSyn s v).reg x = d.reg x := rfl
@[simp] theorem Device.ramAt_setSyn (d : Device cfg) (s : Fin cfg.numSynth) (v : Synth) (p : Nat) :
    (d.setSyn s v).ramAt p = d.ramAt p := rfl
@[simp] theorem Device.divider_setSyn (d : Device cfg) (s : Fin cfg.numSynth) (v : Synth) (lo hi : Nat) :
    (d.setSyn s v).divider lo hi = d.divider lo hi := rfl
@[simp] theorem Device.period_setSyn (d : Device cfg) (s : Fin cfg.numSynth) (v : Synth) (v' : Voice) :
    (d.setSyn s v).period v' = d.period v' := by cases v' <;> rfl
@[simp] theorem Device.inaudible_setSyn (d : Device cfg) (s : Fin cfg.numSynth) (v : Synth) (v' : Voice) :
    (d.setSyn s v).inaudible v' = d.inaudible v' := by cases v' <;> rfl
@[simp] theorem Device.muted_setSyn (d : Device cfg) (s : Fin cfg.numSynth) (v : Synth) (v' : Voice) :
    (d.setSyn s v).muted v' = d.muted v' := by
  cases v' with
  | pulse c s lo hi => cases s <;> rfl
  | wave => rfl
  | noise => rfl
@[simp] theorem Device.bufAt_setOsc (d : Device cfg) (i : Fin cfg.numOsc) (v : Osc cfg) (c : Fin cfg.numBuf) :
    (d.setOsc i v).bufAt c = d.bufAt c := rfl
@[simp] theorem Device.synAt_setOsc (d : Device cfg) (i : Fin cfg.numOsc) (v : Osc cfg) (r : Fin cfg.numSynth) :
    (d.setOsc i v).synAt r = d.synAt r := rfl
@[simp] theorem Device.reg_setOsc (d : Device cfg) (i : Fin cfg.numOsc) (v : Osc cfg) (x : Nat) :
    (d.setOsc i v).reg x = d.reg x := rfl
@[simp] theorem Device.ramAt_setOsc (d : Device cfg) (i : Fin cfg.numOsc) (v : Osc cfg) (p : Nat) :
    (d.setOsc i v).ramAt p = d.ramAt p := rfl
@[simp] theorem Device.divider_setOsc (d : Device cfg) (i : Fin cfg.numOsc) (v : Osc cfg) (lo hi : Nat) :
    (d.setOsc i v).divider lo hi = d.divider lo hi := rfl
@[simp] theorem Device.period_setOsc (d : Device cfg) (i : Fin cfg.numOsc) (v : Osc cfg) (v' : Voice) :
    (d.setOsc i v).period v' = d.period v' := by cases v' <;> rfl
@[simp] theorem Device.inaudible_setOsc (d : Device cfg) (i : Fin cfg.numOsc) (v : Osc cfg) (v' : Voice) :
    (d.setOsc i v).inaudible v' = d.inaudible v' := by cases v' <;> rfl
@[simp] theorem Device.muted_setOsc (d : Device cfg) (i : Fin cfg.numOsc) (v : Osc cfg) (v' : Voice) :
    (d.setOsc i v).muted v' = d.muted v' := by
  cases v' with
  | pulse c s lo hi => cases s <;> rfl
  | wave => rfl
  | noise => rfl
@[simp] theorem Device.bufAt_setReg (d : Device cfg) (a : Nat) (v : Byte) (c : Fin cfg.numBuf) :
    (d.setReg a v).bufAt c = d.bufAt c := rfl
@[simp] theorem Device.synAt_setReg (d : Device cfg) (a : Nat) (v : Byte) (r : Fin cfg.numSynth) :
    (d.setReg a v).synAt r = d.synAt r := rfl
@[simp] theorem Device.oscAt_setReg (d : Device cfg) (a : Nat) (v : Byte) (j : Fin cfg.numOsc) :
    (d.setReg a v).oscAt j = d.oscAt j := rfl
@[simp] theorem Device.ramAt_setReg (d : Device cfg) (a : Nat) (v : Byte) (p : Nat) :
    (d.setReg a v).ramAt p = d.ramAt p := rfl
@[simp] theorem Device.bufAt_setLastAmp (d : Device cfg) (i : Fin cfg.numOsc) (a : Int) (c : Fin cfg.numBuf) :
    (d.setLastAmp i a).bufAt c = d.bufAt c := rfl
@[simp] theorem Device.synAt_setLastAmp (d : Device cfg) (i : Fin cfg.numOsc) (a : Int) (r : Fin cfg.numSynth) :
    (d.setLastAmp i a).synAt r = d.synAt r := rfl
@[simp] theorem Device.reg_setLastAmp (d : Device cfg) (i : Fin cfg.numOsc) (a : Int) (x : Nat) :
    (d.setLastAmp i a).reg x = d.reg x := rfl
@[simp] theorem Device.ramAt_setLastAmp (d : Device cfg) (i : Fin cfg.numOsc) (a : Int) (p : Nat) :
    (d.setLastAmp i a).ramAt p = d.ramAt p := rfl
@[simp] theorem Device.divider_setLastAmp (d : Device cfg) (i : Fin cfg.numOsc) (a : Int) (lo hi : Nat) :
    (d.setLastAmp i a).divider lo hi = d.divider lo hi := rfl
@[simp] theorem Device.period_setLastAmp (d : Device cfg) (i : Fin cfg.numOsc) (a : Int) (v' : Voice) :
    (d.setLastAmp i a).period v' = d.period v' := by cases v' <;> rfl
@[simp] theorem Device.inaudible_setLastAmp (d : Device cfg) (i : Fin cfg.numOsc) (a : Int) (v' : Voice) :
    (d.setLastAmp i a).inaudible v' = d.inaudible v' := by cases v' <;> rfl
@[simp] theorem Device.muted_setLastAmp (d : Device cfg) (i : Fin cfg.numOsc) (a : Int) (v' : Voice) :
    (d.setLastAmp i a).muted v' = d.muted v' := by
  cases v' with
  | pulse c s lo hi => cases s <;> rfl
  | wave => rfl
  | noise => rfl
@[simp] theorem Device.bufAt_setDelay (d : Device cfg) (i : Fin cfg.numOsc) (n : Nat) (c : Fin cfg.numBuf) :
    (d.setDelay i n).bufAt c = d.bufAt c := rfl
@[simp] theorem Device.synAt_setDelay (d : Device cfg) (i : Fin cfg.numOsc) (n : Nat) (r : Fin cfg.numSynth) :
    (d.setDelay i n).synAt r = d.synAt r := rfl
@[simp] theorem Device.reg_setDelay (d : Device cfg) (i : Fin cfg.numOsc) (n : Nat) (x : Nat) :
    (d.setDelay i n).reg x = d.reg x := rfl
@[simp] theorem Device.ramAt_setDelay (d : Device cfg) (i : Fin cfg.numOsc) (n : Nat) (p : Nat) :
    (d.setDelay i n).ramAt p = d.ramAt p := rfl
@[simp] theorem Device.divider_setDelay (d : Device cfg) (i : Fin cfg.numOsc) (n : Nat) (lo hi : Nat) :
    (d.setDelay i n).divider lo hi = d.divider lo hi := rfl
@[simp] theorem Device.period_setDelay (d : Device cfg) (i : Fin cfg.numOsc) (n : Nat) (v' : Voice) :
    (d.setDelay i n).period v' = d.period v' := by cases v' <;> rfl
@[simp] theorem Device.inaudible_setDelay (d : Device cfg) (i : Fin cfg.numOsc) (n : Nat) (v' : Voice) :
    (d.setDelay i n).inaudible v' = d.inaudible v' := by cases v' <;> rfl
@[simp] theorem Device.muted_setDelay (d : Device cfg) (i : Fin cfg.numOsc) (n : Nat) (v' : Voice) :
    (d.setDelay i n).muted v' = d.muted v' := by
  cases v' with
  | pulse c s lo hi => cases s <;> rfl
  | wave => rfl
  | noise => rfl
@[simp] theorem Device.bufAt_advance (d : Device cfg) (i : Fin cfg.numOsc) (n : Nat) (c : Fin cfg.numBuf) :
    (advance i n d).bufAt c = d.bufAt c := rfl
@[simp] theorem Device.synAt_advance (d : Device cfg) (i : Fin cfg.numOsc) (n : Nat) (r : Fin cfg.numSynth) :
    (advance i n d).synAt r = d.synAt r := rfl
@[simp] theorem Device.reg_advance (d : Device cfg) (i : Fin cfg.numOsc) (n : Nat) (x : Nat) :
    (advance i n d).reg x = d.reg x := rfl
@[simp] theorem Device.ramAt_advance (d : Device cfg) (i : Fin cfg.numOsc) (n : Nat) (p : Nat) :
    (advance i n d).ramAt p = d.ramAt p := rfl
@[simp] theorem Device.divider_advance (d : Device cfg) (i : Fin cfg.numOsc) (n : Nat) (lo hi : Nat) :
    (advance i n d).divider lo hi = d.divider lo hi := rfl
@[simp] theorem Device.period_advance (d : Device cfg) (i : Fin cfg.numOsc) (n : Nat) (v' : Voice) :
    (advance i n d).period v' = d.period v' := by cases v' <;> rfl
@[simp] theorem Device.inaudible_advance (d : Device cfg) (i : Fin cfg.numOsc) (n : Nat) (v' : Voice) :
    (advance i n d).inaudible v' = d.inaudible v' := by cases v' <;> rfl
@[simp] theorem Device.muted_advance (d : Device cfg) (i : Fin cfg.numOsc) (n : Nat) (v' : Voice) :
    (advance i n d).muted v' = d.muted v' := by
  cases v' with
  | pulse c s lo hi => cases s <;> rfl
  | wave => rfl
  | noise => rfl

/-! ### The machine -/

@[simp] theorem State.respond_dev (s : State cfg) (st : Status) (xs : List Half) : (s.respond st xs).dev = s.dev := rfl
@[simp] theorem State.respond_inbox (s : State cfg) (st : Status) (xs : List Half) : (s.respond st xs).inbox = s.inbox := rfl
@[simp] theorem State.respond_outbox (s : State cfg) (st : Status) (xs : List Half) :
    (s.respond st xs).outbox = s.outbox ++ [⟨st, xs⟩] := rfl
@[simp] theorem State.respond_refusals (s : State cfg) (st : Status) (xs : List Half) :
    (s.respond st xs).refusals = s.refusals := rfl
@[simp] theorem State.refuse_dev (s : State cfg) (r : RefusalCode) : (s.refuse r).dev = s.dev := rfl
@[simp] theorem State.refuse_inbox (s : State cfg) (r : RefusalCode) : (s.refuse r).inbox = s.inbox := rfl
@[simp] theorem State.refuse_outbox (s : State cfg) (r : RefusalCode) :
    (s.refuse r).outbox = s.outbox ++ [⟨.refusal r, []⟩] := rfl
@[simp] theorem State.refuse_refusals (s : State cfg) (r : RefusalCode) : (s.refuse r).refusals = s.refusals + 1 := rfl
@[simp] theorem State.send_dev (s : State cfg) (bs : List Byte) : (s.send bs).dev = s.dev := rfl
@[simp] theorem State.send_inbox (s : State cfg) (bs : List Byte) : (s.send bs).inbox = bs ++ s.inbox := rfl
@[simp] theorem State.send_outbox (s : State cfg) (bs : List Byte) : (s.send bs).outbox = s.outbox := rfl
@[simp] theorem State.send_refusals (s : State cfg) (bs : List Byte) : (s.send bs).refusals = s.refusals := rfl

end Sys2Proof.Machine
end

