-- ==== Sys2Proof/Laws/Ops.lean ====
section
/-! SUPPORT. What each shared operation of Machine/Operands.lean and Machine/Ops.lean can do, said once: operand checks,
register reads and writes, sequencing, and the four ways a command ends. -/

namespace Sys2Proof.Machine

variable {cfg : ChipConfig}

/-! ### Operands -/

theorem indexOperand_of_lt {n x : Nat} (h : x < n) : indexOperand n x = some ⟨x, h⟩ := by
  simp [indexOperand, h]

theorem indexOperand_eq_none {n x : Nat} : indexOperand n x = none ↔ n ≤ x := by
  simp [indexOperand]

theorem indexOperand_eq_some {n x : Nat} {i : Fin n} : indexOperand n x = some i ↔ x = i.1 := by
  simp only [indexOperand, Option.dite_none_right_eq_some, Option.some.injEq]
  constructor
  · rintro ⟨h, rfl⟩; rfl
  · rintro rfl; exact ⟨i.2, rfl⟩

/-- The buffer operand of `SET_OUTPUT` names `new`. -/
theorem outputOperand_eq_some {n : Nat} {u : Word} {new : Option (Fin n)} (hn : n ≤ 2 ^ 32 - 1) :
    outputOperand n u = some new ↔
      new = none ∧ u = 0xFFFFFFFF#32 ∨ ∃ b, new = some b ∧ u.toNat = b.1 := by
  unfold outputOperand
  split
  · subst_vars
    constructor
    · intro h; exact .inl ⟨(Option.some.inj h).symm, rfl⟩
    · rintro (⟨rfl, -⟩ | ⟨b, rfl, h⟩)
      · rfl
      · have := b.2; have h' : (4294967295 : Nat) = b.1 := h; omega
  · next hu =>
    rw [Option.map_eq_some_iff]
    constructor
    · rintro ⟨b, hb, rfl⟩; exact .inr ⟨b, rfl, indexOperand_eq_some.1 hb⟩
    · rintro (⟨-, h⟩ | ⟨b, rfl, h⟩)
      · exact absurd h hu
      · exact ⟨b, indexOperand_eq_some.2 h, rfl⟩

theorem outputOperand_eq_none {n : Nat} {u : Word} :
    outputOperand n u = none ↔ u ≠ 0xFFFFFFFF#32 ∧ n ≤ u.toNat := by
  unfold outputOperand
  split <;> simp_all [indexOperand_eq_none]

/-! ### Registers -/

theorem Device.reg_setReg {d : Device cfg} (hd : d.regs.wf) (a b : Nat) (v : Byte) :
    (d.setReg a v).reg b = if b = a then v else d.reg b := Memory.read_write hd a b v

theorem Device.reg_setReg_ne (d : Device cfg) {a b : Nat} (v : Byte) (h : b ≠ a) :
    (d.setReg a v).reg b = d.reg b := Memory.read_write_ne _ v h

/-! ### Sequencing -/

@[simp] theorem Progress.andThen_ok (d : Device cfg) (k : Device cfg → Progress cfg) :
    (Progress.ok d).andThen k = k d := rfl

@[simp] theorem Progress.andThen_trap (d : Device cfg) (c : FaultCode) (k : Device cfg → Progress cfg) :
    (Progress.trap d c).andThen k = .trap d c := rfl

theorem Progress.andThen_assoc (p : Progress cfg) (j k : Device cfg → Progress cfg) :
    (p.andThen j).andThen k = p.andThen fun d => (j d).andThen k := by cases p <;> rfl

theorem Progress.andThen_eq_ok {p : Progress cfg} {k : Device cfg → Progress cfg} {d' : Device cfg} :
    p.andThen k = .ok d' ↔ ∃ d, p = .ok d ∧ k d = .ok d' := by cases p <;> simp

theorem Progress.andThen_eq_trap {p : Progress cfg} {k : Device cfg → Progress cfg} {d' : Device cfg}
    {c : FaultCode} :
    p.andThen k = .trap d' c ↔ p = .trap d' c ∨ ∃ d, p = .ok d ∧ k d = .trap d' c := by cases p <;> simp

/-- Both outcomes of a micro-operation keep `P`. -/
def Progress.Keeps (P : Device cfg → Prop) : Progress cfg → Prop
  | .ok d => P d
  | .trap d _ => P d

@[simp] theorem Progress.keeps_ok (P : Device cfg → Prop) (d : Device cfg) : (Progress.ok d).Keeps P ↔ P d := Iff.rfl

@[simp] theorem Progress.keeps_trap (P : Device cfg → Prop) (d : Device cfg) (c : FaultCode) :
    (Progress.trap d c).Keeps P ↔ P d := Iff.rfl

theorem Progress.Keeps.andThen {P Q : Device cfg → Prop} {p : Progress cfg} {k : Device cfg → Progress cfg}
    (hp : p.Keeps P) (hok : ∀ d, P d → (k d).Keeps Q) (htrap : ∀ d, P d → Q d) : (p.andThen k).Keeps Q := by
  cases p with
  | ok d => exact hok d hp
  | trap d c => exact htrap d hp

theorem Progress.Keeps.mono {P Q : Device cfg → Prop} {p : Progress cfg} (hp : p.Keeps P)
    (h : ∀ d, P d → Q d) : p.Keeps Q := by
  cases p <;> exact h _ hp

/-! ### Ending a command -/

/-- The device an answer leaves in place of `d`, before a fault is recorded. -/
def Answer.devOr (d : Device cfg) : Answer cfg → Device cfg
  | .done e _ => e
  | .error _ => d
  | .fault e _ => e
  | .refusal _ => d

/-- The status an answer returns. -/
def Answer.status : Answer cfg → Status
  | .done _ _ => .ok
  | .error e => .error e
  | .fault _ c => .fault c
  | .refusal r => .refusal r

@[simp] theorem Progress.answer_ok (d : Device cfg) : (Progress.ok d).answer = .done d [] := rfl
@[simp] theorem Progress.answer_trap (d : Device cfg) (c : FaultCode) :
    (Progress.trap d c).answer = .fault d c := rfl

theorem issue_faulted {s : State cfg} {f : FaultCode} (h : s.dev.fault = some f)
    (body : Device cfg → Answer cfg) : issue s body = .next (s.respond .faulted []) := by
  simp [issue, h]

theorem issue_ready {s : State cfg} (h : s.dev.fault = none) (body : Device cfg → Answer cfg) :
    issue s body = .next (s.conclude (body s.dev)) := by simp [issue, h]

/-- Everything a command can end in. -/
theorem issue_cases {s t : State cfg} {body : Device cfg → Answer cfg} (h : issue s body = .next t) :
    (∃ f, s.dev.fault = some f ∧ t = s.respond .faulted []) ∨
    s.dev.fault = none ∧
      ((∃ d xs, body s.dev = .done d xs ∧ t = { s with dev := d }.respond .ok xs) ∨
       (∃ e, body s.dev = .error e ∧ t = s.respond (.error e) []) ∨
       (∃ d c, body s.dev = .fault d c ∧ t = { s with dev := d.takeFault c }.respond (.fault c) []) ∨
       ∃ r, body s.dev = .refusal r ∧ t = s.refuse r) := by
  cases hf : s.dev.fault with
  | some f =>
    rw [issue_faulted hf, Host.Outcome.next.injEq] at h
    exact .inl ⟨f, rfl, h.symm⟩
  | none =>
    rw [issue_ready hf, Host.Outcome.next.injEq] at h
    refine .inr ⟨rfl, ?_⟩
    cases hb : body s.dev with
    | done d xs => exact .inl ⟨d, xs, rfl, by rw [← h, hb]; rfl⟩
    | error e => exact .inr (.inl ⟨e, rfl, by rw [← h, hb]; rfl⟩)
    | fault d c => exact .inr (.inr (.inl ⟨d, c, rfl, by rw [← h, hb]; rfl⟩))
    | refusal r => exact .inr (.inr (.inr ⟨r, rfl, by rw [← h, hb]; rfl⟩))

/-- A command always answers a next state. -/
theorem issue_next (s : State cfg) (body : Device cfg → Answer cfg) : ∃ t, issue s body = .next t := by
  unfold issue
  split <;> exact ⟨_, rfl⟩

/-- The response of a command: one, with the payload of its outcome. -/
theorem conclude_outbox (s : State cfg) (a : Answer cfg) :
    ∃ xs, (s.conclude a).outbox = s.outbox ++ [⟨a.status, xs⟩] ∧ (xs ≠ [] → ∃ d, a = .done d xs) := by
  cases a with
  | done d xs => exact ⟨xs, rfl, fun _ => ⟨d, rfl⟩⟩
  | error e => exact ⟨[], rfl, by simp⟩
  | fault d c => exact ⟨[], rfl, by simp⟩
  | refusal r => exact ⟨[], rfl, by simp⟩

@[simp] theorem conclude_inbox (s : State cfg) (a : Answer cfg) : (s.conclude a).inbox = s.inbox := by
  cases a <;> rfl

end Sys2Proof.Machine
end

