-- ==== Sys2Proof/Laws/Exec.lean ====
section
/-! SUPPORT. `exec` and `step` said once: every command is `issue` of its body, and a step is `exec` of the decoded
command. -/

namespace Sys2Proof.Machine

theorem exec_eq_issue (i : Instr) (s : State) : exec i s = issue s (bodyOf i) := by cases i <;> rfl

/-- The commands of REF-1 are those of the generic core at REF-1 (R4). -/
theorem exec_eq_execFor : exec = execFor := by
  funext i s
  exact exec_eq_issue i s

theorem step_eq_stepFor : step = stepFor := by
  funext s
  simp only [step, stepFor, exec_eq_execFor]

/-- The machine the host reads is the generic core at REF-1 (R4). -/
theorem core_eq_coreFor : core = coreFor Config.chip := by
  unfold coreFor
  rw [← step_eq_stepFor]
  rfl

theorem exec_ready {s : State} (h : s.dev.fault = none) (i : Instr) :
    exec i s = .next (s.conclude (bodyOf i s.dev)) := by rw [exec_eq_issue, issue_ready h]

theorem exec_faulted {s : State} {f : FaultCode} (h : s.dev.fault = some f) (i : Instr) :
    exec i s = .next (s.respond .faulted []) := by rw [exec_eq_issue, issue_faulted h]

theorem exec_done {s : State} {i : Instr} {d : Device Config.chip} {xs : List Half} (h : s.dev.fault = none)
    (hb : bodyOf i s.dev = .done d xs) : exec i s = .next ({ s with dev := d }.respond .ok xs) := by
  rw [exec_ready h, hb]; rfl

theorem exec_error {s : State} {i : Instr} {e : ErrorCode} (h : s.dev.fault = none)
    (hb : bodyOf i s.dev = .error e) : exec i s = .next (s.respond (.error e) []) := by
  rw [exec_ready h, hb]; rfl

theorem exec_fault {s : State} {i : Instr} {d : Device Config.chip} {c : FaultCode} (h : s.dev.fault = none)
    (hb : bodyOf i s.dev = .fault d c) :
    exec i s = .next ({ s with dev := d.takeFault c }.respond (.fault c) []) := by
  rw [exec_ready h, hb]; rfl

theorem exec_refusal {s : State} {i : Instr} {r : RefusalCode} (h : s.dev.fault = none)
    (hb : bodyOf i s.dev = .refusal r) : exec i s = .next (s.refuse r) := by
  rw [exec_ready h, hb]; rfl

/-- A command reads the device alone: the responses returned before it only stand before its own. -/
theorem exec_dev {s s' t : State} (i : Instr) (h : exec i s = .next t) (hd : s'.dev = s.dev) :
    ∃ t', exec i s' = .next t' ∧ t'.dev = t.dev ∧ t'.inbox = s'.inbox ∧
      ∃ r, t.outbox = s.outbox ++ [r] ∧ t'.outbox = s'.outbox ++ [r] := by
  rw [exec_eq_issue] at h ⊢
  cases hf : s.dev.fault with
  | some f =>
    rw [issue_faulted hf, Host.Outcome.next.injEq] at h
    exact ⟨_, issue_faulted (hd ▸ hf) _, by simp [← h, hd], rfl, _, by rw [← h]; rfl, rfl⟩
  | none =>
    rw [issue_ready hf, Host.Outcome.next.injEq] at h
    refine ⟨_, issue_ready (hd ▸ hf) _, ?_, by simp, ?_⟩
    · rw [← h, hd]
      cases bodyOf i s.dev <;> first | rfl | exact hd
    · rw [← h, hd]
      cases bodyOf i s.dev <;> exact ⟨_, rfl, rfl⟩

/-- The four bytes of a word, put back. -/
theorem wordOfBytes_of_wordBytes (w : Word) {a b c d : Byte} (h : wordBytes w = [a, b, c, d]) :
    wordOfBytes a b c d = w := by
  simp only [wordBytes, List.cons.injEq, and_true] at h
  obtain ⟨rfl, rfl, rfl, rfl⟩ := h
  exact wordOfBytes_bytes w

/-- The bytes of a command at the head of the transport are fetched as that command. -/
theorem fetchCommand_append (c : Cmd) (rest : List Byte) : fetchCommand (c.bytes ++ rest) = .command c rest := by
  obtain ⟨w0, w1, w2⟩ := c
  show Fetched.command ⟨_, _, _⟩ rest = _
  rw [wordOfBytes_bytes, wordOfBytes_bytes, wordOfBytes_bytes]

/-- A step on a whole command answers it. -/
theorem step_command {s : State} {c : Cmd} {rest : List Byte} (h : s.inbox = c.bytes ++ rest) :
    step s = answerCommand exec c { s with inbox := rest } := by
  simp only [step, stepOn, h, fetchCommand_append]

/-- Everything a step of a chip of any configuration can do. -/
theorem stepOn_cases {cfg : ChipConfig} {run : Instr → State cfg → Host.Outcome (State cfg) Fault Refusal}
    {s t : State cfg} (h : stepOn run s = .next t) :
    t = s ∨ ∃ c rest, fetchCommand s.inbox = .command c rest ∧
      answerCommand run c { s with inbox := rest } = .next t := by
  simp only [stepOn] at h
  cases hf : fetchCommand s.inbox with
  | idle => rw [hf] at h; simp only [Host.Outcome.next.injEq] at h; exact .inl h.symm
  | incomplete => rw [hf] at h; exact absurd h (by simp)
  | command c rest => rw [hf] at h; exact .inr ⟨c, rest, rfl, h⟩

/-- Everything a step can do. -/
theorem step_cases {s t : State} (h : step s = .next t) :
    t = s ∨ ∃ c rest, fetchCommand s.inbox = .command c rest ∧
      answerCommand exec c { s with inbox := rest } = .next t := stepOn_cases h

/-- The three ways a whole command is answered: by a faulted device, by running it, or by refusing it. -/
theorem answerCommand_cases {cfg : ChipConfig} {run : Instr → State cfg → Host.Outcome (State cfg) Fault Refusal}
    {c : Cmd} {s t : State cfg} (h : answerCommand run c s = .next t) :
    (∃ f, s.dev.fault = some f ∧ t = s.respond .faulted []) ∨
    s.dev.fault = none ∧ ((∃ i, decode c = .ok i ∧ run i s = .next t) ∨
      ∃ e, decode c = .error e ∧ t = s.refuse .illegalCommand) := by
  simp only [answerCommand] at h
  cases hd : s.dev.fault with
  | some f => simp only [hd, Host.Outcome.next.injEq] at h; exact .inl ⟨f, rfl, h.symm⟩
  | none =>
    simp only [hd] at h
    cases hc : decode c with
    | ok i => simp only [hc] at h; exact .inr ⟨rfl, .inl ⟨i, rfl, h⟩⟩
    | error e => simp only [hc, Host.Outcome.next.injEq] at h; exact .inr ⟨rfl, .inr ⟨e, rfl, h.symm⟩⟩

end Sys2Proof.Machine
end

