-- ==== Sys2Proof/Laws/Commands.lean ====
section
/-! SUPPORT. What the body of each indexed command answers once its index operand is checked: no proof about a command
unfolds the check again. -/

namespace Sys2Proof.Machine

variable {cfg : ChipConfig}

theorem indexOperand_fin {n : Nat} {x : Nat} {i : Fin n} (h : x = i.1) : indexOperand n x = some i :=
  indexOperand_eq_some.2 h

/-! ### SynthesisBuffer -/

theorem setSampleRate_out {x : Byte} (h : cfg.numBuf ≤ x.toNat) (u v : Word) (d : Device cfg) :
    setSampleRate x u v d = .error .indexOutOfRange := by
  simp only [setSampleRate, indexOperand_eq_none.2 h]

theorem setSampleRate_at {x : Byte} {b : Fin cfg.numBuf} (h : x.toNat = b.1) (u v : Word) (d : Device cfg) :
    setSampleRate x u v d =
      if u.toInt ≤ 0 ∨ v.toInt ≤ 0 then .error .invalidRate
      else if requant u.toInt v.toInt ≤ 0 then .error .invalidRate
      else if factorOf u.toInt (requant u.toInt v.toInt) = 0 then .error .invalidRate
      else .done (d.setBuf b ((d.bufAt b).configured u.toInt (requant u.toInt v.toInt)
        (factorOf u.toInt (requant u.toInt v.toInt)))) [] := by
  simp only [setSampleRate, indexOperand_fin h]

theorem setBassFreq_out {x : Byte} (h : cfg.numBuf ≤ x.toNat) (u : Word) (d : Device cfg) :
    setBassFreq x u d = .error .indexOutOfRange := by
  simp only [setBassFreq, indexOperand_eq_none.2 h]

theorem setBassFreq_at {x : Byte} {b : Fin cfg.numBuf} (h : x.toNat = b.1) (u : Word) (d : Device cfg) :
    setBassFreq x u d = .done (d.setBuf b { d.bufAt b with
      bassFreq := u, bassShift := bassCalc u.toInt (d.bufAt b).sampleRate.toInt }) [] := by
  simp only [setBassFreq, indexOperand_fin h]

theorem readSample_out {x : Byte} (h : cfg.numBuf ≤ x.toNat) (d : Device cfg) :
    readSample x d = .error .indexOutOfRange := by
  simp only [readSample, indexOperand_eq_none.2 h]

theorem readSample_at {x : Byte} {b : Fin cfg.numBuf} (h : x.toNat = b.1) (d : Device cfg) :
    readSample x d = .done (d.setBuf b (d.bufAt b).afterRead) [(d.bufAt b).nextSample] := by
  simp only [readSample, indexOperand_fin h]

theorem readSamples_out {x : Byte} (h : cfg.numBuf ≤ x.toNat) (u : Word) (d : Device cfg) :
    readSamples x u d = .error .indexOutOfRange := by
  simp only [readSamples, indexOperand_eq_none.2 h]

theorem readSamples_at {x : Byte} {b : Fin cfg.numBuf} (h : x.toNat = b.1) (u : Word) (d : Device cfg) :
    readSamples x u d =
      .done (d.setBuf b ((d.bufAt b).afterReads u.toNat)) ((d.bufAt b).nextSamples u.toNat) := by
  simp only [readSamples, indexOperand_fin h]

theorem flush_out {x : Byte} (h : cfg.numBuf ≤ x.toNat) (d : Device cfg) :
    flush x d = .error .indexOutOfRange := by
  simp only [flush, indexOperand_eq_none.2 h]

theorem flush_at {x : Byte} {b : Fin cfg.numBuf} (h : x.toNat = b.1) (d : Device cfg) :
    flush x d = .done (d.setBuf b (d.bufAt b).flushed) [] := by
  simp only [flush, indexOperand_fin h]

/-! ### StepSynthesizer -/

theorem setVolume_out {x : Byte} (h : cfg.numSynth ≤ x.toNat) (u : F32) (d : Device cfg) :
    setVolume x u d = .error .indexOutOfRange := by
  simp only [setVolume, indexOperand_eq_none.2 h]

theorem setVolume_bad {x : Byte} {y : Fin cfg.numSynth} (h : x.toNat = y.1) {u : F32}
    (hu : f32Finite u = false ∨ f32Level u = none) (d : Device cfg) :
    setVolume x u d = .refusal .invalidArgument := by
  rcases hu with hu | hu
  · simp [setVolume, indexOperand_fin h, hu]
  · simp [setVolume, indexOperand_fin h, hu]

theorem setVolume_at {x : Byte} {y : Fin cfg.numSynth} (h : x.toNat = y.1) {u : F32} {l : Nat}
    (hu : f32Finite u = true) (hl : f32Level u = some l) (d : Device cfg) :
    setVolume x u d =
      if 0 < l ∧ deltaFactorOf l (d.synAt y).kernel.unit = 0 then .error .volumeTooLow
      else .done (d.setSyn y { d.synAt y with
        level := l, deltaFactor := deltaFactorOf l (d.synAt y).kernel.unit }) [] := by
  simp [setVolume, indexOperand_fin h, hu, hl]

theorem setTreble_out {x : Byte} (h : cfg.numSynth ≤ x.toNat) (cutoff : Half) (u : F32) (v : Word)
    (d : Device cfg) : setTreble x cutoff u v d = .error .indexOutOfRange := by
  simp only [setTreble, indexOperand_eq_none.2 h]

theorem setTreble_bad {x : Byte} {y : Fin cfg.numSynth} (h : x.toNat = y.1) {u : F32} (hu : f32Finite u = false)
    (cutoff : Half) (v : Word) (d : Device cfg) : setTreble x cutoff u v d = .refusal .invalidArgument := by
  simp [setTreble, indexOperand_fin h, hu]

theorem setTreble_at {x : Byte} {y : Fin cfg.numSynth} (h : x.toNat = y.1) {u : F32} (hu : f32Finite u = true)
    (cutoff : Half) (v : Word) (d : Device cfg) :
    setTreble x cutoff u v d =
      if 0 < (d.synAt y).level ∧ ((d.synAt y).withEq ⟨u, v, cutoff⟩).deltaFactor = 0 then .error .volumeTooLow
      else .done (d.setSyn y ((d.synAt y).withEq ⟨u, v, cutoff⟩)) [] := by
  simp [setTreble, indexOperand_fin h, hu]

/-! ### `SET_OUTPUT` -/

theorem setOutput_out {x : Byte} (h : cfg.numOsc ≤ x.toNat) (u : Word) (d : Device cfg) :
    setOutput x u d = .error .indexOutOfRange := by
  simp only [setOutput, indexOperand_eq_none.2 h]

theorem setOutput_bad {x : Byte} {i : Fin cfg.numOsc} (h : x.toNat = i.1) {u : Word}
    (hu : outputOperand cfg.numBuf u = none) (d : Device cfg) : setOutput x u d = .error .indexOutOfRange := by
  simp only [setOutput, indexOperand_fin h, hu]

theorem setOutput_at {x : Byte} {i : Fin cfg.numOsc} (h : x.toNat = i.1) {u : Word}
    {new : Option (Fin cfg.numBuf)} (hu : outputOperand cfg.numBuf u = some new) (d : Device cfg) :
    setOutput x u d =
      if new = (d.oscAt i).output then .done d []
      else ((retire i d).andThen fun d' => .ok (d'.rebind i new)).answer := by
  simp only [setOutput, indexOperand_fin h, hu]

/-! ### Chip -/

theorem write_out {y : Half} (h : cfg.regSize ≤ y.toNat) (v : Byte) (d : Device cfg) :
    write y v d = .error .addressOutOfRange := by
  simp only [write, if_neg (Nat.not_lt.2 h)]

/-- The catch-up of a write does nothing (R401). -/
theorem runTo_lastTime (d : Device cfg) : runTo d.lastTime d = .ok d := by
  simp [runTo]

theorem write_at {y : Half} (h : y.toNat < cfg.regSize) (v : Byte) (d : Device cfg) :
    write y v d = .done (sideEffect y.toNat v (d.setReg y.toNat v)) [] := by
  simp only [write, if_pos h, runTo_lastTime, Progress.andThen_ok, Progress.answer_ok]

theorem runTo_back {u : Word} {d : Device cfg} (h : u < d.lastTime) : runTo u d = .trap d .timeRegression := by
  simp only [runTo, if_pos h]

theorem runTo_forward {u : Word} {d : Device cfg} (h : d.lastTime < u) :
    runTo u d = runPasses u.toNat (ticksBefore cfg d.fsNext u.toNat) d := by
  have h1 : ¬ u < d.lastTime := by rw [BitVec.lt_def] at *; omega
  have h2 : u ≠ d.lastTime := by rintro rfl; rw [BitVec.lt_def] at h; omega
  simp only [runTo, if_neg h1, if_neg h2]

end Sys2Proof.Machine
end

