-- ==== Sys2Proof/Laws/Synth.lean ====
section
/-! SUPPORT. Kernels and splats: the kernel law, what a splat does to each slot, and everything `OFFSET` can do. -/

namespace Sys2Proof.Machine

variable {cfg : ChipConfig}

/-! ### Kernels -/

theorem unitKernel_lawful {w : Nat} (hw : 1 ≤ w) : (unitKernel w).lawful w := by
  refine ⟨by simp [unitKernel], by simp [unitKernel], fun row hrow => ?_⟩
  simp only [unitKernel, List.mem_replicate] at hrow
  obtain ⟨-, rfl⟩ := hrow
  refine ⟨by simp; omega, by simp [unitKernel], fun t ht => ?_⟩
  simp only [List.mem_cons, List.mem_replicate] at ht
  rcases ht with rfl | ⟨-, rfl⟩ <;> decide

/-- Every kernel of the device obeys the law (R251, R252). -/
theorem kernelOf_law {w : Nat} (hw : 1 ≤ w) (eq : Equaliser) : (kernelOf w eq).lawful w := by
  unfold kernelOf
  split
  · assumption
  · exact unitKernel_lawful hw

theorem Tier.one_le_width (t : Tier) : 1 ≤ t.width := by cases t <;> decide

/-- Row `p` of a lawful kernel sums to its unit, tap by tap. -/
theorem Kernel.row_sum {w p : Nat} {k : Kernel} (h : k.lawful w) (hp : p < Config.phases) :
    ((List.range w).map (k.tap p)).sum = (k.unit : Int) := by
  have hp' : p < k.table.length := h.1 ▸ hp
  obtain ⟨hlen, hsum, -⟩ := h.2.2 k.table[p] (List.getElem_mem hp')
  rw [← hsum]
  congr 1
  apply List.ext_getElem (by simp [hlen])
  intro j h1 h2
  simp [Kernel.tap, hp', h2]

/-- A tap of a lawful kernel is an `s16` value. -/
theorem Kernel.tap_range {w : Nat} {k : Kernel} (h : k.lawful w) (p j : Nat) :
    -2 ^ 15 ≤ k.tap p j ∧ k.tap p j < 2 ^ 15 := by
  unfold Kernel.tap
  by_cases hp : p < k.table.length
  · have hrow : k.table.getD p [] = k.table[p] := List.getD_eq_getElem _ _ hp
    rw [hrow]
    by_cases hj : j < k.table[p].length
    · rw [List.getD_eq_getElem _ _ hj]
      exact (h.2.2 _ (List.getElem_mem hp)).2.2 _ (List.getElem_mem hj)
    · rw [List.getD_eq_default _ _ (Nat.not_lt.1 hj)]; decide
  · rw [List.getD_eq_default _ _ (Nat.not_lt.1 hp)]; simp

/-! ### The split of a chip time (R262) -/

theorem splitSlot_eq (t f : Nat) : splitSlot t f = t * f / 2 ^ 16 := by
  simp only [splitSlot, fractionalTime, Nat.shiftRight_eq_div_pow, Nat.div_div_eq_div_mul, Config.phaseBits]
  norm_num

theorem splitPhase_eq (t f : Nat) : splitPhase t f = t * f / 2 ^ 10 % 64 := by
  rw [splitPhase, fractionalTime, Nat.shiftRight_eq_div_pow]
  exact Nat.and_two_pow_sub_one_eq_mod _ 6

theorem splitPhase_lt (t f : Nat) : splitPhase t f < Config.phases := by
  rw [splitPhase_eq]; exact Nat.mod_lt _ (by decide)

/-! ### Splats -/

/-- Slot `k` after a splat. -/
theorem addSplat_slot (dl : Vector Slot Config.delayLen) (start width : Nat) (f : Nat → Int) (k : Nat)
    (h : k < Config.delayLen) :
    (addSplat dl start width f)[k] =
      if start ≤ k ∧ k < start + width then dl[k] + BitVec.ofInt 64 (f (k - start)) else dl[k] := by
  simp [addSplat]

/-- Splats into one line commute (R110): slots add modulo 2^64. -/
theorem addSplat_comm (dl : Vector Slot Config.delayLen) (a w a' w' : Nat) (f f' : Nat → Int) :
    addSplat (addSplat dl a w f) a' w' f' = addSplat (addSplat dl a' w' f') a w f := by
  apply Vector.ext
  intro k hk
  simp only [addSplat_slot]
  split_ifs
  · rw [BitVec.add_assoc, BitVec.add_assoc, BitVec.add_comm (BitVec.ofInt 64 _)]
  · rfl
  · rfl
  · rfl

@[simp] theorem Buffer.splat_sampleRate (b : Buffer) (y : Synth) (t : Nat) (x : Int) :
    (b.splat y t x).sampleRate = b.sampleRate := by rw [Buffer.splat]
@[simp] theorem Buffer.splat_clockRate (b : Buffer) (y : Synth) (t : Nat) (x : Int) :
    (b.splat y t x).clockRate = b.clockRate := by rw [Buffer.splat]
@[simp] theorem Buffer.splat_factor (b : Buffer) (y : Synth) (t : Nat) (x : Int) :
    (b.splat y t x).factor = b.factor := by rw [Buffer.splat]
@[simp] theorem Buffer.splat_bassFreq (b : Buffer) (y : Synth) (t : Nat) (x : Int) :
    (b.splat y t x).bassFreq = b.bassFreq := by rw [Buffer.splat]
@[simp] theorem Buffer.splat_bassShift (b : Buffer) (y : Synth) (t : Nat) (x : Int) :
    (b.splat y t x).bassShift = b.bassShift := by rw [Buffer.splat]
@[simp] theorem Buffer.splat_acc (b : Buffer) (y : Synth) (t : Nat) (x : Int) : (b.splat y t x).acc = b.acc := by rw [Buffer.splat]

/-- A splat changes only the delay line. -/
theorem Buffer.splat_line (b : Buffer) (y : Synth) (t : Nat) (x : Int) :
    b.splat y t x = { b with dl := (b.splat y t x).dl } := by rw [Buffer.splat]

theorem Buffer.splat_comm (b : Buffer) (y z : Synth) (t u : Nat) (x w : Int) :
    (b.splat y t x).splat z u w = (b.splat z u w).splat y t x := by
  simp only [Buffer.splat]
  rw [addSplat_comm]

/-! ### `OFFSET` -/

/-- Everything `OFFSET` can do (R263). -/
theorem offset_cases (s : Fin cfg.numSynth) (t : Nat) (x : Int) (b : Fin cfg.numBuf) (d : Device cfg) :
    ((d.bufAt b).factor = 0 ∧ offset s t x b d = .trap d .bufferUnconfigured) ∨
    ((d.bufAt b).factor ≠ 0 ∧ ¬ inWindow (d.bufAt b).factor.toNat (d.synAt s).width t ∧
      offset s t x b d = .trap d .timeOutOfRange) ∨
    ((d.bufAt b).factor ≠ 0 ∧ inWindow (d.bufAt b).factor.toNat (d.synAt s).width t ∧
      offset s t x b d = .ok (d.setBuf b ((d.bufAt b).splat (d.synAt s) t x))) := by
  unfold offset inWindow
  rw [Nat.shiftRight_eq_div_pow, ← splitSlot_eq]
  split
  · exact .inl ⟨‹_›, rfl⟩
  · split
    · exact .inr (.inl ⟨‹_›, by omega, rfl⟩)
    · exact .inr (.inr ⟨‹_›, by omega, rfl⟩)

/-- A splat that does not fault. -/
theorem offset_eq_ok {s : Fin cfg.numSynth} {t : Nat} {x : Int} {b : Fin cfg.numBuf} {d d' : Device cfg} :
    offset s t x b d = .ok d' ↔
      (d.bufAt b).factor ≠ 0 ∧ inWindow (d.bufAt b).factor.toNat (d.synAt s).width t ∧
        d' = d.setBuf b ((d.bufAt b).splat (d.synAt s) t x) := by
  rcases offset_cases s t x b d with ⟨h, e⟩ | ⟨h, h', e⟩ | ⟨h, h', e⟩ <;> rw [e]
  · simp [h]
  · simp [h']
  · simp only [Progress.ok.injEq, ne_eq, h, not_false_eq_true, h', true_and]; exact eq_comm

/-- A splat that faults changes nothing. -/
theorem offset_eq_trap {s : Fin cfg.numSynth} {t : Nat} {x : Int} {b : Fin cfg.numBuf} {d d' : Device cfg}
    {c : FaultCode} (h : offset s t x b d = .trap d' c) :
    d' = d ∧ (c = .bufferUnconfigured ∧ (d.bufAt b).factor = 0 ∨ c = .timeOutOfRange) := by
  rcases offset_cases s t x b d with ⟨h0, e⟩ | ⟨h0, h', e⟩ | ⟨h0, h', e⟩ <;> rw [e] at h
  · simp only [Progress.trap.injEq] at h; exact ⟨h.1.symm, .inl ⟨h.2.symm, h0⟩⟩
  · simp only [Progress.trap.injEq] at h; exact ⟨h.1.symm, .inr h.2.symm⟩
  · exact absurd h (by simp)

/-- Earlier chip times stay in the window. -/
theorem inWindow_mono {f w t u : Nat} (h : inWindow f w u) (htu : t ≤ u) : inWindow f w t := by
  unfold inWindow at *
  rw [Nat.shiftRight_eq_div_pow] at *
  have : t * f / 2 ^ 16 ≤ u * f / 2 ^ 16 := Nat.div_le_div_right (Nat.mul_le_mul_right f htu)
  omega

end Sys2Proof.Machine
end

