-- ==== Sys2Proof/Laws/Oscillator.lean ====
section
/-! SUPPORT. The run of an oscillator: what advancing, updating and running can change, how expiries count, and when a
run completes. -/

namespace Sys2Proof.Machine

variable {cfg : ChipConfig}

/-! ### The frame of a run -/

theorem Osc.SameUnits.refl (o : Osc cfg) : o.SameUnits o := ⟨rfl, rfl, rfl, rfl, rfl, rfl⟩

theorem Osc.SameUnits.trans {o p q : Osc cfg} (h : o.SameUnits p) (k : p.SameUnits q) : o.SameUnits q :=
  ⟨k.output.trans h.output, k.envStart.trans h.envStart, k.envDiv.trans h.envDiv, k.envLevel.trans h.envLevel,
    k.swDiv.trans h.swDiv, k.swReload.trans h.swReload⟩

theorem Device.SameChip.refl (d : Device cfg) : d.SameChip d := ⟨fun _ => rfl, rfl, rfl, rfl, rfl, rfl⟩

theorem Device.SameChip.trans {d e f : Device cfg} (h : d.SameChip e) (k : e.SameChip f) : d.SameChip f :=
  ⟨fun a => (k.reg a).trans (h.reg a), k.ram.trans h.ram, k.latch.trans h.latch, k.lastTime.trans h.lastTime,
    k.fsNext.trans h.fsNext, k.fsStep.trans h.fsStep⟩

theorem Device.RunFrame.refl (i : Fin cfg.numOsc) (d : Device cfg) : d.RunFrame i d :=
  ⟨rfl, .refl d, fun _ => rfl, fun _ _ => rfl, .refl _, fun _ => rfl, fun _ _ => rfl⟩

theorem Device.RunFrame.trans {i : Fin cfg.numOsc} {d e f : Device cfg} (h : d.RunFrame i e) (k : e.RunFrame i f) :
    d.RunFrame i f where
  fault := k.fault.trans h.fault
  chip := h.chip.trans k.chip
  syn s := (k.syn s).trans (h.syn s)
  osc j hj := (k.osc j hj).trans (h.osc j hj)
  self := h.self.trans k.self
  line b := by rw [k.line b, h.line b]
  buf b hb := (k.buf b (by rw [h.self.output]; exact hb)).trans (h.buf b hb)

/-- An update of oscillator `i` that keeps its units is in its frame. -/
theorem Device.RunFrame.setOsc {i : Fin cfg.numOsc} (d : Device cfg) {o : Osc cfg} (h : (d.oscAt i).SameUnits o) :
    d.RunFrame i (d.setOsc i o) where
  fault := rfl
  chip := ⟨fun _ => rfl, rfl, rfl, rfl, rfl, rfl⟩
  syn _ := rfl
  osc j hj := d.oscAt_setOsc_ne o hj
  self := by rw [Device.oscAt_setOsc_self]; exact h
  line _ := rfl
  buf _ _ := rfl

/-- A splat into the buffer oscillator `i` is bound to is in its frame. -/
theorem Device.RunFrame.splat {i : Fin cfg.numOsc} {b : Fin cfg.numBuf} (d : Device cfg)
    (h : (d.oscAt i).output = some b) (y : Synth) (t : Nat) (x : Int) :
    d.RunFrame i (d.setBuf b ((d.bufAt b).splat y t x)) where
  fault := rfl
  chip := ⟨fun _ => rfl, rfl, rfl, rfl, rfl, rfl⟩
  syn _ := rfl
  osc _ _ := rfl
  self := .refl _
  line c := by
    rw [Device.bufAt_setBuf]
    split
    · subst_vars; rw [Buffer.splat_line]
    · rfl
  buf c hc := d.bufAt_setBuf_ne _ (by rintro rfl; exact hc h)

/-! ### `UPDATE` -/

theorem update_unbound {i : Fin cfg.numOsc} {d : Device cfg} (h : (d.oscAt i).output = none) (t : Nat) (a : Int) :
    update i t a d = .ok d := by simp [update, h]

/-- Nothing to emit: the amplitude is the last one. -/
theorem update_steady {i : Fin cfg.numOsc} {d : Device cfg} {a : Int} (h : a = (d.oscAt i).lastAmp) (t : Nat) :
    update i t a d = .ok d := by
  unfold update
  split
  · rfl
  · rw [if_pos (by omega), h]; exact congrArg Progress.ok (d.setOsc_oscAt i)

/-- A change of amplitude splats the difference and is then remembered. -/
theorem update_bound {i : Fin cfg.numOsc} {d : Device cfg} {b : Fin cfg.numBuf} {a : Int}
    (h : (d.oscAt i).output = some b) (ha : a ≠ (d.oscAt i).lastAmp) (t : Nat) :
    update i t a d =
      (offset (synthOf cfg i) t (a - (d.oscAt i).lastAmp) b d).andThen fun e => .ok (e.setLastAmp i a) := by
  simp only [update, h]
  rw [if_neg (by omega)]

/-- Everything `UPDATE` can do (R266). -/
theorem update_cases (i : Fin cfg.numOsc) (t : Nat) (a : Int) (d : Device cfg) :
    (((d.oscAt i).output = none ∨ a = (d.oscAt i).lastAmp) ∧ update i t a d = .ok d) ∨
    ∃ b, (d.oscAt i).output = some b ∧ a ≠ (d.oscAt i).lastAmp ∧
      ((∃ c, update i t a d = .trap d c ∧ (c = .bufferUnconfigured ∧ (d.bufAt b).factor = 0 ∨ c = .timeOutOfRange)) ∨
       ((d.bufAt b).factor ≠ 0 ∧ inWindow (d.bufAt b).factor.toNat (d.synAt (synthOf cfg i)).width t ∧
        update i t a d = .ok ((d.setBuf b ((d.bufAt b).splat (d.synAt (synthOf cfg i)) t
          (a - (d.oscAt i).lastAmp))).setLastAmp i a))) := by
  cases ho : (d.oscAt i).output with
  | none => exact .inl ⟨.inl rfl, update_unbound ho t a⟩
  | some b =>
    by_cases ha : a = (d.oscAt i).lastAmp
    · exact .inl ⟨.inr ha, update_steady ha t⟩
    · refine .inr ⟨b, rfl, ha, ?_⟩
      rw [update_bound ho ha]
      rcases offset_cases (synthOf cfg i) t (a - (d.oscAt i).lastAmp) b d with ⟨h, e⟩ | ⟨h, h', e⟩ | ⟨h, h', e⟩
      · exact .inl ⟨_, by rw [e]; rfl, .inl ⟨rfl, h⟩⟩
      · exact .inl ⟨_, by rw [e]; rfl, .inr rfl⟩
      · exact .inr ⟨h, h', by rw [e]; rfl⟩

theorem update_frame (i : Fin cfg.numOsc) (t : Nat) (a : Int) (d : Device cfg) :
    (update i t a d).Keeps (d.RunFrame i) := by
  rcases update_cases i t a d with ⟨-, e⟩ | ⟨b, ho, ha, ⟨c, e, -⟩ | ⟨-, -, e⟩⟩ <;> rw [e]
  · exact .refl i d
  · exact .refl i d
  · exact (Device.RunFrame.splat d ho _ _ _).trans (.setOsc _ ⟨rfl, rfl, rfl, rfl, rfl, rfl⟩)

/-- After an update that completed, a bound oscillator's last amplitude is the one updated to. -/
theorem update_lastAmp {i : Fin cfg.numOsc} {t : Nat} {a : Int} {d d' : Device cfg} (h : update i t a d = .ok d')
    (ho : (d.oscAt i).output ≠ none) : (d'.oscAt i).lastAmp = a := by
  rcases update_cases i t a d with ⟨hc, e⟩ | ⟨b, -, -, ⟨c, e, -⟩ | ⟨-, -, e⟩⟩ <;> rw [e] at h
  · simp only [Progress.ok.injEq] at h
    subst h
    rcases hc with hc | hc
    · exact absurd hc ho
    · exact hc.symm
  · exact absurd h (by simp)
  · simp only [Progress.ok.injEq] at h
    subst h; simp [Device.setLastAmp]

/-! ### `ADVANCE` -/

theorem advanced_units (d : Device cfg) (o : Osc cfg) (n : Nat) (v : Voice) : o.SameUnits (d.advanced o n v) := by
  cases v <;> exact ⟨rfl, rfl, rfl, rfl, rfl, rfl⟩

@[simp] theorem advanced_delay (d : Device cfg) (o : Osc cfg) (n : Nat) (v : Voice) :
    (d.advanced o n v).delay = o.delay := by cases v <;> rfl

@[simp] theorem advanced_lastAmp (d : Device cfg) (o : Osc cfg) (n : Nat) (v : Voice) :
    (d.advanced o n v).lastAmp = o.lastAmp := by cases v <;> rfl

@[simp] theorem advanced_output (d : Device cfg) (o : Osc cfg) (n : Nat) (v : Voice) :
    (d.advanced o n v).output = o.output := by cases v <;> rfl

theorem advance_frame (i : Fin cfg.numOsc) (n : Nat) (d : Device cfg) : d.RunFrame i (advance i n d) :=
  .setOsc d (advanced_units d _ _ _)

@[simp] theorem oscAt_advance_self (i : Fin cfg.numOsc) (n : Nat) (d : Device cfg) :
    (advance i n d).oscAt i = d.advanced (d.oscAt i) n (voiceOf cfg i) := by simp [advance]

/-- Advancing reads only the registers of the device. -/
theorem advanced_congr {d e : Device cfg} (h : ∀ a, e.reg a = d.reg a) (o : Osc cfg) (n : Nat) (v : Voice) :
    e.advanced o n v = d.advanced o n v := by
  cases v <;> simp [Device.advanced, h]

theorem advanced_add (d : Device cfg) (o : Osc cfg) (m n : Nat) (v : Voice) :
    d.advanced (d.advanced o m v) n v = d.advanced o (m + n) v := by
  cases v with
  | pulse c s lo hi => simp [Device.advanced, Nat.mod_add_mod, Nat.add_assoc]
  | wave w lo hi => simp [Device.advanced, Nat.mod_add_mod, Nat.add_assoc]
  | noise c m' t => simp [Device.advanced, Nat.add_comm m n, Function.iterate_add_apply]

/-! ### Silence and amplitude see only what a run leaves as it was -/

theorem period_congr {d e : Device cfg} (h : ∀ a, e.reg a = d.reg a) (v : Voice) : e.period v = d.period v := by
  cases v <;> simp [Device.period, Device.divider, h]

theorem inaudible_congr {d e : Device cfg} (h : ∀ a, e.reg a = d.reg a) (v : Voice) :
    e.inaudible v = d.inaudible v := by
  cases v <;> simp [Device.inaudible, period_congr h]

theorem muted_congr {d e : Device cfg} (h : ∀ a, e.reg a = d.reg a) (v : Voice) : e.muted v = d.muted v := by
  cases v with
  | pulse c s lo hi => cases s <;> simp [Device.muted, Device.divider, h]
  | wave => rfl
  | noise => rfl

theorem volume_congr {d e : Device cfg} (h : ∀ a, e.reg a = d.reg a) {o p : Osc cfg} (ho : p.envLevel = o.envLevel)
    (v : Voice) : e.volume p v = d.volume o v := by
  cases v <;> simp [Device.volume, h, ho]

theorem silent_congr {i : Fin cfg.numOsc} {d e : Device cfg} (h : ∀ a, e.reg a = d.reg a)
    (ho : (d.oscAt i).SameUnits (e.oscAt i)) : e.silent i = d.silent i := by
  simp [Device.silent, h, ho.output, volume_congr h ho.envLevel, muted_congr h]

/-- The amplitude reads the registers, the wave RAM, the binding, the envelope level, the phase and the noise
register. -/
theorem amp_congr {i : Fin cfg.numOsc} {d e : Device cfg} (h : ∀ a, e.reg a = d.reg a) (hr : e.ram = d.ram)
    (ho : (d.oscAt i).SameUnits (e.oscAt i)) (hp : (e.oscAt i).phase = (d.oscAt i).phase)
    (hl : (e.oscAt i).lfsr = (d.oscAt i).lfsr) : e.amp i = d.amp i := by
  have hw : e.waveform (e.oscAt i) (voiceOf cfg i) = d.waveform (d.oscAt i) (voiceOf cfg i) := by
    cases voiceOf cfg i <;>
      simp [Device.waveform, inaudible_congr h, volume_congr h ho.envLevel, h, hp, hl, Device.ramAt, hr]
  simp [Device.amp, silent_congr h ho, hw]

/-! ### Expiries (R314) -/

theorem ceilDiv_le_iff {a p n : Nat} (hp : 0 < p) : ceilDiv a p ≤ n ↔ a ≤ n * p := by
  unfold ceilDiv
  rw [Nat.div_le_iff_le_mul_add_pred hp, Nat.mul_comm p n]
  omega

/-- Expiry number `n` lies before `stop`. -/
theorem lt_expiries_iff {time stop p n : Nat} (hp : 0 < p) : n < expiries time stop p ↔ time + n * p < stop := by
  unfold expiries
  split
  · rw [← Nat.not_le, ceilDiv_le_iff hp]; omega
  · constructor
    · intro h; omega
    · intro h; have : 0 ≤ n * p := Nat.zero_le _; omega

/-- The first expiry that is not before `stop`. -/
theorem le_expiries_mul {time stop p : Nat} (hp : 0 < p) : stop ≤ time + expiries time stop p * p := by
  have := (lt_expiries_iff (time := time) (stop := stop) (n := expiries time stop p) hp).not.1 (lt_irrefl _)
  omega

theorem expiries_eq_zero {time stop p : Nat} (h : stop ≤ time) : expiries time stop p = 0 := by
  simp [expiries, Nat.not_lt.2 h]

/-- Expiries cut at `mid`: those before it, and those from the first one after it on. -/
theorem expiries_split {time mid stop p : Nat} (hp : 0 < p) (h : mid ≤ stop) :
    expiries time stop p = expiries time mid p + expiries (time + expiries time mid p * p) stop p := by
  apply Nat.le_antisymm <;> by_contra hc
  · have hlt := (lt_expiries_iff (n := expiries time mid p + expiries (time + expiries time mid p * p) stop p) hp).1
      (Nat.not_le.1 hc)
    have hn := (lt_expiries_iff (time := time + expiries time mid p * p) (stop := stop)
      (n := expiries (time + expiries time mid p * p) stop p) hp).not.1 (lt_irrefl _)
    rw [Nat.add_mul] at hlt; omega
  · have hn := (lt_expiries_iff (time := time) (stop := stop) (n := expiries time stop p) hp).not.1 (lt_irrefl _)
    have hc' := Nat.not_le.1 hc
    by_cases h0 : expiries time stop p < expiries time mid p
    · have := (lt_expiries_iff hp).1 h0; omega
    · have := (lt_expiries_iff (time := time + expiries time mid p * p) (stop := stop)
        (n := expiries time stop p - expiries time mid p) hp).1 (by omega)
      rw [Nat.sub_mul] at this
      have : expiries time mid p * p ≤ expiries time stop p * p := Nat.mul_le_mul_right _ (by omega)
      omega

/-! ### The period -/

/-- Every step period is at least one cycle (R305). -/
theorem one_le_period (d : Device cfg) (v : Voice) : 1 ≤ d.period v := by
  cases v with
  | pulse c s lo hi =>
    obtain ⟨h1, ⟨k, hk⟩, h2, -⟩ := cfg.pulse_ok
    simp only [Device.period]
    rw [hk, ← Nat.mul_assoc, Nat.mul_comm _ cfg.pulseSteps, Nat.mul_assoc, Nat.mul_div_cancel_left _ h1]
    have : k ≠ 0 := by rintro rfl; simp [hk] at h2
    exact Nat.mul_pos (by omega) (by omega)
  | wave c lo hi =>
    obtain ⟨h1, ⟨k, hk⟩, h2, -⟩ := cfg.wave_ok
    simp only [Device.period]
    rw [hk, ← Nat.mul_assoc, Nat.mul_comm _ cfg.waveSteps, Nat.mul_assoc, Nat.mul_div_cancel_left _ h1]
    have : k ≠ 0 := by rintro rfl; simp [hk] at h2
    exact Nat.mul_pos (by omega) (by omega)
  | noise c m t => exact (cfg.noise_ok _).1

theorem Device.divider_lt (d : Device cfg) (lo hi : Nat) : d.divider lo hi < 2048 := (dividerOf _ _).isLt

/-- The longest period of a voice bounds every period of it (R304, R305). -/
theorem Device.period_le_longest (d : Device cfg) (v : Voice) : d.period v ≤ longestPeriod cfg v := by
  cases v with
  | pulse c s lo hi =>
    obtain ⟨h1, ⟨k, hk⟩, -⟩ := cfg.pulse_ok
    have hd := d.divider_lt lo hi
    simp only [Device.period, longestPeriod, hk]
    rw [← Nat.mul_assoc, Nat.mul_comm _ cfg.pulseSteps, Nat.mul_assoc, Nat.mul_div_cancel_left _ h1,
      Nat.mul_div_cancel_left _ h1]
    exact Nat.mul_le_mul_right _ hd
  | wave c lo hi =>
    obtain ⟨h1, ⟨k, hk⟩, -⟩ := cfg.wave_ok
    have hd := d.divider_lt lo hi
    simp only [Device.period, longestPeriod, hk]
    rw [← Nat.mul_assoc, Nat.mul_comm _ cfg.waveSteps, Nat.mul_assoc, Nat.mul_div_cancel_left _ h1,
      Nat.mul_div_cancel_left _ h1]
    exact Nat.mul_le_mul_right _ hd
  | noise c m t =>
    simp only [Device.period, longestPeriod]
    have key : ∀ (l : List (Fin 16)) (j : Fin 16), j ∈ l →
        cfg.noisePeriod[j] ≤ l.foldr (fun j m => max cfg.noisePeriod[j] m) 0 := by
      intro l
      induction l with
      | nil => simp
      | cons a l ih =>
        intro j hj
        rcases List.mem_cons.1 hj with rfl | hj
        · exact Nat.le_max_left _ _
        · exact (ih j hj).trans (Nat.le_max_right _ _)
    exact key _ _ (List.mem_finRange _)

/-- A period is a `u32` plus one (R49). -/
theorem period_le (d : Device cfg) (v : Voice) : d.period v ≤ 2 ^ 32 := by
  cases v with
  | pulse c s lo hi => exact (d.period_le_longest (.pulse c s lo hi)).trans cfg.pulse_ok.2.2.2
  | wave c lo hi => exact (d.period_le_longest (.wave c lo hi)).trans cfg.wave_ok.2.2.2
  | noise c m t => exact (cfg.noise_ok _).2

/-! ### The run -/

theorem setDelay_frame (i : Fin cfg.numOsc) (n : Nat) (d : Device cfg) : d.RunFrame i (d.setDelay i n) :=
  .setOsc d ⟨rfl, rfl, rfl, rfl, rfl, rfl⟩

theorem stepLoop_frame (i : Fin cfg.numOsc) (p : Nat) : ∀ (n time : Nat) (d : Device cfg),
    (stepLoop i p n time d).Keeps (d.RunFrame i)
  | 0, _, d => .refl i d
  | n + 1, time, d => by
    simp only [stepLoop]
    have h1 := advance_frame i 1 d
    exact Progress.Keeps.andThen ((update_frame i time _ _).mono fun _ h => h1.trans h)
      (fun e he => (stepLoop_frame i p n (time + p) e).mono fun _ h => he.trans h) (fun _ h => h)

theorem runExpiries_frame (i : Fin cfg.numOsc) (time stop : Nat) (d : Device cfg) :
    (runExpiries i time stop d).Keeps (d.RunFrame i) := by
  unfold runExpiries
  split
  · exact advance_frame i _ d
  · exact stepLoop_frame i _ _ _ d

theorem runOn_frame (i : Fin cfg.numOsc) (start stop : Nat) (d : Device cfg) :
    (runOn i start stop d).Keeps (d.RunFrame i) :=
  Progress.Keeps.andThen (runExpiries_frame i _ stop d)
    (fun _ he => he.trans (setDelay_frame i _ _)) (fun _ h => h)

/-- What a run leaves as it was, whether it completes or faults. -/
theorem run_frame (i : Fin cfg.numOsc) (start stop : Nat) (d : Device cfg) :
    (run i start stop d).Keeps (d.RunFrame i) := by
  unfold run
  split
  · exact .refl i d
  · exact Progress.Keeps.andThen (update_frame i start _ d)
      (fun e he => (runOn_frame i start stop e).mono fun _ h => he.trans h) (fun _ h => h)

/-! ### What a completed run leaves in its oscillator -/

/-- An update changes nothing of its oscillator but the last amplitude. -/
theorem update_osc {i : Fin cfg.numOsc} {t : Nat} {a : Int} {d d' : Device cfg} (h : update i t a d = .ok d') :
    d'.oscAt i = { d.oscAt i with lastAmp := (d'.oscAt i).lastAmp } := by
  rcases update_cases i t a d with ⟨-, e⟩ | ⟨b, -, -, ⟨c, e, -⟩ | ⟨-, -, e⟩⟩ <;> rw [e] at h
  · simp only [Progress.ok.injEq] at h; subst h; rfl
  · exact absurd h (by simp)
  · simp only [Progress.ok.injEq] at h; subst h; simp [Device.setLastAmp]

/-- The oscillator after a stepping loop of `n` expiries: advanced `n` steps, with its delay. -/
theorem stepLoop_osc {i : Fin cfg.numOsc} {p : Nat} : ∀ {n time : Nat} {d d' : Device cfg},
    stepLoop i p n time d = .ok d' →
    d'.oscAt i = { (if n = 0 then d.oscAt i else d.advanced (d.oscAt i) n (voiceOf cfg i)) with
      lastAmp := (d'.oscAt i).lastAmp }
  | 0, _, d, d', h => by
    simp only [stepLoop, Progress.ok.injEq] at h
    subst h; rfl
  | n + 1, time, d, d', h => by
    simp only [stepLoop] at h
    obtain ⟨e, he, h⟩ := Progress.andThen_eq_ok.1 h
    have h1 := update_osc he
    have h2 := stepLoop_osc h
    have hf := update_frame i time ((advance i 1 d).amp i) (advance i 1 d)
    rw [he] at hf
    have hreg : ∀ a, e.reg a = d.reg a := fun a => hf.chip.reg a
    rw [oscAt_advance_self] at h1
    rw [if_neg (by omega)]
    rw [h2, advanced_congr hreg, h1]
    have hadd := advanced_add d (d.oscAt i) 1 n (voiceOf cfg i)
    rw [Nat.add_comm 1 n] at hadd
    rw [← hadd]
    split
    · subst_vars
      rw [← advanced_add d (d.oscAt i) 1 0]
      cases voiceOf cfg i <;> simp [Device.advanced]
    · cases voiceOf cfg i <;> rfl

/-- After at least one expiry the last amplitude of a bound oscillator is the one it has. -/
theorem stepLoop_lastAmp {i : Fin cfg.numOsc} {p : Nat} : ∀ {n time : Nat} {d d' : Device cfg},
    stepLoop i p n time d = .ok d' → (d.oscAt i).output ≠ none →
    (n = 0 → (d.oscAt i).lastAmp = d.amp i) → (d'.oscAt i).lastAmp = d'.amp i
  | 0, _, d, d', h, _, h0 => by
    simp only [stepLoop, Progress.ok.injEq] at h
    subst h; exact h0 rfl
  | n + 1, time, d, d', h, ho, _ => by
    simp only [stepLoop] at h
    obtain ⟨e, he, h⟩ := Progress.andThen_eq_ok.1 h
    have hf := update_frame i time ((advance i 1 d).amp i) (advance i 1 d)
    rw [he] at hf
    have hf' : (advance i 1 d).RunFrame i e := hf
    have ho1 : ((advance i 1 d).oscAt i).output ≠ none := by simpa using ho
    have ho2 : (e.oscAt i).output ≠ none := by rw [hf'.self.output]; exact ho1
    refine stepLoop_lastAmp h ho2 fun _ => ?_
    rw [update_lastAmp he ho1]
    have hosc := update_osc he
    exact (amp_congr hf'.chip.reg hf'.chip.ram hf'.self (by rw [hosc]) (by rw [hosc])).symm

/-- A loop cut in two. -/
theorem stepLoop_add (i : Fin cfg.numOsc) (p : Nat) : ∀ (m n time : Nat) (d : Device cfg),
    stepLoop i p (m + n) time d = (stepLoop i p m time d).andThen (stepLoop i p n (time + m * p))
  | 0, n, time, d => by simp [stepLoop]
  | m + 1, n, time, d => by
    rw [Nat.succ_add]
    simp only [stepLoop, Progress.andThen_assoc]
    congr 1
    funext e
    rw [stepLoop_add i p m n (time + p) e, Nat.add_assoc, Nat.succ_mul, Nat.add_comm p]

/-- The distance to the next expiry fits the delay register. -/
theorem overshoot_lt (i : Fin cfg.numOsc) (start stop : Nat) (d : Device cfg) (h : start ≤ stop) :
    d.overshoot i (start + (d.oscAt i).delay.toNat) stop < 2 ^ 32 := by
  unfold Device.overshoot
  have hd := (d.oscAt i).delay.isLt
  have hp := period_le d (voiceOf cfg i)
  have hp1 := one_le_period d (voiceOf cfg i)
  cases hn : expiries (start + (d.oscAt i).delay.toNat) stop (d.period (voiceOf cfg i)) with
  | zero => omega
  | succ n =>
    have := (lt_expiries_iff (time := start + (d.oscAt i).delay.toNat) (stop := stop) (n := n) hp1).1 (by omega)
    rw [Nat.succ_mul]; omega

end Sys2Proof.Machine
end

