-- ==== Sys2Proof/Laws/Chip.lean ====
section
/-! SUPPORT. The frame sequencer and the run of the whole chip: what they can change, and when a run completes. -/

namespace Sys2Proof.Machine

variable {cfg : ChipConfig}

/-! ### The frame of an advance -/

theorem Device.AdvanceFrame.refl (d : Device cfg) : d.AdvanceFrame d :=
  ⟨rfl, fun _ => rfl, rfl, rfl, fun _ => rfl, fun _ => rfl, fun _ _ => rfl, fun _ _ => rfl,
    fun _ _ => ⟨rfl, rfl, rfl⟩, fun _ _ => ⟨rfl, rfl⟩⟩

theorem Device.AdvanceFrame.trans {d e f : Device cfg} (h : d.AdvanceFrame e) (k : e.AdvanceFrame f) :
    d.AdvanceFrame f where
  fault := k.fault.trans h.fault
  syn s := (k.syn s).trans (h.syn s)
  ram := k.ram.trans h.ram
  latch := k.latch.trans h.latch
  output i := (k.output i).trans (h.output i)
  line b := by rw [k.line b, h.line b]
  buf b hb := (k.buf b fun i => by rw [h.output]; exact hb i).trans (h.buf b hb)
  reg a ha := (k.reg a ha).trans (h.reg a ha)
  envelope i hi :=
    ⟨(k.envelope i hi).1.trans (h.envelope i hi).1, (k.envelope i hi).2.1.trans (h.envelope i hi).2.1,
      (k.envelope i hi).2.2.trans (h.envelope i hi).2.2⟩
  sweep i hi := ⟨(k.sweep i hi).1.trans (h.sweep i hi).1, (k.sweep i hi).2.trans (h.sweep i hi).2⟩

theorem Device.RunFrame.units {i : Fin cfg.numOsc} {d e : Device cfg} (h : d.RunFrame i e) (j : Fin cfg.numOsc) :
    (d.oscAt j).SameUnits (e.oscAt j) := by
  by_cases hj : j = i
  · subst hj; exact h.self
  · rw [h.osc j hj]; exact .refl _

/-- A run is an advance. -/
theorem Device.RunFrame.advance {i : Fin cfg.numOsc} {d e : Device cfg} (h : d.RunFrame i e) : d.AdvanceFrame e where
  fault := h.fault
  syn := h.syn
  ram := h.chip.ram
  latch := h.chip.latch
  output j := (h.units j).output
  line := h.line
  buf b hb := h.buf b (hb i)
  reg a _ := h.chip.reg a
  envelope j _ := ⟨(h.units j).envStart, (h.units j).envDiv, (h.units j).envLevel⟩
  sweep j _ := ⟨(h.units j).swDiv, (h.units j).swReload⟩

/-- The times are outside the frame. -/
theorem Device.AdvanceFrame.times {d e : Device cfg} (h : d.AdvanceFrame e) (t : Word) (n m : Nat) :
    d.AdvanceFrame { e with lastTime := t, fsNext := n, fsStep := m } :=
  ⟨h.fault, h.syn, h.ram, h.latch, h.output, h.line, h.buf, h.reg, h.envelope, h.sweep⟩

/-! ### Envelope and sweep clocks -/

/-- The device but for oscillator `i` and the listed registers, as a clock of a unit leaves it. -/
structure Device.ClockFrame (i : Fin cfg.numOsc) (regs : List Nat) (d e : Device cfg) : Prop where
  fault : e.fault = d.fault
  buf : e.buf = d.buf
  syn : e.syn = d.syn
  ram : e.ram = d.ram
  latch : e.latch = d.latch
  lastTime : e.lastTime = d.lastTime
  fsNext : e.fsNext = d.fsNext
  fsStep : e.fsStep = d.fsStep
  osc : ∀ j, j ≠ i → e.oscAt j = d.oscAt j
  wave : (e.oscAt i).phase = (d.oscAt i).phase ∧ (e.oscAt i).delay = (d.oscAt i).delay ∧
    (e.oscAt i).lastAmp = (d.oscAt i).lastAmp ∧ (e.oscAt i).output = (d.oscAt i).output ∧
    (e.oscAt i).lfsr = (d.oscAt i).lfsr
  reg : ∀ a, a ∉ regs → e.reg a = d.reg a

theorem envClocked_wave (ctrl : Byte) (o : Osc cfg) :
    (envClocked ctrl o).phase = o.phase ∧ (envClocked ctrl o).delay = o.delay ∧
    (envClocked ctrl o).lastAmp = o.lastAmp ∧ (envClocked ctrl o).output = o.output ∧
    (envClocked ctrl o).lfsr = o.lfsr ∧ (envClocked ctrl o).swDiv = o.swDiv ∧
    (envClocked ctrl o).swReload = o.swReload := by
  unfold envClocked
  split
  · exact ⟨rfl, rfl, rfl, rfl, rfl, rfl, rfl⟩
  · split <;> exact ⟨rfl, rfl, rfl, rfl, rfl, rfl, rfl⟩

theorem sweepDivided_wave (sw : Byte) (o : Osc cfg) :
    (sweepDivided sw o).phase = o.phase ∧ (sweepDivided sw o).delay = o.delay ∧
    (sweepDivided sw o).lastAmp = o.lastAmp ∧ (sweepDivided sw o).output = o.output ∧
    (sweepDivided sw o).lfsr = o.lfsr ∧ (sweepDivided sw o).envStart = o.envStart ∧
    (sweepDivided sw o).envDiv = o.envDiv ∧ (sweepDivided sw o).envLevel = o.envLevel := by
  unfold sweepDivided
  split <;> exact ⟨rfl, rfl, rfl, rfl, rfl, rfl, rfl, rfl⟩

/-- Setting one oscillator, its waveform state kept. -/
theorem Device.ClockFrame.setOsc {i : Fin cfg.numOsc} {regs : List Nat} (d : Device cfg) {o : Osc cfg}
    (h : o.phase = (d.oscAt i).phase ∧ o.delay = (d.oscAt i).delay ∧ o.lastAmp = (d.oscAt i).lastAmp ∧
      o.output = (d.oscAt i).output ∧ o.lfsr = (d.oscAt i).lfsr) : d.ClockFrame i regs (d.setOsc i o) where
  fault := rfl
  buf := rfl
  syn := rfl
  ram := rfl
  latch := rfl
  lastTime := rfl
  fsNext := rfl
  fsStep := rfl
  osc j hj := d.oscAt_setOsc_ne o hj
  wave := by rw [Device.oscAt_setOsc_self]; exact h
  reg _ _ := rfl

theorem Device.ClockFrame.refl (i : Fin cfg.numOsc) (regs : List Nat) (d : Device cfg) : d.ClockFrame i regs d :=
  ⟨rfl, rfl, rfl, rfl, rfl, rfl, rfl, rfl, fun _ _ => rfl, ⟨rfl, rfl, rfl, rfl, rfl⟩, fun _ _ => rfl⟩

/-- What an envelope clock can change (R336). -/
theorem envClock_frame (i : Fin cfg.numOsc) (d : Device cfg) :
    d.ClockFrame i [] (envClock i d) ∧ ((envClock i d).oscAt i).swDiv = (d.oscAt i).swDiv ∧
      ((envClock i d).oscAt i).swReload = (d.oscAt i).swReload := by
  have key : ∀ ctrl, d.ClockFrame i [] (d.setOsc i (envClocked ctrl (d.oscAt i))) ∧
      ((d.setOsc i (envClocked ctrl (d.oscAt i))).oscAt i).swDiv = (d.oscAt i).swDiv ∧
      ((d.setOsc i (envClocked ctrl (d.oscAt i))).oscAt i).swReload = (d.oscAt i).swReload := by
    intro ctrl
    obtain ⟨h1, h2, h3, h4, h5, h6, h7⟩ := envClocked_wave ctrl (d.oscAt i)
    exact ⟨.setOsc d ⟨h1, h2, h3, h4, h5⟩, by simp [h6], by simp [h7]⟩
  unfold envClock
  split
  · exact key _
  · exact ⟨.refl _ _ _, rfl, rfl⟩
  · exact key _

theorem reg_writeBack_ne (d : Device cfg) {lo hi a : Nat} (n : Nat) (h1 : a ≠ lo) (h2 : a ≠ hi) :
    (d.writeBack lo hi n).reg a = d.reg a := by
  unfold Device.writeBack
  rw [Device.reg_setReg_ne _ _ h2, Device.reg_setReg_ne _ _ h1]

/-- What a sweep clock can change (R341). -/
theorem sweepClock_frame (i : Fin cfg.numOsc) (d : Device cfg) :
    d.ClockFrame i (sweptBy (voiceOf cfg i)) (sweepClock i d) ∧
      ((sweepClock i d).oscAt i).envStart = (d.oscAt i).envStart ∧
      ((sweepClock i d).oscAt i).envDiv = (d.oscAt i).envDiv ∧
      ((sweepClock i d).oscAt i).envLevel = (d.oscAt i).envLevel := by
  unfold sweepClock
  split
  · next c sweep lo hi hv =>
    simp only [hv]
    split
    · obtain ⟨h1, h2, h3, h4, h5, h6, h7, h8⟩ := sweepDivided_wave (d.reg sweep) (d.oscAt i)
      refine ⟨⟨rfl, rfl, rfl, rfl, rfl, rfl, rfl, rfl, fun j hj => Device.oscAt_setOsc_ne _ _ hj, ?_, fun a ha => ?_⟩,
        ?_, ?_, ?_⟩
      · rw [Device.oscAt_setOsc_self]; exact ⟨h1, h2, h3, h4, h5⟩
      · simp only [sweptBy, List.mem_cons, List.not_mem_nil, or_false, not_or] at ha
        exact reg_writeBack_ne d _ ha.1 ha.2
      · rw [Device.oscAt_setOsc_self]; exact h6
      · rw [Device.oscAt_setOsc_self]; exact h7
      · rw [Device.oscAt_setOsc_self]; exact h8
    · obtain ⟨h1, h2, h3, h4, h5, h6, h7, h8⟩ := sweepDivided_wave (d.reg sweep) (d.oscAt i)
      exact ⟨.setOsc d ⟨h1, h2, h3, h4, h5⟩, by simp [h6], by simp [h7], by simp [h8]⟩
  · exact ⟨.refl _ _ _, rfl, rfl, rfl⟩
  · exact ⟨.refl _ _ _, rfl, rfl, rfl⟩
  · exact ⟨.refl _ _ _, rfl, rfl, rfl⟩

theorem Device.ClockFrame.bufAt {i : Fin cfg.numOsc} {regs : List Nat} {d e : Device cfg}
    (h : d.ClockFrame i regs e) (b : Fin cfg.numBuf) : e.bufAt b = d.bufAt b := by simp [Device.bufAt, h.buf]

theorem Device.ClockFrame.synAt {i : Fin cfg.numOsc} {regs : List Nat} {d e : Device cfg}
    (h : d.ClockFrame i regs e) (s : Fin cfg.numSynth) : e.synAt s = d.synAt s := by simp [Device.synAt, h.syn]

theorem Device.ClockFrame.output {i : Fin cfg.numOsc} {regs : List Nat} {d e : Device cfg}
    (h : d.ClockFrame i regs e) (j : Fin cfg.numOsc) : (e.oscAt j).output = (d.oscAt j).output := by
  by_cases hj : j = i
  · subst hj; exact h.wave.2.2.2.1
  · rw [h.osc j hj]

/-- A clock of the envelope of a clocked oscillator is an advance. -/
theorem envClock_advance {i : Fin cfg.numOsc} (hi : i ∈ cfg.envOscs) (d : Device cfg) :
    d.AdvanceFrame (envClock i d) := by
  obtain ⟨h, h1, h2⟩ := envClock_frame i d
  exact
    { fault := h.fault, syn := h.synAt, ram := h.ram, latch := h.latch, output := h.output
      line := fun b => by rw [h.bufAt]
      buf := fun b _ => h.bufAt b
      reg := fun a _ => h.reg a (by simp)
      envelope := fun j hj => by
        have hji : j ≠ i := by rintro rfl; exact hj hi
        rw [h.osc j hji]; exact ⟨rfl, rfl, rfl⟩
      sweep := fun j _ => by
        by_cases hji : j = i
        · subst hji; exact ⟨h1, h2⟩
        · rw [h.osc j hji]; exact ⟨rfl, rfl⟩ }

/-- A clock of the sweep of a clocked oscillator is an advance. -/
theorem sweepClock_advance {i : Fin cfg.numOsc} (hi : i ∈ cfg.sweepOscs) (d : Device cfg) :
    d.AdvanceFrame (sweepClock i d) := by
  obtain ⟨h, h1, h2, h3⟩ := sweepClock_frame i d
  exact
    { fault := h.fault, syn := h.synAt, ram := h.ram, latch := h.latch, output := h.output
      line := fun b => by rw [h.bufAt]
      buf := fun b _ => h.bufAt b
      reg := fun a ha => h.reg a fun hm => ha (List.mem_flatMap.2 ⟨i, hi, hm⟩)
      envelope := fun j _ => by
        by_cases hji : j = i
        · subst hji; exact ⟨h1, h2, h3⟩
        · rw [h.osc j hji]; exact ⟨rfl, rfl, rfl⟩
      sweep := fun j hj => by
        have hji : j ≠ i := by rintro rfl; exact hj hi
        rw [h.osc j hji]; exact ⟨rfl, rfl⟩ }

/-! ### The tick -/

/-- A property that every clocked unit keeps is kept by a list of them. -/
theorem foldl_keeps {α : Type} {P : Device cfg → Prop} {f : Device cfg → α → Device cfg} :
    ∀ (l : List α), (∀ a ∈ l, ∀ d, P d → P (f d a)) → ∀ d, P d → P (l.foldl f d)
  | [], _, _, hd => hd
  | a :: l, h, d, hd => foldl_keeps l (fun b hb => h b (by simp [hb])) _ (h a (by simp) d hd)

/-- What a property needs to survive a tick (R431): every clock, and the step counter. -/
theorem fsTick_keeps {P : Device cfg → Prop} (henv : ∀ i ∈ cfg.envOscs, ∀ d, P d → P (envClock i d))
    (hsweep : ∀ i ∈ cfg.sweepOscs, ∀ d, P d → P (sweepClock i d))
    (hstep : ∀ d, P d → ∀ n, n < cfg.fsSteps → P { d with fsStep := n }) {d : Device cfg} (hd : P d) :
    P (fsTick d) := by
  unfold fsTick
  have he := foldl_keeps (f := fun e i => envClock i e) cfg.envOscs henv d hd
  refine hstep _ ?_ _ (Nat.mod_lt _ cfg.fs_ok.2)
  split
  · exact foldl_keeps (f := fun e i => sweepClock i e) cfg.sweepOscs hsweep _ he
  · exact he

@[simp] theorem fsTick_fsStep (d : Device cfg) : (fsTick d).fsStep = (d.fsStep + 1) % cfg.fsSteps := rfl

/-- A tick moves no waveform, no time and no buffer. -/
theorem fsTick_frame (d : Device cfg) :
    (fsTick d).buf = d.buf ∧ (fsTick d).lastTime = d.lastTime ∧ (fsTick d).fsNext = d.fsNext ∧
    ∀ i, ((fsTick d).oscAt i).phase = (d.oscAt i).phase ∧ ((fsTick d).oscAt i).delay = (d.oscAt i).delay ∧
      ((fsTick d).oscAt i).lastAmp = (d.oscAt i).lastAmp ∧ ((fsTick d).oscAt i).lfsr = (d.oscAt i).lfsr := by
  let P : Device cfg → Prop := fun e => e.buf = d.buf ∧ e.lastTime = d.lastTime ∧ e.fsNext = d.fsNext ∧
    ∀ i, (e.oscAt i).phase = (d.oscAt i).phase ∧ (e.oscAt i).delay = (d.oscAt i).delay ∧
      (e.oscAt i).lastAmp = (d.oscAt i).lastAmp ∧ (e.oscAt i).lfsr = (d.oscAt i).lfsr
  have key : ∀ (i : Fin cfg.numOsc) (regs : List Nat) (e f : Device cfg), e.ClockFrame i regs f → P e → P f := by
    intro i regs e f h ⟨p1, p2, p3, p4⟩
    refine ⟨h.buf.trans p1, h.lastTime.trans p2, h.fsNext.trans p3, fun j => ?_⟩
    by_cases hj : j = i
    · subst hj
      obtain ⟨w1, w2, w3, -, w5⟩ := h.wave
      obtain ⟨q1, q2, q3, q4⟩ := p4 j
      exact ⟨w1.trans q1, w2.trans q2, w3.trans q3, w5.trans q4⟩
    · rw [h.osc j hj]; exact p4 j
  exact fsTick_keeps (P := P) (fun i _ e he => key i _ e _ (envClock_frame i e).1 he)
    (fun i _ e he => key i _ e _ (sweepClock_frame i e).1 he) (fun e he n _ => he)
    ⟨rfl, rfl, rfl, fun _ => ⟨rfl, rfl, rfl, rfl⟩⟩

theorem fsTick_advance (d : Device cfg) : d.AdvanceFrame (fsTick d) :=
  fsTick_keeps (P := fun e => d.AdvanceFrame e) (fun _ hi e he => he.trans (envClock_advance hi e))
    (fun _ hi e he => he.trans (sweepClock_advance hi e)) (fun e he n _ => he.times e.lastTime e.fsNext n)
    (.refl d)

theorem tickDue_advance (d : Device cfg) : d.AdvanceFrame (tickDue d) :=
  (fsTick_advance d).times _ _ _

@[simp] theorem tickDue_lastTime (d : Device cfg) : (tickDue d).lastTime = d.lastTime := (fsTick_frame d).2.1

@[simp] theorem tickDue_fsNext (d : Device cfg) : (tickDue d).fsNext = d.fsNext + cfg.fsPeriod := by
  simp [tickDue, (fsTick_frame d).2.2.1]

@[simp] theorem tickDue_fsStep (d : Device cfg) : (tickDue d).fsStep = (d.fsStep + 1) % cfg.fsSteps := rfl

/-! ### A run of the chip -/

/-- The times and the sequencer a list of runs leaves alone. -/
theorem runEach_frame (start stop : Nat) : ∀ (l : List (Fin cfg.numOsc)) (d : Device cfg),
    (runEach start stop l d).Keeps fun e =>
      d.AdvanceFrame e ∧ e.lastTime = d.lastTime ∧ e.fsNext = d.fsNext ∧ e.fsStep = d.fsStep
  | [], d => ⟨.refl d, rfl, rfl, rfl⟩
  | i :: l, d => by
    simp only [runEach]
    refine Progress.Keeps.andThen (P := fun e => d.RunFrame i e) (run_frame i start stop d) (fun e he => ?_)
      (fun e he => ⟨he.advance, he.chip.lastTime, he.chip.fsNext, he.chip.fsStep⟩)
    exact (runEach_frame start stop l e).mono fun f hf =>
      ⟨he.advance.trans hf.1, hf.2.1.trans he.chip.lastTime, hf.2.2.1.trans he.chip.fsNext,
        hf.2.2.2.trans he.chip.fsStep⟩

/-- A pass that completes ends at its time (R420). -/
theorem runPass_ok {t : Nat} {d d' : Device cfg} (h : runPass t d = .ok d') :
    d.AdvanceFrame d' ∧ d'.lastTime = BitVec.ofNat 32 t ∧ d'.fsNext = d.fsNext ∧ d'.fsStep = d.fsStep := by
  unfold runPass at h
  obtain ⟨e, he, h⟩ := Progress.andThen_eq_ok.1 h
  have hf := runEach_frame d.lastTime.toNat t (List.finRange cfg.numOsc) d
  rw [he] at hf
  simp only [Progress.ok.injEq] at h
  subst h
  exact ⟨hf.1.times _ _ _, rfl, hf.2.2.1, hf.2.2.2⟩

/-- Passes that complete: chip time is `stop`, and every tick was performed. -/
theorem runPasses_ok {stop : Nat} : ∀ {n : Nat} {d d' : Device cfg}, runPasses stop n d = .ok d' →
    d.AdvanceFrame d' ∧ d'.lastTime = BitVec.ofNat 32 stop ∧ d'.fsNext = d.fsNext + cfg.fsPeriod * n ∧
      (d.fsStep < cfg.fsSteps → d'.fsStep = (d.fsStep + n) % cfg.fsSteps)
  | 0, d, d', h => by
    obtain ⟨h1, h2, h3, h4⟩ := runPass_ok h
    exact ⟨h1, h2, by simp [h3], fun hs => by rw [h4, Nat.add_zero, Nat.mod_eq_of_lt hs]⟩
  | n + 1, d, d', h => by
    simp only [runPasses] at h
    obtain ⟨e, he, h⟩ := Progress.andThen_eq_ok.1 h
    obtain ⟨h1, h2, h3, h4⟩ := runPass_ok he
    obtain ⟨k1, k2, k3, k4⟩ := runPasses_ok h
    refine ⟨h1.trans ((tickDue_advance e).trans k1), k2, ?_, fun hs => ?_⟩
    · rw [k3, tickDue_fsNext, h3, Nat.mul_succ]; omega
    · rw [k4 (by rw [tickDue_fsStep]; exact Nat.mod_lt _ cfg.fs_ok.2), tickDue_fsStep, h4, Nat.mod_add_mod]
      congr 1; omega

/-! ### When a run completes -/

/-- What completing a run to `stop` needs is kept by an advance. -/
theorem Device.AdvanceFrame.mayRun {d e : Device cfg} (h : d.AdvanceFrame e) {stop : Nat} (hd : d.mayRun stop) :
    e.mayRun stop := by
  intro i b hb
  rw [h.output] at hb
  obtain ⟨h1, h2⟩ := hd i b hb
  rw [h.line b, h.syn]
  exact ⟨h1, h2⟩

/-- An update in the window completes. -/
theorem update_completes {i : Fin cfg.numOsc} {t stop : Nat} {d : Device cfg} (h : d.mayRun stop) (ht : t < stop)
    (a : Int) : ∃ e, update i t a d = .ok e := by
  rcases update_cases i t a d with ⟨-, e⟩ | ⟨b, hb, -, ⟨c, e, hc⟩ | ⟨-, -, e⟩⟩
  · exact ⟨_, e⟩
  · obtain ⟨h1, h2⟩ := h i b hb
    exfalso
    cases hu : (d.oscAt i).output with
    | none => rw [hu] at hb; exact absurd hb (by simp)
    | some b' =>
      rw [hu] at hb
      obtain rfl := Option.some.inj hb
      by_cases ha : a = (d.oscAt i).lastAmp
      · rw [update_steady ha] at e; exact absurd e (by simp)
      · rw [update_bound hu ha] at e
        rw [(offset_eq_ok (d' := _)).2 ⟨h1, inWindow_mono h2 (by omega), rfl⟩] at e
        exact absurd e (by simp)
  · exact ⟨_, e⟩

theorem stepLoop_completes {i : Fin cfg.numOsc} {p stop : Nat} : ∀ {n time : Nat} {d : Device cfg}, d.mayRun stop →
    (∀ k, k < n → time + k * p < stop) → ∃ e, stepLoop i p n time d = .ok e
  | 0, _, d, _, _ => ⟨d, rfl⟩
  | n + 1, time, d, h, hk => by
    have h1 := (advance_frame i 1 d).advance.mayRun h
    have ht : time < stop := by have := hk 0 (by omega); omega
    obtain ⟨e, he⟩ := update_completes (i := i) h1 ht ((advance i 1 d).amp i)
    have hf := update_frame i time ((advance i 1 d).amp i) (advance i 1 d)
    rw [he] at hf
    obtain ⟨f, hf'⟩ := stepLoop_completes (i := i) (p := p) (n := n) (time := time + p)
      ((Device.RunFrame.advance hf).mayRun h1) fun k hkn => by
        have := hk (k + 1) (by omega); rw [Nat.succ_mul] at this; omega
    exact ⟨f, by simp only [stepLoop, he, Progress.andThen_ok, hf']⟩

/-- A run whose splats stay in the window completes. -/
theorem run_completes {i : Fin cfg.numOsc} {start stop last : Nat} {d : Device cfg} (h : d.mayRun last)
    (h1 : start ≤ stop) (h2 : start < last) (h3 : stop ≤ last) : ∃ e, run i start stop d = .ok e := by
  obtain ⟨e, he⟩ := update_completes (i := i) h h2 (d.amp i)
  have hf := update_frame i start (d.amp i) d
  rw [he] at hf
  have hm := (Device.RunFrame.advance hf).mayRun h
  have hx : ∃ f, runExpiries i (start + (e.oscAt i).delay.toNat) stop e = .ok f := by
    unfold runExpiries
    split
    · exact ⟨_, rfl⟩
    · exact stepLoop_completes hm fun k hk =>
        lt_of_lt_of_le ((lt_expiries_iff (one_le_period e _)).1 hk) h3
  obtain ⟨f, hf'⟩ := hx
  exact ⟨_, by rw [run, if_neg (by omega), he]; simp only [Progress.andThen_ok, runOn, hf']; rfl⟩

theorem runEach_completes {start stop last : Nat} (h1 : start ≤ stop) (h2 : start < last) (h3 : stop ≤ last) :
    ∀ (l : List (Fin cfg.numOsc)) {d : Device cfg}, d.mayRun last → ∃ e, runEach start stop l d = .ok e
  | [], d, _ => ⟨d, rfl⟩
  | i :: l, d, h => by
    obtain ⟨e, he⟩ := run_completes (i := i) h h1 h2 h3
    have hf := run_frame i start stop d
    rw [he] at hf
    obtain ⟨f, hf'⟩ := runEach_completes h1 h2 h3 l ((Device.RunFrame.advance hf).mayRun h)
    exact ⟨f, by simp only [runEach, he, Progress.andThen_ok, hf']⟩

theorem runPass_completes {t last : Nat} {d : Device cfg} (h : d.mayRun last) (h1 : d.lastTime.toNat ≤ t)
    (h2 : d.lastTime.toNat < last) (h3 : t ≤ last) : ∃ e, runPass t d = .ok e := by
  obtain ⟨e, he⟩ := runEach_completes h1 h2 h3 (List.finRange cfg.numOsc) h
  exact ⟨_, by rw [runPass, he]; rfl⟩

/-- The loop of R420 completes when its splats stay in the window and its ticks are due in order. -/
theorem runPasses_completes {stop : Nat} (hs : stop < 2 ^ 32) : ∀ {n : Nat} {d : Device cfg}, d.mayRun stop →
    d.lastTime.toNat ≤ d.fsNext → d.lastTime.toNat < stop → (∀ m, m < n → d.fsNext + m * cfg.fsPeriod < stop) →
    ∃ e, runPasses stop n d = .ok e
  | 0, d, h, _, h2, _ => runPass_completes h (by omega) h2 le_rfl
  | n + 1, d, h, h1, h2, hn => by
    have h0 : d.fsNext < stop := by have := hn 0 (by omega); omega
    obtain ⟨e, he⟩ := runPass_completes h h1 h2 (by omega)
    obtain ⟨k1, k2, k3, -⟩ := runPass_ok he
    have hl : (tickDue e).lastTime.toNat = d.fsNext := by
      rw [tickDue_lastTime, k2, BitVec.toNat_ofNat]; exact Nat.mod_eq_of_lt (by omega)
    obtain ⟨f, hf⟩ := runPasses_completes hs (n := n) ((k1.trans (tickDue_advance e)).mayRun h)
      (by rw [hl, tickDue_fsNext, k3]; omega) (by omega)
      (fun m hm => by
        have := hn (m + 1) (by omega)
        rw [tickDue_fsNext, k3]; rw [Nat.succ_mul] at this; omega)
    exact ⟨f, by simp only [runPasses, he, Progress.andThen_ok, hf]⟩

end Sys2Proof.Machine
end

