-- ==== Sys2Proof/Laws/Invariant.lean ====
section
/-! SUPPORT. What keeps the invariant of the device: setting one component, each micro-operation, a tick, and the parts
of the power-on state. -/

namespace Sys2Proof.Machine

variable {cfg : ChipConfig}

/-! ### One component set -/

theorem Device.Inv.setOsc {d : Device cfg} (h : d.Inv) {i : Fin cfg.numOsc} {o : Osc cfg} (ho : o.Inv (voiceOf cfg i))
    (hb : ∀ b, o.output = some b → o.lastAmp ≠ 0 → (d.bufAt b).factor ≠ 0) : (d.setOsc i o).Inv where
  buf := h.buf
  syn := h.syn
  osc j := by
    by_cases hj : j = i
    · subst hj; rw [Device.oscAt_setOsc_self]; exact ho
    · rw [Device.oscAt_setOsc_ne _ _ hj]; exact h.osc j
  bound j b hjb hne := by
    by_cases hj : j = i
    · subst hj; rw [Device.oscAt_setOsc_self] at hjb hne; exact hb b hjb hne
    · rw [Device.oscAt_setOsc_ne _ _ hj] at hjb hne; exact h.bound j b hjb hne
  regs := h.regs
  tick := h.tick
  step := h.step

theorem Device.Inv.setBuf {d : Device cfg} (h : d.Inv) {b : Fin cfg.numBuf} {v : Buffer} (hv : v.Inv)
    (hf : v.factor = 0 → (d.bufAt b).factor = 0) : (d.setBuf b v).Inv where
  buf c := by
    by_cases hc : c = b
    · subst hc; rw [Device.bufAt_setBuf_self]; exact hv
    · rw [Device.bufAt_setBuf_ne _ _ hc]; exact h.buf c
  syn := h.syn
  osc := h.osc
  bound j c hjc hne := by
    by_cases hc : c = b
    · subst hc; rw [Device.bufAt_setBuf_self]; exact fun h0 => h.bound j c hjc hne (hf h0)
    · rw [Device.bufAt_setBuf_ne _ _ hc]; exact h.bound j c hjc hne
  regs := h.regs
  tick := h.tick
  step := h.step

theorem Device.Inv.setSyn {d : Device cfg} (h : d.Inv) {s : Fin cfg.numSynth} {v : Synth}
    (hv : v.Inv cfg.tierOf[s]) : (d.setSyn s v).Inv where
  buf := h.buf
  syn r := by
    by_cases hr : r = s
    · subst hr; rw [Device.synAt_setSyn_self]; exact hv
    · rw [Device.synAt_setSyn_ne _ _ hr]; exact h.syn r
  osc := h.osc
  bound := h.bound
  regs := h.regs
  tick := h.tick
  step := h.step

theorem Device.Inv.setReg {d : Device cfg} (h : d.Inv) {a : Nat} (ha : a < cfg.regSize) (v : Byte) :
    (d.setReg a v).Inv where
  buf := h.buf
  syn := h.syn
  osc := h.osc
  bound := h.bound
  regs := ⟨Memory.wf_write h.regs.1 a v, Memory.within_write h.regs.2 ha v⟩
  tick := h.tick
  step := h.step

theorem Device.Inv.takeFault {d : Device cfg} (h : d.Inv) (c : FaultCode) : (d.takeFault c).Inv :=
  ⟨h.buf, h.syn, h.osc, h.bound, h.regs, h.tick, h.step⟩

/-- The times and the sequencer set to values in order. -/
theorem Device.Inv.times {d : Device cfg} (h : d.Inv) {t : Word} {n m : Nat} (h1 : t.toNat ≤ n)
    (h2 : n ≤ t.toNat + cfg.fsPeriod) (h3 : m < cfg.fsSteps) :
    ({ d with lastTime := t, fsNext := n, fsStep := m } : Device cfg).Inv :=
  ⟨h.buf, h.syn, h.osc, h.bound, h.regs, ⟨h1, h2⟩, h3⟩

/-- The wave RAM and its latch are in no clause. -/
theorem Device.Inv.wave {d : Device cfg} (h : d.Inv) (ram : Vector (BitVec 4) cfg.waveRamSize)
    (latch : Fin cfg.waveRamSize) : ({ d with ram := ram, latch := latch } : Device cfg).Inv :=
  ⟨h.buf, h.syn, h.osc, h.bound, h.regs, h.tick, h.step⟩

/-! ### Amplitudes -/

theorem controlVolume_le (ctrl : Byte) (e : BitVec 4) : controlVolume ctrl e ≤ 15 := by
  unfold controlVolume
  have h1 := (ctrlVolp ctrl).isLt
  have h2 := e.isLt
  split <;> omega

theorem Device.volume_le (d : Device cfg) (o : Osc cfg) (v : Voice) : d.volume o v ≤ 15 := by
  cases v with
  | pulse => exact controlVolume_le _ _
  | wave w lo hi => have := (waveVolume (d.reg w)).isLt; simp only [Device.volume]; omega
  | noise => exact controlVolume_le _ _

theorem Device.ramAt_le (d : Device cfg) (p : Nat) : d.ramAt p ≤ 15 := by
  have := ((d.ram[p]?).getD (Config.ramPastEnd p)).isLt
  unfold Device.ramAt; omega

theorem Device.waveform_le (d : Device cfg) (o : Osc cfg) (v : Voice) : (d.waveform o v : Int) ≤ largestAmp v := by
  have h := d.volume_le o v
  cases v with
  | pulse c s lo hi =>
    simp only [Device.waveform, largestAmp, Nat.shiftRight_eq_div_pow]
    split
    · omega
    · split <;> omega
  | wave w lo hi =>
    simp only [Device.waveform, largestAmp, Nat.shiftRight_eq_div_pow]
    split
    · omega
    · have := Nat.mul_le_mul h (d.ramAt_le o.phase); omega
  | noise c m t =>
    simp only [Device.waveform, largestAmp]
    split <;> omega

theorem largestAmp_nonneg (v : Voice) : 0 ≤ largestAmp v := by cases v <;> simp [largestAmp]

/-- An amplitude is one of its voice's (R310). -/
theorem Device.amp_range (d : Device cfg) (i : Fin cfg.numOsc) :
    0 ≤ d.amp i ∧ d.amp i ≤ largestAmp (voiceOf cfg i) := by
  unfold Device.amp
  split
  · exact ⟨le_rfl, largestAmp_nonneg _⟩
  · exact ⟨Int.natCast_nonneg _, d.waveform_le _ _⟩

/-! ### Advancing -/

theorem stepsOf_pos (cfg : ChipConfig) (v : Voice) : 0 < stepsOf cfg v := by
  cases v with
  | pulse => exact cfg.pulse_ok.1
  | wave => exact cfg.wave_ok.1
  | noise => exact Nat.one_pos

/-- Bit `k` of the next noise state: the shifted bit, and the feedback at the top (R330). -/
theorem lfsrStep_bit {w : Nat} (tap : Nat) (l : BitVec w) (k : Nat) (hk : k < w) :
    (lfsrStep tap l).getLsbD k = (l.getLsbD (k + 1) || (decide (k = w - 1) && (l.getLsbD 0 ^^ l.getLsbD tap))) := by
  simp only [lfsrStep, BitVec.getLsbD_or, BitVec.getLsbD_ushiftRight, BitVec.getLsbD_shiftLeft, hk, decide_true,
    Bool.true_and, BitVec.getLsbD_setWidth, BitVec.getLsbD_ofBool, Nat.add_comm 1 k]
  by_cases h : k = w - 1
  · have hw : 0 < w := by omega
    subst h; simp [hw]
  · have h1 : k < w - 1 := by omega
    simp [h, h1]

/-- The noise register never reaches 0 (R331). -/
theorem lfsrStep_ne_zero {w tap : Nat} (h1 : 0 < tap) (h2 : tap < w) {l : BitVec w} (hl : l ≠ 0) :
    lfsrStep tap l ≠ 0 := by
  intro h0
  have hb : ∀ k, k < w → (l.getLsbD (k + 1) || (decide (k = w - 1) && (l.getLsbD 0 ^^ l.getLsbD tap))) = false := by
    intro k hk; rw [← lfsrStep_bit tap l k hk, h0]; simp
  have hup : ∀ k, 0 < k → l.getLsbD k = false := by
    intro k hk
    by_cases hw : k - 1 < w
    · have := hb (k - 1) hw
      rw [show k - 1 + 1 = k by omega] at this
      exact (Bool.or_eq_false_iff.1 this).1
    · exact BitVec.getLsbD_of_ge _ _ (by omega)
  have htop := hb (w - 1) (by omega)
  simp only [decide_true, Bool.true_and, hup tap h1, Bool.xor_false, Bool.or_eq_false_iff] at htop
  refine hl (BitVec.eq_of_getLsbD_eq fun k hk => ?_)
  rcases Nat.eq_zero_or_pos k with rfl | hk0
  · simpa using htop.2
  · simpa using hup k hk0

theorem tapOf_range (cfg : ChipConfig) (mode : Byte) : 0 < tapOf cfg mode ∧ tapOf cfg mode < cfg.lfsrWidth := by
  unfold tapOf
  split
  · exact cfg.lfsr_ok.2.1
  · exact cfg.lfsr_ok.1

theorem lfsr_iterate_ne_zero {w tap : Nat} (h1 : 0 < tap) (h2 : tap < w) : ∀ (n : Nat) {l : BitVec w}, l ≠ 0 →
    (lfsrStep tap)^[n] l ≠ 0
  | 0, _, h => h
  | n + 1, _, h => lfsr_iterate_ne_zero h1 h2 n (lfsrStep_ne_zero h1 h2 h)

theorem Osc.Inv.advanced {v : Voice} {o : Osc cfg} (h : o.Inv v) (d : Device cfg) (n : Nat) :
    (d.advanced o n v).Inv v where
  phase := by
    cases v with
    | pulse => exact Nat.mod_lt _ cfg.pulse_ok.1
    | wave => exact Nat.mod_lt _ cfg.wave_ok.1
    | noise => exact h.phase
  delay := by rw [advanced_delay]; exact h.delay
  lfsr := by
    cases v with
    | pulse => exact h.lfsr
    | wave => exact h.lfsr
    | noise c m t => exact lfsr_iterate_ne_zero (tapOf_range cfg _).1 (tapOf_range cfg _).2 _ h.lfsr
  amp := by rw [advanced_lastAmp]; exact h.amp
  unbound := by rw [advanced_output, advanced_lastAmp]; exact h.unbound

theorem Device.Inv.advance {d : Device cfg} (h : d.Inv) (i : Fin cfg.numOsc) (n : Nat) :
    (Machine.advance i n d).Inv :=
  h.setOsc ((h.osc i).advanced d n) fun b hb hne => by
    rw [advanced_output] at hb; rw [advanced_lastAmp] at hne
    exact h.bound i b hb hne

/-! ### Splats, updates and runs -/

theorem Buffer.Inv.splat {b : Buffer} (h : b.Inv) (y : Synth) (t : Nat) (x : Int) : (b.splat y t x).Inv where
  rates := by simpa using h.rates
  factor_le := by simpa using h.factor_le
  bass := by simpa using h.bass
  bass_le := by simpa using h.bass_le

/-- A splat keeps the invariant, and so does one that faults. -/
theorem offset_keepsInv {d : Device cfg} (h : d.Inv) (s : Fin cfg.numSynth) (t : Nat) (x : Int)
    (b : Fin cfg.numBuf) : (offset s t x b d).Keeps Device.Inv := by
  rcases offset_cases s t x b d with ⟨-, e⟩ | ⟨-, -, e⟩ | ⟨-, -, e⟩ <;> rw [e]
  · exact h
  · exact h
  · exact h.setBuf ((h.buf b).splat _ _ _) (by simp)

theorem update_keepsInv {d : Device cfg} (h : d.Inv) (i : Fin cfg.numOsc) (t : Nat) {a : Int}
    (ha : 0 ≤ a ∧ a ≤ largestAmp (voiceOf cfg i)) : (update i t a d).Keeps Device.Inv := by
  rcases update_cases i t a d with ⟨-, e⟩ | ⟨b, ho, -, ⟨c, e, -⟩ | ⟨hf, -, e⟩⟩ <;> rw [e]
  · exact h
  · exact h
  · have hs : (d.setBuf b ((d.bufAt b).splat (d.synAt (synthOf cfg i)) t (a - (d.oscAt i).lastAmp))).Inv :=
      h.setBuf ((h.buf b).splat _ _ _) (by simp)
    refine hs.setOsc ⟨(h.osc i).phase, (h.osc i).delay, (h.osc i).lfsr, ha, ?_⟩ ?_
    · intro hn; exact absurd (hn.symm.trans ho) (by simp)
    · intro c hc _
      obtain rfl : b = c := Option.some.inj (ho.symm.trans hc)
      rw [Device.bufAt_setBuf_self, Buffer.splat_factor]; exact hf

theorem stepLoop_keepsInv (i : Fin cfg.numOsc) (p : Nat) : ∀ (n time : Nat) {d : Device cfg}, d.Inv →
    (stepLoop i p n time d).Keeps Device.Inv
  | 0, _, _, h => h
  | n + 1, time, d, h => by
    simp only [stepLoop]
    exact Progress.Keeps.andThen (update_keepsInv (h.advance i 1) i time (Device.amp_range _ i))
      (fun e he => stepLoop_keepsInv i p n (time + p) he) (fun _ he => he)

theorem runExpiries_keepsInv {d : Device cfg} (h : d.Inv) (i : Fin cfg.numOsc) (time stop : Nat) :
    (runExpiries i time stop d).Keeps Device.Inv := by
  unfold runExpiries
  split
  · exact h.advance i _
  · exact stepLoop_keepsInv i _ _ _ h

/-- The delay a run stores is below the longest period of its voice (R68). -/
theorem overshoot_lt_longest {i : Fin cfg.numOsc} {start stop : Nat} {d d' : Device cfg} (hle : start ≤ stop)
    (hd : (d.oscAt i).delay.toNat < longestPeriod cfg (voiceOf cfg i)) :
    d'.overshoot i (start + (d.oscAt i).delay.toNat) stop < longestPeriod cfg (voiceOf cfg i) := by
  unfold Device.overshoot
  have hp1 := one_le_period d' (voiceOf cfg i)
  have hp := d'.period_le_longest (voiceOf cfg i)
  cases hn : expiries (start + (d.oscAt i).delay.toNat) stop (d'.period (voiceOf cfg i)) with
  | zero => omega
  | succ n =>
    have := (lt_expiries_iff (time := start + (d.oscAt i).delay.toNat) (stop := stop) (n := n) hp1).1 (by omega)
    rw [Nat.succ_mul]; omega

theorem Device.Inv.setDelay {d : Device cfg} (h : d.Inv) {i : Fin cfg.numOsc} {n : Nat}
    (hn : n < longestPeriod cfg (voiceOf cfg i)) : (d.setDelay i n).Inv :=
  h.setOsc
    ⟨(h.osc i).phase, lt_of_le_of_lt (by rw [BitVec.toNat_ofNat]; exact Nat.mod_le _ _) hn, (h.osc i).lfsr,
      (h.osc i).amp, (h.osc i).unbound⟩
    (h.bound i)

theorem run_keepsInv {d : Device cfg} (h : d.Inv) (i : Fin cfg.numOsc) (start stop : Nat) :
    (run i start stop d).Keeps Device.Inv := by
  unfold run
  split
  · exact h
  · refine Progress.Keeps.andThen (update_keepsInv h i start (d.amp_range i)) (fun e he => ?_) (fun _ he => he)
    exact Progress.Keeps.andThen (runExpiries_keepsInv he i _ stop)
      (fun f hf => hf.setDelay (overshoot_lt_longest (by omega) (he.osc i).delay)) (fun _ hf => hf)

theorem runEach_keepsInv (start stop : Nat) : ∀ (l : List (Fin cfg.numOsc)) {d : Device cfg}, d.Inv →
    (runEach start stop l d).Keeps Device.Inv
  | [], _, h => h
  | i :: l, _, h =>
    Progress.Keeps.andThen (run_keepsInv h i start stop) (fun _ he => runEach_keepsInv start stop l he)
      (fun _ he => he)

/-! ### Ticks -/

/-- Setting the envelope and sweep state of an oscillator. -/
theorem Device.Inv.setUnits {d : Device cfg} (h : d.Inv) {i : Fin cfg.numOsc} {o : Osc cfg}
    (ho : o.phase = (d.oscAt i).phase ∧ o.delay = (d.oscAt i).delay ∧ o.lastAmp = (d.oscAt i).lastAmp ∧
      o.output = (d.oscAt i).output ∧ o.lfsr = (d.oscAt i).lfsr) : (d.setOsc i o).Inv := by
  obtain ⟨h1, h2, h3, h4, h5⟩ := ho
  have hi := h.osc i
  exact h.setOsc ⟨by rw [h1]; exact hi.phase, by rw [h2]; exact hi.delay, by rw [h5]; exact hi.lfsr,
    by rw [h3]; exact hi.amp, by rw [h3, h4]; exact hi.unbound⟩ (by rw [h3, h4]; exact h.bound i)

theorem envClock_keepsInv {d : Device cfg} (h : d.Inv) (i : Fin cfg.numOsc) : (envClock i d).Inv := by
  have key : ∀ ctrl, (d.setOsc i (envClocked ctrl (d.oscAt i))).Inv := fun ctrl =>
    let ⟨h1, h2, h3, h4, h5, _⟩ := envClocked_wave ctrl (d.oscAt i)
    h.setUnits ⟨h1, h2, h3, h4, h5⟩
  unfold envClock
  split
  · exact key _
  · exact h
  · exact key _

theorem sweepClock_keepsInv {d : Device cfg} (h : d.Inv) (i : Fin cfg.numOsc) : (sweepClock i d).Inv := by
  unfold sweepClock
  split
  · next c sw lo hi hv =>
    have hw := cfg.window_ok.2 i
    have ha : ∀ a ∈ (voiceOf cfg i).addresses, a < cfg.regSize := hw
    rw [hv] at ha
    have hlo : lo < cfg.regSize := ha lo (by simp [Voice.addresses])
    have hhi : hi < cfg.regSize := ha hi (by simp [Voice.addresses])
    simp only
    split
    · have hb : (d.writeBack lo hi (sweepTarget (d.reg sw) (d.divider lo hi))).Inv :=
        (h.setReg hlo _).setReg hhi _
      exact hb.setUnits (let ⟨h1, h2, h3, h4, h5, _⟩ := sweepDivided_wave (d.reg sw) (d.oscAt i)
        ⟨h1, h2, h3, h4, h5⟩)
    · exact h.setUnits (let ⟨h1, h2, h3, h4, h5, _⟩ := sweepDivided_wave (d.reg sw) (d.oscAt i)
        ⟨h1, h2, h3, h4, h5⟩)
  · exact h
  · exact h
  · exact h

theorem fsTick_keepsInv {d : Device cfg} (h : d.Inv) : (fsTick d).Inv :=
  fsTick_keeps (P := Device.Inv) (fun i _ _ he => envClock_keepsInv he i) (fun i _ _ he => sweepClock_keepsInv he i)
    (fun e he n hn => he.times (t := e.lastTime) (n := e.fsNext) (m := n) he.tick.1 he.tick.2 hn) h

/-! ### The run of the chip -/

/-- A pass to `t`, before the tick that is due next. -/
theorem runPass_keepsInv {d : Device cfg} (h : d.Inv) {t : Nat} (h1 : d.lastTime.toNat ≤ t) (h2 : t ≤ d.fsNext)
    (h3 : t < 2 ^ 32) : (runPass t d).Keeps Device.Inv := by
  have hf := (runEach_frame d.lastTime.toNat t (List.finRange cfg.numOsc) d)
  have hk := runEach_keepsInv d.lastTime.toNat t (List.finRange cfg.numOsc) h
  unfold runPass
  cases hr : runEach d.lastTime.toNat t (List.finRange cfg.numOsc) d with
  | trap e c => rw [hr] at hk; exact hk
  | ok e =>
    rw [hr] at hk hf
    obtain ⟨-, -, hn, -⟩ := hf
    have ht := h.tick
    have hmod : (BitVec.ofNat 32 t).toNat = t := by rw [BitVec.toNat_ofNat]; exact Nat.mod_eq_of_lt h3
    have hk' : e.Inv := hk
    exact hk'.times (t := BitVec.ofNat 32 t) (n := e.fsNext) (m := e.fsStep) (by rw [hmod, hn]; exact h2)
      (by rw [hmod, hn]; omega) hk'.step

/-- The loop of R420 keeps the invariant when it performs the ticks due before `stop`. -/
theorem runPasses_keepsInv {stop : Nat} (hs : stop < 2 ^ 32) : ∀ {n : Nat} {d : Device cfg}, d.Inv →
    d.lastTime.toNat ≤ stop → (∀ m, m < n ↔ d.fsNext + m * cfg.fsPeriod < stop) →
    (runPasses stop n d).Keeps Device.Inv
  | 0, d, h, h1, hn => runPass_keepsInv h h1 (by have := (hn 0).not.1 (by omega); omega) hs
  | n + 1, d, h, h1, hn => by
    have h0 : d.fsNext < stop := by have := (hn 0).1 (by omega); omega
    simp only [runPasses]
    have hk := runPass_keepsInv h (t := d.fsNext) h.tick.1 le_rfl (by omega)
    cases hr : runPass d.fsNext d with
    | trap e c => rw [hr] at hk; exact hk
    | ok e =>
      rw [hr] at hk
      have hk' : e.Inv := hk
      obtain ⟨-, k2, k3, -⟩ := runPass_ok hr
      have hl : e.lastTime.toNat = d.fsNext := by
        rw [k2, BitVec.toNat_ofNat]; exact Nat.mod_eq_of_lt (by omega)
      have hft := fsTick_keepsInv hk'
      have hlt : (fsTick e).lastTime.toNat = d.fsNext := by rw [(fsTick_frame e).2.1, hl]
      have hti : (tickDue e).Inv :=
        hft.times (t := (fsTick e).lastTime) (n := (fsTick e).fsNext + cfg.fsPeriod) (m := (fsTick e).fsStep)
          (by rw [hlt, (fsTick_frame e).2.2.1, k3]; omega) (by rw [hlt, (fsTick_frame e).2.2.1, k3]) hft.step
      rw [Progress.andThen_ok]
      refine runPasses_keepsInv hs hti (by rw [tickDue_lastTime, hl]; omega) fun m => ?_
      rw [tickDue_fsNext, k3, show m < n ↔ m + 1 < n + 1 by omega, hn, Nat.succ_mul]
      omega

theorem runTo_keepsInv {d : Device cfg} (h : d.Inv) (u : Word) : (runTo u d).Keeps Device.Inv := by
  unfold runTo
  split
  · exact h
  · split
    · exact h
    · next h1 _ =>
      rw [BitVec.lt_def] at h1
      exact runPasses_keepsInv u.isLt h (by omega) fun m => lt_expiries_iff cfg.fs_ok.1

/-! ### Writes -/

theorem applyEffect_keepsInv {d : Device cfg} (h : d.Inv) (v : Byte) (e : WriteEffect cfg.numOsc) :
    (applyEffect v d e).Inv := by
  have key : ∀ (p : Fin cfg.numOsc) (b : Bool),
      (d.setOsc p { d.oscAt p with phase := 0, envStart := b }).Inv := fun p b =>
    h.setOsc ⟨stepsOf_pos cfg _, (h.osc p).delay, (h.osc p).lfsr, (h.osc p).amp, (h.osc p).unbound⟩ (h.bound p)
  cases e with
  | sweepReload p => exact h.setUnits ⟨rfl, rfl, rfl, rfl, rfl⟩
  | pulseTrigger p => simp only [applyEffect]; split; exacts [key p _, h]
  | waveTrigger p => simp only [applyEffect]; split; exacts [key p _, h]
  | noiseTrigger p => simp only [applyEffect]; split; exacts [h.setUnits ⟨rfl, rfl, rfl, rfl, rfl⟩, h]
  | ramAddress => exact h.wave d.ram _
  | ramData a => exact h.wave _ _

theorem sideEffect_keepsInv {d : Device cfg} (h : d.Inv) (a : Nat) (v : Byte) : (sideEffect a v d).Inv := by
  unfold sideEffect
  split
  · exact h
  · exact applyEffect_keepsInv h v _

/-! ### Buffers and synthesizers -/

theorem bassLoop_le (f : Int) : ∀ (n : Nat) (p : Int), bassLoop f n p ≤ n
  | 0, _ => le_rfl
  | n + 1, p => by
    unfold bassLoop
    split
    · exact (bassLoop_le f n _).trans (Nat.le_succ n)
    · exact le_rfl

theorem bassCalc_le (hz sr : Int) : bassCalc hz sr ≤ Config.bassMax := by
  unfold bassCalc
  split
  · exact le_rfl
  · exact (bassLoop_le _ _ _).trans (by decide)

theorem Buffer.Inv.afterRead {b : Buffer} (h : b.Inv) : b.afterRead.Inv := ⟨h.rates, h.factor_le, h.bass, h.bass_le⟩

theorem Buffer.Inv.afterReads {b : Buffer} (h : b.Inv) (n : Nat) : (b.afterReads n).Inv where
  rates := by simpa using h.rates
  factor_le := by simpa using h.factor_le
  bass := by simpa using h.bass
  bass_le := by simpa using h.bass_le

theorem Buffer.Inv.flushed {b : Buffer} (h : b.Inv) : b.flushed.Inv := ⟨h.rates, h.factor_le, h.bass, h.bass_le⟩

theorem Buffer.powerOn_inv : Buffer.powerOn.Inv :=
  ⟨.inl ⟨rfl, rfl, rfl⟩, by decide, by decide, by decide⟩

theorem Synth.powerOn_inv (t : Tier) : (Synth.powerOn t).Inv t where
  width := rfl
  lawful := kernelOf_law (Tier.one_le_width t) _
  level_le := Nat.zero_le _
  delta := by
    have hu : 0 < (kernelOf t.width Equaliser.default).unit := (kernelOf_law (Tier.one_le_width t) _).2.1
    simp only [Synth.powerOn, deltaFactorOf]
    rw [Nat.mul_zero, Nat.zero_mul, Nat.zero_add]
    refine (Nat.div_eq_of_lt ?_).symm
    have : 0 < (kernelOf t.width Equaliser.default).unit * 2 ^ 149 := Nat.mul_pos hu (by positivity)
    rw [Nat.mul_assoc]; omega
  representable := by simp [Synth.powerOn]

theorem Osc.powerOn_inv (v : Voice) : (Osc.powerOn cfg).Inv v where
  phase := stepsOf_pos cfg v
  delay := by
    have : 1 ≤ longestPeriod cfg v := (one_le_period (Device.powerOn cfg) v).trans (Device.period_le_longest _ v)
    exact this
  lfsr := by
    intro h
    have h2 := congrArg BitVec.toNat h
    have h3 := cfg.lfsr_ok.2.2
    rw [show (Osc.powerOn cfg).lfsr = BitVec.ofNat _ cfg.lfsrSeed from rfl, BitVec.toNat_ofNat,
      Nat.mod_eq_of_lt h3.2] at h2
    simp at h2; omega
  amp := ⟨le_rfl, largestAmp_nonneg v⟩
  unbound _ := rfl

theorem Osc.Inv.rebound {v : Voice} {o : Osc cfg} (h : o.Inv v) (new : Option (Fin cfg.numBuf)) :
    ({ o with lastAmp := 0, output := new } : Osc cfg).Inv v :=
  ⟨h.phase, h.delay, h.lfsr, ⟨le_rfl, largestAmp_nonneg v⟩, fun _ => rfl⟩

theorem Synth.Inv.withEq {t : Tier} {y : Synth} (h : y.Inv t) (eq : Equaliser)
    (hr : 0 < y.level → 0 < (y.withEq eq).deltaFactor) : (y.withEq eq).Inv t where
  width := h.width
  lawful := kernelOf_law (show 1 ≤ y.width by rw [h.width]; exact Tier.one_le_width t) eq
  level_le := h.level_le
  delta := rfl
  representable := hr

theorem Synth.Inv.withLevel {t : Tier} {y : Synth} (h : y.Inv t) {l : Nat} (hl : l ≤ levelOne)
    (hr : 0 < l → 0 < deltaFactorOf l y.kernel.unit) :
    ({ y with level := l, deltaFactor := deltaFactorOf l y.kernel.unit } : Synth).Inv t :=
  ⟨h.width, h.lawful, hl, rfl, hr⟩

theorem f32Level_le {u : F32} {l : Nat} (h : f32Level u = some l) : l ≤ levelOne := by
  unfold f32Level at h
  split at h
  · exact absurd h (by simp)
  · split at h
    · exact absurd h (by simp)
    · obtain rfl := Option.some.inj h; omega

/-! ### Rates -/

/-- The re-quantised rate, when it is positive, lies between them (R203). -/
theorem requant_range {sr cr : Int} (h1 : 0 < sr) (h : 0 < requant sr cr) :
    sr ≤ requant sr cr ∧ requant sr cr ≤ cr := by
  unfold requant at *
  have hq : 0 < cr / sr := by by_contra hc; nlinarith
  exact ⟨by nlinarith, Int.mul_ediv_self_le (by omega)⟩

/-- A factor is at most one (R204). -/
theorem factorOf_range {sr crq : Int} (h1 : 0 < sr) (h2 : sr ≤ crq) :
    0 ≤ factorOf sr crq ∧ factorOf sr crq ≤ 2 ^ 16 := by
  unfold factorOf
  refine ⟨Int.ediv_nonneg (by omega) (by omega), ?_⟩
  have : (sr * 2 ^ 17 + crq) / (2 * crq) < 2 ^ 16 + 1 := by
    rw [Int.ediv_lt_iff_lt_mul (by omega)]; omega
  omega

/-- A buffer configured with rates that convert keeps the invariant (R202). -/
theorem Buffer.configured_inv {b : Buffer} {sr crq : Int} (h1 : 0 < sr) (h2 : sr ≤ crq)
    (h3 : crq < 2 ^ 31) (hd : sr ∣ crq) (hf : factorOf sr crq ≠ 0) :
    (b.configured sr crq (factorOf sr crq)).Inv ∧ (b.configured sr crq (factorOf sr crq)).factor ≠ 0 := by
  obtain ⟨f0, f1⟩ := factorOf_range h1 h2
  have hsr : (BitVec.ofInt 32 sr).toInt = sr := by rw [BitVec.toInt_ofInt, Int.bmod_def]; omega
  have hcr : (BitVec.ofInt 32 crq).toInt = crq := by rw [BitVec.toInt_ofInt, Int.bmod_def]; omega
  have hfac : ((BitVec.ofInt 32 (factorOf sr crq)).toNat : Int) = factorOf sr crq := by
    rw [BitVec.toNat_ofInt]; omega
  have hne : BitVec.ofInt 32 (factorOf sr crq) ≠ 0 := by
    intro h; rw [h] at hfac; exact hf (by simpa using hfac.symm)
  refine ⟨⟨.inr ⟨?_, ?_, ?_, ?_, hne⟩, ?_, ?_, bassCalc_le _ _⟩, hne⟩
  · show 0 < (BitVec.ofInt 32 sr).toInt; omega
  · show 0 < (BitVec.ofInt 32 crq).toInt; omega
  · show (BitVec.ofInt 32 sr).toInt ∣ (BitVec.ofInt 32 crq).toInt; rw [hsr, hcr]; exact hd
  · show ((BitVec.ofInt 32 (factorOf sr crq)).toNat : Int) =
      factorOf (BitVec.ofInt 32 sr).toInt (BitVec.ofInt 32 crq).toInt
    rw [hsr, hcr, hfac]
  · show (BitVec.ofInt 32 (factorOf sr crq)).toNat ≤ 2 ^ 16; omega
  · show bassCalc b.bassFreq.toInt sr = bassCalc b.bassFreq.toInt (BitVec.ofInt 32 sr).toInt; rw [hsr]

end Sys2Proof.Machine
end

