-- ==== Sys2Proof/Laws/PerInstr.lean ====
section
/-! SUPPORT. Statements made per instruction: the words of a command match its own row of spec/opcode_table.json and no
other. -/

namespace Sys2Proof.Laws

/-- The words of `i` match exactly the row of its mnemonic (R136, R138). -/
def EncodesItsRow.Statement (i : Instr) : Prop :=
  ∀ row ∈ opcodeTable, (encode i).bits &&& row.mask = row.pattern ↔ row.mnemonic = i.mnemonic

/-- The masked comparisons of a command with the rows of the table, field by field. -/
theorem table_matches (c : Cmd) :
    opcodeTable.map (fun row => c.bits &&& row.mask = row.pattern) =
      [c.op = 0x01 ∧ c.y = 0,
       c.op = 0x02 ∧ c.y = 0 ∧ c.v = 0,
       c.op = 0x03 ∧ c.y = 0 ∧ c.u = 0 ∧ c.v = 0,
       c.op = 0x04 ∧ c.y = 0 ∧ c.v = 0,
       c.op = 0x05 ∧ c.y = 0 ∧ c.u = 0 ∧ c.v = 0,
       c.op = 0x06 ∧ c.y = 0 ∧ c.v = 0,
       c.op = 0x07,
       c.op = 0x08 ∧ c.y = 0 ∧ c.v = 0,
       c.op = 0x09 ∧ c.x = 0 ∧ c.u &&& 0xFFFFFF00 = 0 ∧ c.v = 0,
       c.op = 0x0A ∧ c.x = 0 ∧ c.y = 0 ∧ c.v = 0,
       c.op = 0x0B ∧ c.x = 0 ∧ c.y = 0 ∧ c.v = 0,
       c.op = 0x0C ∧ c.x = 0 ∧ c.y = 0 ∧ c.u = 0 ∧ c.v = 0] :=
  congrArg₂ List.cons (propext (row_setSampleRate c)) <|
    congrArg₂ List.cons (propext (row_setBassFreq c)) <|
    congrArg₂ List.cons (propext (row_readSample c)) <|
    congrArg₂ List.cons (propext (row_readSamples c)) <|
    congrArg₂ List.cons (propext (row_flush c)) <|
    congrArg₂ List.cons (propext (row_setVolume c)) <|
    congrArg₂ List.cons (propext (row_setTreble c)) <|
    congrArg₂ List.cons (propext (row_setOutput c)) <|
    congrArg₂ List.cons (propext (row_write c)) <|
    congrArg₂ List.cons (propext (row_runUntil c)) <|
    congrArg₂ List.cons (propext (row_endFrame c)) <|
    congrArg₂ List.cons (propext (row_reset c)) <|
    rfl

/-- A command whose twelve masked comparisons are decided has its statement. -/
theorem encodesItsRow_of_rows {i : Instr}
    (h : opcodeTable.map (fun row => (encode i).bits &&& row.mask = row.pattern) =
      opcodeTable.map (fun row => row.mnemonic = i.mnemonic)) : EncodesItsRow.Statement i := by
  intro row hrow
  exact Eq.to_iff (List.map_inj_left.1 h row hrow)

theorem EncodesItsRow.setSampleRate (x : Byte) (u v : Word) : EncodesItsRow.Statement (.setSampleRate x u v) := by
  apply encodesItsRow_of_rows
  rw [table_matches]
  simp [opcodeTable, Instr.mnemonic, encode, Cmd.make_op, Cmd.make_x, Cmd.make_y, Cmd.make_u, Cmd.make_v]

theorem EncodesItsRow.setBassFreq (x : Byte) (u : Word) : EncodesItsRow.Statement (.setBassFreq x u) := by
  apply encodesItsRow_of_rows
  rw [table_matches]
  simp [opcodeTable, Instr.mnemonic, encode, Cmd.make_op, Cmd.make_x, Cmd.make_y, Cmd.make_u, Cmd.make_v]

theorem EncodesItsRow.readSample (x : Byte) : EncodesItsRow.Statement (.readSample x) := by
  apply encodesItsRow_of_rows
  rw [table_matches]
  simp [opcodeTable, Instr.mnemonic, encode, Cmd.make_op, Cmd.make_x, Cmd.make_y, Cmd.make_u, Cmd.make_v]

theorem EncodesItsRow.readSamples (x : Byte) (u : Word) : EncodesItsRow.Statement (.readSamples x u) := by
  apply encodesItsRow_of_rows
  rw [table_matches]
  simp [opcodeTable, Instr.mnemonic, encode, Cmd.make_op, Cmd.make_x, Cmd.make_y, Cmd.make_u, Cmd.make_v]

theorem EncodesItsRow.flush (x : Byte) : EncodesItsRow.Statement (.flush x) := by
  apply encodesItsRow_of_rows
  rw [table_matches]
  simp [opcodeTable, Instr.mnemonic, encode, Cmd.make_op, Cmd.make_x, Cmd.make_y, Cmd.make_u, Cmd.make_v]

theorem EncodesItsRow.setVolume (x : Byte) (u : F32) : EncodesItsRow.Statement (.setVolume x u) := by
  apply encodesItsRow_of_rows
  rw [table_matches]
  simp [opcodeTable, Instr.mnemonic, encode, Cmd.make_op, Cmd.make_x, Cmd.make_y, Cmd.make_u, Cmd.make_v]

theorem EncodesItsRow.setTreble (x : Byte) (y : Half) (u : F32) (v : Word) : EncodesItsRow.Statement (.setTreble x y u v) := by
  apply encodesItsRow_of_rows
  rw [table_matches]
  simp [opcodeTable, Instr.mnemonic, encode, Cmd.make_op, Cmd.make_x, Cmd.make_y, Cmd.make_u, Cmd.make_v]

theorem EncodesItsRow.setOutput (x : Byte) (u : Word) : EncodesItsRow.Statement (.setOutput x u) := by
  apply encodesItsRow_of_rows
  rw [table_matches]
  simp [opcodeTable, Instr.mnemonic, encode, Cmd.make_op, Cmd.make_x, Cmd.make_y, Cmd.make_u, Cmd.make_v]

theorem EncodesItsRow.write (y : Half) (d : Byte) : EncodesItsRow.Statement (.write y d) := by
  apply encodesItsRow_of_rows
  have hd : d.setWidth 32 &&& 0xFFFFFF00#32 = 0#32 := by revert d; decide
  rw [table_matches]
  simp [opcodeTable, Instr.mnemonic, encode, Cmd.make_op, Cmd.make_x, Cmd.make_y, Cmd.make_u, Cmd.make_v, hd]

theorem EncodesItsRow.runUntil (u : Word) : EncodesItsRow.Statement (.runUntil u) := by
  apply encodesItsRow_of_rows
  rw [table_matches]
  simp [opcodeTable, Instr.mnemonic, encode, Cmd.make_op, Cmd.make_x, Cmd.make_y, Cmd.make_u, Cmd.make_v]

theorem EncodesItsRow.endFrame (u : Word) : EncodesItsRow.Statement (.endFrame u) := by
  apply encodesItsRow_of_rows
  rw [table_matches]
  simp [opcodeTable, Instr.mnemonic, encode, Cmd.make_op, Cmd.make_x, Cmd.make_y, Cmd.make_u, Cmd.make_v]

theorem EncodesItsRow.reset : EncodesItsRow.Statement (.reset) := by
  apply encodesItsRow_of_rows
  rw [table_matches]
  simp [opcodeTable, Instr.mnemonic, encode, Cmd.make_op, Cmd.make_x, Cmd.make_y, Cmd.make_u, Cmd.make_v]

end Sys2Proof.Laws
end

