-- ==== Sys2Proof/Machine/Pseudo.lean ====
section
/-! DEFINITION. The host's side of a program: the pseudo-instructions and their expansions (spec/30_encoding.md R140),
issuing an expansion command by command, and the per-sample protocol (spec/70_reset_and_hazards.md R610). The device
never sees a pseudo-instruction. -/

namespace Sys2Proof.Machine

/-- A pseudo-instruction of R140 (REF-1 addresses). -/
inductive Pseudo where
  /-- `tick <k>, b<x>` -/
  | tick (k : Word) (buffer : Byte)
  /-- `tick_all <k>` -/
  | tickAll (k : Word)
  /-- `pulse_period <p>, <n>`, `p` = 0 for A and 1 for B. -/
  | pulsePeriod (p : Fin 2) (n : BitVec 11)
  /-- `pulse_trigger <p>, <n>` -/
  | pulseTrigger (p : Fin 2) (n : BitVec 11)
  /-- `wave_period <n>` -/
  | wavePeriod (n : BitVec 11)
  /-- `wave_load <a>, <s0>, <s1>, ...`, `a` held to the 5 bits of the address field (assumption log entry 6). -/
  | waveLoad (a : BitVec 5) (samples : List Byte)
  /-- `mute_all` -/
  | muteAll
  /-- `detach o<x>` -/
  | detach (osc : Byte)
  deriving DecidableEq, Repr

/-- `n & 0xFF`. -/
def periodLow (n : BitVec 11) : Byte := n.extractLsb' 0 8

/-- `(n >> 8) & 7`. -/
def periodHigh (n : BitVec 11) : Byte := (n.extractLsb' 8 3).setWidth 8

/-- The expansion of a pseudo-instruction on a device of configuration `cfg` (R140, REF-1 addresses). A buffer index is
the 8-bit `X`, so `tick_all` names a buffer past 255 by its index modulo 256: the model's choice, assumption log entry
21. -/
def Pseudo.expand (cfg : ChipConfig) : Pseudo → List Instr
  | .tick k b => [.endFrame k, .readSample b]
  | .tickAll k => .endFrame k :: (List.range cfg.numBuf).map fun b => .readSample (BitVec.ofNat 8 b)
  | .pulsePeriod p n =>
    [.write (BitVec.ofNat 16 (4 * p.1 + 2)) (periodLow n), .write (BitVec.ofNat 16 (4 * p.1 + 3)) (periodHigh n)]
  | .pulseTrigger p n =>
    [.write (BitVec.ofNat 16 (4 * p.1 + 2)) (periodLow n),
     .write (BitVec.ofNat 16 (4 * p.1 + 3)) (0x80 ||| periodHigh n)]
  | .wavePeriod n => [.write 0x09 (periodLow n), .write 0x0A (periodHigh n)]
  | .waveLoad a samples => .write 0x0B (0x80 ||| a.setWidth 8) :: samples.map fun x => .write 0x0C x
  | .muteAll => [.write 0x10 0x00]
  | .detach x => [.setOutput x 0xFFFFFFFF]

/-- The status of the last response. -/
def State.lastStatus {cfg : ChipConfig} (s : State cfg) : Option Status := s.outbox.getLast?.map Response.status

/-- The host issues the commands of an expansion in order and stops at the first whose status is not OK (R140). -/
def issueAll {cfg : ChipConfig} : List Instr → State cfg → Host.Outcome (State cfg) Fault Refusal
  | [], s => .next s
  | i :: rest, s =>
    match execFor i s with
    | .next t => if t.lastStatus = some .ok then issueAll rest t else .next t
    | .fault r => .fault r
    | .refused r => .refused r

/-- `m` output samples of every buffer at `k` cycles a sample: one frame, then `m` reads of each buffer (R610). Operands
are cut to the width of their field: `m * k` and `m` to 32 bits, the buffer to 8 (assumption log entry 21). -/
def samplePeriod (cfg : ChipConfig) (m k : Nat) : List Instr :=
  .endFrame (BitVec.ofNat 32 (m * k)) ::
    (List.range cfg.numBuf).map fun b => .readSamples (BitVec.ofNat 8 b) (BitVec.ofNat 32 m)

end Sys2Proof.Machine
end

