-- ==== Sys2Proof/Machine/Assembler.lean ====
section
/-! DEFINITION. The textual syntax of commands (spec/30_encoding.md R139) and pseudo-instructions (R140): one line of
characters to the command it denotes. A line the syntax does not give a meaning denotes nothing. The conventions the
rule leaves open are assumption log entry 6. -/

namespace Sys2Proof.Machine

/-! ### Numbers -/

/-- The value of a digit in base `base`, if it is one; a hexadecimal digit may be of either case (the model's choice,
assumption log entry 6). -/
def digitValue (base : Nat) (c : Char) : Option Nat :=
  let n := c.toNat
  let v := if 48 ≤ n ∧ n ≤ 57 then n - 48 else if 97 ≤ n ∧ n ≤ 102 then n - 87
    else if 65 ≤ n ∧ n ≤ 70 then n - 55 else base
  if v < base then some v else none

/-- The value of a run of digits after `acc`. -/
def digitsValue (base : Nat) : Nat → List Char → Option Nat
  | acc, [] => some acc
  | acc, c :: rest =>
    match digitValue base c with
    | some v => digitsValue base (acc * base + v) rest
    | none => none

/-- At least one digit. -/
def numeral (base : Nat) (cs : List Char) : Option Nat := if cs = [] then none else digitsValue base 0 cs

/-- An integer operand: decimal or `0x` hexadecimal (R139). -/
def parseNat : List Char → Option Nat
  | '0' :: 'x' :: rest => numeral 16 rest
  | cs => numeral 10 cs

/-- An unsigned operand of `w` bits. R139 says nothing of an integer too wide for its field: that the line then denotes
nothing is the model's choice, assumption log entry 6 (spec/95_test_vectors.md C4.6 writes `write 0x10, 0x100` for the
words of vector E11, which the device refuses; those words have no line here). -/
def parseUnsigned (w : Nat) (cs : List Char) : Option (BitVec w) :=
  match parseNat cs with
  | some n => if n < 2 ^ w then some (BitVec.ofNat w n) else none
  | none => none

/-- An `s32` operand: an optional minus sign, or any 32-bit pattern written unsigned (the model's choice, assumption
log entry 6). -/
def parseSigned : List Char → Option Word
  | '-' :: rest =>
    match parseNat rest with
    | some n => if n ≤ 2 ^ 31 then some (BitVec.ofInt 32 (-(n : Int))) else none
    | none => none
  | cs => parseUnsigned 32 cs

/-- An index operand with its kind letter: `b<n>`, `s<n>`, `o<n>` (R139). R139 does not say how the number is written
nor how large it may be: that it is decimal (`b0x1` denotes nothing) and below 256, for the `b<y>` of `set_output` in
the 32-bit `U` too, is the model's choice, assumption log entry 6. -/
def parseIndex (kind : Char) : List Char → Option Byte
  | c :: rest => if c = kind then
      match numeral 10 rest with
      | some n => if n < 256 then some (BitVec.ofNat 8 n) else none
      | none => none
    else none
  | [] => none

/-! ### `f32` literals -/

/-- `a / b` rounded to the nearest integer, ties to even. -/
def roundHalfEven (a b : Nat) : Nat :=
  if 2 * (a % b) < b then a / b else if b < 2 * (a % b) then a / b + 1 else a / b + a / b % 2

/-- The `f32` nearest to `num / den`, ties to even (R139): the 24 leading bits of a normal number, the multiple of
`2^-149` of a denormal, an infinity past the largest finite value. -/
def f32Nearest (negative : Bool) (num den : Nat) : F32 :=
  let k := Nat.log2 (num * 2 ^ 149 / den) - 23
  let bits := min (k * 2 ^ 23 + roundHalfEven (num * 2 ^ 149) (den * 2 ^ k)) 0x7F800000
  BitVec.ofNat 32 (if negative then 2 ^ 31 + bits else bits)

/-- The characters before the first `c`, and those after it when there is one. -/
def breakAt (c : Char) : List Char → List Char × Option (List Char)
  | [] => ([], none)
  | x :: rest => if x = c then ([], some rest) else (x :: (breakAt c rest).1, (breakAt c rest).2)

/-- A decimal exponent, with an optional sign: the powers of ten above and below (the form of a literal is the model's
choice, assumption log entry 6). -/
def parseExponent : List Char → Option (Nat × Nat)
  | '-' :: rest => (numeral 10 rest).map fun n => (0, n)
  | '+' :: rest => (numeral 10 rest).map fun n => (n, 0)
  | cs => (numeral 10 cs).map fun n => (n, 0)

/-- An unsigned decimal floating-point literal, as `num / den`. -/
def parseDecimal (cs : List Char) : Option (Nat × Nat) :=
  let mantissa := (breakAt 'e' cs).1
  let whole := (breakAt '.' mantissa).1
  let fraction := ((breakAt '.' mantissa).2).getD []
  let power := match (breakAt 'e' cs).2 with | none => some (0, 0) | some e => parseExponent e
  match numeral 10 whole, digitsValue 10 0 fraction, power with
  | some w, some f, some (up, down) =>
    some ((w * 10 ^ fraction.length + f) * 10 ^ up, 10 ^ (fraction.length + down))
  | _, _, _ => none

/-- An `f32` operand: a decimal floating-point literal, denoting the nearest `f32` (R139). -/
def parseFloat : List Char → Option F32
  | '-' :: rest => (parseDecimal rest).map fun q => f32Nearest true q.1 q.2
  | cs => (parseDecimal cs).map fun q => f32Nearest false q.1 q.2

/-! ### Lines -/

/-- Spaces and tabs removed from the front (that they do not count is the model's choice, assumption log entry 6). -/
def skipSpaces : List Char → List Char
  | c :: rest => if c = ' ' ∨ c = '\t' then skipSpaces rest else c :: rest
  | [] => []

/-- Spaces and tabs removed from both ends. -/
def trimSpaces (cs : List Char) : List Char := (skipSpaces (skipSpaces cs).reverse).reverse

/-- The pieces between commas. -/
def splitCommas : List Char → List (List Char)
  | [] => [[]]
  | c :: rest =>
    if c = ',' then [] :: splitCommas rest
    else match splitCommas rest with
      | [] => [[c]]
      | p :: ps => (c :: p) :: ps

/-- The operands of a line: the text after the mnemonic, split at commas. -/
def operandsOf (cs : List Char) : List (List Char) :=
  if trimSpaces cs = [] then [] else (splitCommas cs).map trimSpaces

/-- The buffer operand of `set_output`: `b<y>` or `null`. -/
def parseOutput (cs : List Char) : Option Word :=
  if cs = "null".toList then some 0xFFFFFFFF else (parseIndex 'b' cs).map (BitVec.setWidth 32)

/-- All of a list, or nothing. -/
def allSome {α : Type} : List (Option α) → Option (List α)
  | [] => some []
  | none :: _ => none
  | some x :: rest => (allSome rest).map (x :: ·)

/-- A command from its mnemonic and operands (R139). -/
def parseInstr (name : List Char) (ops : List (List Char)) : Option Instr :=
  if name = "set_sample_rate".toList then
    match ops with
    | [x, u, v] => do some (.setSampleRate (← parseIndex 'b' x) (← parseSigned u) (← parseSigned v))
    | _ => none
  else if name = "set_bass_freq".toList then
    match ops with
    | [x, u] => do some (.setBassFreq (← parseIndex 'b' x) (← parseSigned u))
    | _ => none
  else if name = "read_sample".toList then
    match ops with
    | [x] => do some (.readSample (← parseIndex 'b' x))
    | _ => none
  else if name = "read_samples".toList then
    match ops with
    | [x, u] => do some (.readSamples (← parseIndex 'b' x) (← parseUnsigned 32 u))
    | _ => none
  else if name = "flush".toList then
    match ops with
    | [x] => do some (.flush (← parseIndex 'b' x))
    | _ => none
  else if name = "set_volume".toList then
    match ops with
    | [x, u] => do some (.setVolume (← parseIndex 's' x) (← parseFloat u))
    | _ => none
  else if name = "set_treble".toList then
    match ops with
    | [x, u, v, y] => do
      some (.setTreble (← parseIndex 's' x) (← parseUnsigned 16 y) (← parseFloat u) (← parseUnsigned 32 v))
    | _ => none
  else if name = "set_output".toList then
    match ops with
    | [x, u] => do some (.setOutput (← parseIndex 'o' x) (← parseOutput u))
    | _ => none
  else if name = "write".toList then
    match ops with
    | [y, u] => do some (.write (← parseUnsigned 16 y) (← parseUnsigned 8 u))
    | _ => none
  else if name = "run_until".toList then
    match ops with
    | [u] => do some (.runUntil (← parseUnsigned 32 u))
    | _ => none
  else if name = "end_frame".toList then
    match ops with
    | [u] => do some (.endFrame (← parseUnsigned 32 u))
    | _ => none
  else if name = "reset".toList then
    match ops with
    | [] => some .reset
    | _ => none
  else none

/-- The pulse a pseudo-instruction names: 0 for A, 1 for B (R140). -/
def parsePulse (cs : List Char) : Option (Fin 2) :=
  match parseNat cs with
  | some n => if h : n < 2 then some ⟨n, h⟩ else none
  | none => none

/-- A divider operand: its low 11 bits are what the expansion writes (R140). That it has no other bound is assumption
log entry 6. -/
def parseDivider (cs : List Char) : Option (BitVec 11) := (parseNat cs).map (BitVec.ofNat 11)

/-- A pseudo-instruction from its mnemonic and operands (R140). The expansion `0x80 | a` of `wave_load` gives `a` no
bound: that it is held to 5 bits, so that a line with an `a` of 32 or more denotes nothing, and each sample to 8 bits,
is the model's choice, assumption log entry 6. -/
def parsePseudo (name : List Char) (ops : List (List Char)) : Option Pseudo :=
  if name = "tick".toList then
    match ops with
    | [k, x] => do some (.tick (← parseUnsigned 32 k) (← parseIndex 'b' x))
    | _ => none
  else if name = "tick_all".toList then
    match ops with
    | [k] => do some (.tickAll (← parseUnsigned 32 k))
    | _ => none
  else if name = "pulse_period".toList then
    match ops with
    | [p, n] => do some (.pulsePeriod (← parsePulse p) (← parseDivider n))
    | _ => none
  else if name = "pulse_trigger".toList then
    match ops with
    | [p, n] => do some (.pulseTrigger (← parsePulse p) (← parseDivider n))
    | _ => none
  else if name = "wave_period".toList then
    match ops with
    | [n] => do some (.wavePeriod (← parseDivider n))
    | _ => none
  else if name = "wave_load".toList then
    match ops with
    | a :: xs => do some (.waveLoad (← parseUnsigned 5 a) (← allSome (xs.map (parseUnsigned 8))))
    | [] => none
  else if name = "mute_all".toList then
    match ops with
    | [] => some .muteAll
    | _ => none
  else if name = "detach".toList then
    match ops with
    | [x] => do some (.detach (← parseIndex 'o' x))
    | _ => none
  else none

/-- The commands a line denotes on a device of configuration `cfg`: none for a blank or comment line, one for a
command, the expansion of a pseudo-instruction; `none` where the syntax gives the line no meaning. The mnemonic ends at
the first space (the model's choice, assumption log entry 6). -/
def assembleLine (cfg : ChipConfig) (line : List Char) : Option (List Instr) :=
  let text := trimSpaces (breakAt ';' line).1
  let name := (breakAt ' ' text).1
  let ops := operandsOf ((breakAt ' ' text).2.getD [])
  if text = [] then some []
  else match parseInstr name ops with
    | some i => some [i]
    | none => (parsePseudo name ops).map (Pseudo.expand cfg)

end Sys2Proof.Machine
end

