-- ==== Sys2Proof/Tests/Slice0.lean ====
section
/-! SUPPORT. The model's own tests. The expected values are those of spec/95_test_vectors.md and of the worked examples
of the rules; each test names its vector. The last part shows, for every statement with hypotheses, a concrete state
and operands that meet them (`witness_<statement>`). -/

namespace Sys2Proof.Tests

open Sys2Proof Sys2Proof.Machine

/-! ### Well-formedness: one ill-formed term for each check -/

theorem test_index_refused : (Instr.readSample 4).wellFormed Config.chip = false := by decide
theorem test_synth_index_refused : (Instr.setTreble 3 0 0 0).wellFormed Config.chip = false := by decide
theorem test_output_refused : (Instr.setOutput 0 4).wellFormed Config.chip = false := by decide
theorem test_address_refused : (Instr.write 0x11 0).wellFormed Config.chip = false := by decide
theorem test_nan_refused : (Instr.setVolume 0 0x7FC00000).wellFormed Config.chip = false := by decide
theorem test_level_above_one_refused : (Instr.setVolume 0 0x3F800001).wellFormed Config.chip = false := by decide
theorem test_level_below_zero_refused : (Instr.setVolume 0 0xBF000000).wellFormed Config.chip = false := by decide
theorem test_infinite_treble_refused : (Instr.setTreble 0 0 0x7F800000 0).wellFormed Config.chip = false := by decide
theorem test_wellFormed_accepts :
    [Instr.setSampleRate 3 48000 768000, .setBassFreq 3 0, .readSample 3, .readSamples 3 1, .flush 3,
      .setVolume 2 0x3F800000, .setTreble 2 0 0xC1000000 0, .setOutput 3 0xFFFFFFFF, .write 0x10 0xFF, .runUntil 1,
      .endFrame 1, .reset].all (Instr.wellFormed Config.chip) = true := by decide

/-! ### Decoding: a word of every constructor, from the encodings of spec/30_encoding.md R136 -/

theorem test_decode_setSampleRate :
    decode ⟨0x01020000, 0x0000BB80, 0x000BB800⟩ = .ok (.setSampleRate 2 48000 768000) := by decide
theorem test_decode_setBassFreq : decode ⟨0x02010000, 0x0000000A, 0⟩ = .ok (.setBassFreq 1 10) := by decide
theorem test_decode_readSample : decode ⟨0x03030000, 0, 0⟩ = .ok (.readSample 3) := by decide
theorem test_decode_readSamples : decode ⟨0x04010000, 0x00000003, 0⟩ = .ok (.readSamples 1 3) := by decide
theorem test_decode_flush : decode ⟨0x05020000, 0, 0⟩ = .ok (.flush 2) := by decide
theorem test_decode_setVolume : decode ⟨0x06020000, 0x3B800000, 0⟩ = .ok (.setVolume 2 0x3B800000) := by decide
/-- Vector S2.2, with a treble. -/
theorem test_decode_setTreble :
    decode ⟨0x07010BB8, 0xC1000000, 0x00001F40⟩ = .ok (.setTreble 1 3000 0xC1000000 8000) := by decide
theorem test_decode_setOutput : decode ⟨0x08030000, 0xFFFFFFFF, 0⟩ = .ok (.setOutput 3 0xFFFFFFFF) := by decide
theorem test_decode_write : decode ⟨0x0900000B, 0x0000009F, 0⟩ = .ok (.write 0x0B 0x9F) := by decide
theorem test_decode_runUntil : decode ⟨0x0A000000, 0x00000CE4, 0⟩ = .ok (.runUntil 3300) := by decide
theorem test_decode_endFrame : decode ⟨0x0B000000, 0x00000010, 0⟩ = .ok (.endFrame 16) := by decide
theorem test_decode_reset : decode ⟨0x0C000000, 0, 0⟩ = .ok .reset := by decide

/-- Vectors E1 to E3: the unknown opcodes. -/
theorem test_decode_unknown : [0x0D000000, 0x00000000, 0xFF000000].map (fun w => decode ⟨w, 0, 0⟩) =
    List.replicate 3 (.error .unknownOpcode) := by decide

/-- Vectors E4 to E13: a field that is not used is not 0. -/
theorem test_decode_reserved :
    [Cmd.mk 0x03000001 0 0, ⟨0x03000000, 1, 0⟩, ⟨0x03000000, 0, 1⟩, ⟨0x01000001, 0xBB80, 0xBB800⟩,
      ⟨0x0A010000, 5, 0⟩, ⟨0x0C000000, 0, 1⟩, ⟨0x09010000, 0, 0⟩, ⟨0x09000000, 0x100, 0⟩, ⟨0x08000000, 0, 1⟩,
      ⟨0x06000001, 0x3F800000, 0⟩].map decode = List.replicate 10 (.error .reservedField) := by decide

/-- R104: the bytes of `write 0x10, 1`, each word least-significant byte first. -/
theorem test_transport_bytes : fetchCommand [0x10, 0, 0, 0x09, 0x01, 0, 0, 0, 0, 0, 0, 0, 0xAA] =
    .command ⟨0x09000010, 0x00000001, 0⟩ [0xAA] := by decide

theorem test_table_word : decodeTableWord 96 0x090000100000000100000000 = some (.write 0x10 0x01) := by decide

/-- R139: one line of the textual syntax for each operand kind. -/
theorem test_assemble_write : assembleLine Config.chip "write 0x10, 1".toList = some [.write 0x10 1] := by decide
theorem test_assemble_output :
    assembleLine Config.chip "set_output o2, null".toList = some [.setOutput 2 0xFFFFFFFF] := by decide
/-- R140: `tick`. -/
theorem test_assemble_tick :
    assembleLine Config.chip "tick 16, b0".toList = some [.endFrame 16, .readSample 0] := by decide

/-! ### Exact functions of the rules -/

/-- Vectors B1.1 to B1.7 and B1.12: the factor of a re-quantised clock rate. -/
theorem test_factor :
    [(48000, 768000), (44100, 1789773), (48000, 48000), (1, 131072), (3, 10), (48000, 768001), (32000, 1000000),
      (1, 131073)].map (fun r => (requant r.1 r.2, factorOf r.1 (requant r.1 r.2))) =
    [(768000, 4096), (1764000, 1638), (48000, 65536), (131072, 1), (9, 21845), (768000, 4096), (992000, 2114),
      (131073, 0)] := by decide

/-- Vectors B2.1 to B2.14. -/
theorem test_bassCalc :
    [(16, 48000), (0, 48000), (-5, 48000), (10, 48000), (1, 48000), (2, 48000), (100, 48000), (1000, 48000),
      (5999, 48000), (6000, 48000), (100000, 48000), (16, 0), (16, 44100), (90, 44100)].map
      (fun r => bassCalc r.1 r.2) = [9, 31, 31, 10, 13, 12, 6, 3, 1, 0, 0, 31, 9, 6] := by decide

/-- Vectors S1.1 to S1.15: the delta factor for `kernel_unit = 32768`; a 0 of a positive level is `VolumeTooLow`. -/
theorem test_deltaFactor :
    [0x3F800000, 0x3B800000, 0x3F000000, 0x3E800000, 0x38000000, 0x37C00000, 0x37A00000, 0x37800000, 0x37000000,
      0x3DCCCCCD, 0x36800000, 0x36FFFFFF, 0x00000001, 0x00000000, 0x80000000].map
      (fun u => (f32Level u).map fun l => deltaFactorOf l 32768) =
    [65536, 256, 32768, 16384, 2, 2, 1, 1, 1, 6554, 0, 0, 0, 0, 0].map some := by decide

/-- Vectors O1.7 to O1.9, and those at factor 1638. -/
theorem test_timeSplit :
    [(100, 4096), (159, 4096), (160, 4096), (100, 1638), (400, 1638)].map
      (fun r => (splitSlot r.1 r.2, splitPhase r.1 r.2)) = [(6, 16), (9, 60), (10, 0), (2, 31), (9, 63)] := by decide

/-- Vector L1 at states 14 to 16, vector L2 at states 10 to 12. -/
theorem test_lfsr :
    ([14, 15, 16].map fun n => (lfsrStep 1)^[n] (1 : BitVec 15)) = [0x0002, 0x4001, 0x6000] ∧
    ([10, 11, 12].map fun n => (lfsrStep 6)^[n] (1 : BitVec 15)) = [0x4020, 0x2010, 0x1008] := by decide

/-- Vectors N1 (clocks 1, 3, 4) and N2 (clocks 1, 16, 17). -/
theorem test_envelope :
    ([1, 3, 4].map fun n => ((envClocked 0x02)^[n] { Osc.powerOn Config.chip with envStart := true }).envLevel) =
      [15, 15, 14] ∧
    ([1, 16, 17].map fun n => ((envClocked 0x20)^[n] { Osc.powerOn Config.chip with envStart := true }).envLevel) =
      [15, 0, 15] := by decide

/-! ### Small states -/

/-- A buffer at the standard rates (spec/95_test_vectors.md section 0). -/
def standardBuffer : Buffer :=
  { Buffer.powerOn with sampleRate := 48000, clockRate := 768000, factor := 4096, bassShift := 9 }

/-- A synthesizer with the test kernel `K_LIN` at level `2^-8` (section 0). -/
def linSynth : Synth := ⟨8, kLin, 2 ^ 141, 256, Equaliser.default⟩

/-- A synthesizer that keeps the invariant, at full level. -/
def unitSynth : Synth := ⟨8, unitKernel 8, levelOne, 2 ^ 31, Equaliser.default⟩

/-- An oscillator at power-on but for its binding and its last amplitude. -/
def boundOsc (out : Option (Fin 4)) (amp : Int) : Osc Config.chip :=
  { Osc.powerOn Config.chip with output := out, lastAmp := amp }

/-- A device with buffers 0 and 1 at the standard rates, the synthesizer `y` three times, oscillator 0 as given, the
others at power-on, the registers `regs`, and everything else at power-on. -/
def deviceOf (y : Synth) (o : Osc Config.chip) (regs : Memory) : Device Config.chip where
  fault := none
  buf := #v[standardBuffer, standardBuffer, Buffer.powerOn, Buffer.powerOn]
  syn := #v[y, y, y]
  osc := #v[o, Osc.powerOn Config.chip, Osc.powerOn Config.chip, Osc.powerOn Config.chip]
  regs := regs
  ram := Vector.replicate 32 0
  latch := ⟨0, by decide⟩
  lastTime := 0
  fsNext := 3200
  fsStep := 0

/-- A machine around a device, with an empty command interface. -/
def stateOf (d : Device Config.chip) : State := ⟨d, [], [], 0⟩

/-- The state an instruction leads to (the state itself if it stops, which no instruction does). -/
def after (i : Instr) (s : State) : State :=
  match exec i s with
  | .next t => t
  | .fault _ => s
  | .refused _ => s

/-- The status and the samples of the last response. -/
def answer (s : State) : Option (Byte × List Int) :=
  s.outbox.getLast?.map fun r => (r.status.code, r.samples.map BitVec.toInt)

/-- The registers of vector V1: pulse A at constant volume 15, duty 4/8, period register `n`, enabled. -/
def pulseRegs (n : Byte) : Memory := [(0x00, 0x9F), (0x02, n), (0x03, 0x80), (0x10, 0x01)]

/-- Oscillator 0 bound to buffer 0 with the registers of V1, ready to run. -/
def pulseState (n : Byte) : State := stateOf (deviceOf linSynth (boundOsc (some 0) 0) (pulseRegs n))

/-- Phase, delay and last amplitude of oscillator 0. -/
def oscView (s : State) : Nat × Nat × Int :=
  ((s.dev.oscAt 0).phase, (s.dev.oscAt 0).delay.toNat, (s.dev.oscAt 0).lastAmp)

/-- Slots `3` to `6` of a buffer. -/
def slotView (s : State) (b : Fin 4) : List Int := [3, 4, 5, 6].map fun k => ((s.dev.bufAt b).dl[k]!).toInt

/-! ### Buffer commands -/

/-- Vector B1.1 on a power-on buffer. -/
theorem test_setSampleRate :
    let s := after (.setSampleRate 2 48000 768000) (pulseState 3)
    answer s = some (0x00, []) ∧ (s.dev.bufAt 2).factor = 4096 ∧ (s.dev.bufAt 2).bassShift = 9 := by decide

/-- Vectors B1.8, B1.11, E22. -/
theorem test_setSampleRate_rejects :
    ([Instr.setSampleRate 0 48000 47999, .setSampleRate 0 0xFFFFFFFF 768000, .setSampleRate 5 0 0].map
      fun i => answer (after i (pulseState 3))) = [some (0x01, []), some (0x01, []), some (0x04, [])] := by decide

/-- Vectors B2.4 and B2.3. -/
theorem test_setBassFreq :
    ((after (.setBassFreq 0 10) (pulseState 3)).dev.bufAt 0).bassShift = 10 ∧
    ((after (.setBassFreq 0 0xFFFFFFFB) (pulseState 3)).dev.bufAt 0).bassShift = 31 := by decide

/-- A buffer of a vector of section 2.2.3: accumulator, oldest slot and bass shift. -/
def readState (acc slot : Int) (shift : Nat) : State :=
  stateOf ((deviceOf linSynth (boundOsc none 0) []).setBuf 0 { standardBuffer with
    acc := BitVec.ofInt 64 acc, dl := (Vector.replicate 17 0).set 0 (BitVec.ofInt 64 slot), bassShift := shift })

/-- Vectors B3.2 (saturation) and B3.4 (a negative accumulator leaks towards 0). -/
theorem test_readSample :
    answer (after (.readSample 0) (readState 0 (2 ^ 31) 31)) = some (0x00, [32767]) ∧
    answer (after (.readSample 0) (readState (-5) 0 31)) = some (0x00, [-1]) := by decide

/-- Vector B3.9: the accumulator wraps. -/
theorem test_readSample_wraps :
    ((after (.readSample 0) (readState (2 ^ 63 - 1) 1 31)).dev.bufAt 0).acc.toInt = 9223372032559808513 := by decide

/-- Vectors B3.1 and B3.8. -/
theorem test_readSamples :
    answer (after (.readSamples 0 2) (readState 0 (2 ^ 23) 13)) = some (0x00, [128, 127]) ∧
    answer (after (.readSamples 0 2) (readState (2 ^ 30) 0 1)) = some (0x00, [8192, 4096]) := by decide

/-- Vectors E14 and E16. -/
theorem test_read_edges :
    answer (after (.readSamples 0 0) (readState 5 5 1)) = some (0x00, []) ∧
    answer (after (.readSample 4) (readState 5 5 1)) = some (0x04, []) := by decide

/-- R215: `FLUSH` empties the buffer and keeps its rates. -/
theorem test_flush :
    let b := (after (.flush 0) (readState 5 7 1)).dev.bufAt 0
    b.acc = 0 ∧ b.dl[0] = 0 ∧ b.factor = 4096 ∧ b.bassShift = 1 := by decide

/-! ### Synthesizer commands -/

/-- Vectors S1.1 and S1.11. -/
theorem test_setVolume :
    ((after (.setVolume 0 0x3F800000) (pulseState 3)).dev.synAt 0).deltaFactor = 65536 ∧
    answer (after (.setVolume 0 0x36800000) (pulseState 3)) = some (0x02, []) := by decide

/-- Vectors S1.16 to S1.20 and E18. -/
theorem test_setVolume_refuses :
    ([0xBF000000, 0x3F800001, 0x7FC00000, 0x7F800000, 0xFF800000].map
      fun u => answer (after (.setVolume 0 u) (pulseState 3))) = List.replicate 5 (some (0x21, [])) ∧
    answer (after (.setVolume 3 0x7FC00000) (pulseState 3)) = some (0x04, []) := by decide

/-- Vectors S2.3 to S2.5. -/
theorem test_setTreble_refuses :
    ([Instr.setTreble 3 0 0 0, .setTreble 0 0 0x7FC00000 0, .setTreble 0 0 0x7F800000 0].map
      fun i => answer (after i (pulseState 3))) = [some (0x04, []), some (0x21, []), some (0x21, [])] := by decide

/-- Vector S2.2, at power-on: level 0, so no kernel is too loud. -/
theorem test_setTreble :
    ((after (.setTreble 1 3000 0 8000) State.reset).dev.synAt 1).eq = ⟨0, 8000, 3000⟩ := by rfl

/-! ### Splats and oscillators -/

/-- The slots 3 to 6 a splat leaves in buffer 0 of the V1 device. -/
def splatView (t : Nat) (delta : Int) : Option (List Int) :=
  match offset (0 : Fin Config.chip.numSynth) t delta (0 : Fin Config.chip.numBuf) (pulseState 3).dev with
  | .ok d => some (slotView (stateOf d) 0)
  | .trap _ _ => none

/-- Vectors O2 and O4. -/
theorem test_offset :
    splatView 8 15 = some [62914560, 62914560, 0, 0] ∧ splatView 4 (-7) = some [-44040192, -14680064, 0, 0] := by
  decide

/-- Vectors O1.8 and O1.9: the lookahead window. -/
theorem test_offset_window : (splatView 159 1).isSome = true ∧ splatView 160 1 = none := by decide

/-- Vector V1a: `(0, +15)` and `(12, -15)`. -/
theorem test_runUntil_pulse :
    let s := after (.runUntil 16) (pulseState 3)
    answer s = some (0x00, []) ∧ oscView s = (4, 0, 0) ∧ slotView s 0 = [94371840, -94371840, 0, 0] := by decide

/-- Vector V2a: an inaudible pulse holds half its volume. -/
theorem test_runUntil_inaudible : oscView (after (.runUntil 16) (pulseState 0)) = (0, 0, 7) := by decide

/-- Vectors V4a (the delay carried) and V10a. -/
theorem test_runUntil_delay :
    oscView (after (.runUntil 50) (pulseState 99)) = (1, 50, 15) ∧
    oscView (after (.runUntil 16) (pulseState 99)) = (1, 84, 15) := by decide

/-- Vector V6, at its first cycle: the amplitude at the start is 6, and the expiry there moves to 14. -/
theorem test_runUntil_wave :
    let d := deviceOf linSynth (boundOsc none 0) [(0x08, 0x02), (0x09, 0x03), (0x10, 0x04)]
    let s := stateOf { d with
      osc := d.osc.set 2 (boundOsc (some 1) 0)
      ram := ((Vector.replicate 32 1).set 0 3).set 1 7 }
    let t := after (.runUntil 1) s
    (t.dev.oscAt 2).lastAmp = 14 ∧ slotView t 1 = [14 * 2 ^ 23, 0, 0, 0] := by decide

/-- Vector V7a: the noise register after the four expiries in 16 cycles. -/
theorem test_runUntil_noise :
    let d := deviceOf linSynth (boundOsc none 0) [(0x0D, 0x1F), (0x10, 0x08)]
    let t := after (.runUntil 16) (stateOf { d with osc := d.osc.set 3 (boundOsc (some 1) 0) })
    (t.dev.oscAt 3).lfsr = 0x0800 ∧ (t.dev.oscAt 3).lastAmp = 0 ∧ slotView t 1 = [0, 0, 0, 0] := by decide

/-- Vector V10b: detaching splats the level out at `last_time`. -/
theorem test_setOutput_detach :
    let d := { deviceOf linSynth (boundOsc (some 0) 15) (pulseRegs 99) with lastTime := 16 }
    let s := after (.setOutput 0 0xFFFFFFFF) (stateOf d)
    answer s = some (0x00, []) ∧ (s.dev.oscAt 0).output = none ∧ (s.dev.oscAt 0).lastAmp = 0 ∧
      slotView s 0 = [0, -125829120, 0, 0] := by decide

/-- Vectors V10f and E29. -/
theorem test_setOutput_out_of_range :
    answer (after (.setOutput 0 4) (pulseState 3)) = some (0x04, []) ∧
    answer (after (.setOutput 0 0xFFFFFFFE) (pulseState 3)) = some (0x04, []) := by decide

/-- The divider after each of `n` sweep clocks of vector W1 or W2, and `PA_NHI` at the end. -/
def sweepView (sweep nhi : Byte) (n : Nat) : Nat × Byte :=
  let d := deviceOf linSynth (boundOsc none 0) [(0x01, sweep), (0x03, nhi)]
  let e := (sweepClock (0 : Fin Config.chip.numOsc))^[n] d
  (e.divider 0x02 0x03, e.reg 0x03)

/-- Vectors W1 (clocks 1, 5 and 6) and W2 (clock 1). -/
theorem test_sweep :
    sweepView 0x81 0x81 1 = (0x180, 0x81) ∧ sweepView 0x81 0x81 5 = (0x798, 0x87) ∧
    sweepView 0x81 0x81 6 = (0x798, 0x87) ∧ sweepView 0x89 0x81 1 = (0x080, 0x80) := by decide

/-! ### Chip commands -/

/-- Vector C4.1, its last write: the data reaches the RAM at the latch, which then advances. -/
theorem test_write_ram :
    let d := { deviceOf linSynth (boundOsc none 0) [(0x0B, 0x9F)] with latch := ⟨31, by decide⟩ }
    let s := after (.write 0x0C 0xF6) (stateOf d)
    s.dev.ram[31] = 6 ∧ s.dev.latch.1 = 0 ∧ s.dev.reg 0x0C = 0xF6 := by decide

/-- Vectors C4.4 and E25. -/
theorem test_write_trigger :
    let s := after (.write 0x03 0x80) (stateOf (deviceOf linSynth { boundOsc none 0 with phase := 5, delay := 9 } []))
    oscView s = (0, 9, 0) ∧ (s.dev.oscAt 0).envStart = true ∧
      answer (after (.write 0x11 0) s) = some (0x03, []) := by decide

/-- The times after a command on a silent device. -/
def timeView (i : Instr) (last next : Nat) : Nat × Nat × Nat :=
  let d := { deviceOf linSynth (boundOsc none 0) [] with lastTime := BitVec.ofNat 32 last, fsNext := next }
  let e := (after i (stateOf d)).dev
  (e.lastTime.toNat, e.fsNext, e.fsStep)

/-- Vectors C1.1, C1.2a and C1.6: a tick due at the end is deferred. -/
theorem test_runUntil_ticks :
    timeView (.runUntil 3300) 0 3200 = (3300, 6400, 1) ∧ timeView (.runUntil 3200) 0 3200 = (3200, 3200, 0) ∧
    timeView (.runUntil 13000) 0 3200 = (13000, 16000, 0) := by decide

/-- Vectors C1.3, C1.4a and C1.4c. -/
theorem test_endFrame :
    timeView (.endFrame 16) 10 3200 = (0, 3184, 0) ∧ timeView (.endFrame 3200) 0 3200 = (0, 0, 0) ∧
    timeView (.endFrame 1) 0 0 = (0, 3199, 1) := by decide

/-- Vectors F1 and F2: time runs backward. -/
theorem test_regression :
    let s := stateOf { deviceOf linSynth (boundOsc none 0) [] with lastTime := 100 }
    answer (after (.runUntil 99) s) = some (0x11, []) ∧ answer (after (.endFrame 99) s) = some (0x11, []) ∧
    answer (after (.readSample 7) (after (.runUntil 99) s)) = some (0x10, []) := by decide

/-- Vector F3, and R264: the first splat into an unconfigured buffer, and one past the lookahead window. -/
theorem test_splat_faults :
    answer (after (.endFrame 16) (stateOf (deviceOf linSynth (boundOsc (some 3) 0) (pulseRegs 7)))) =
      some (0x13, []) ∧
    answer (after (.runUntil 200) (stateOf { deviceOf linSynth (boundOsc (some 0) 15) (pulseRegs 7) with
      lastTime := 159 })) = some (0x12, []) := by decide

/-- Vector C5.1: `RESET` keeps the binding and the configuration. -/
theorem test_reset :
    let s := after .reset (stateOf { deviceOf linSynth (boundOsc (some 0) 15) (pulseRegs 99) with lastTime := 16 })
    answer s = some (0x00, []) ∧ s.dev.lastTime = 0 ∧ s.dev.fsNext = 3200 ∧ s.dev.reg 0x10 = 0 ∧
      (s.dev.oscAt 0).output = some 0 ∧ (s.dev.oscAt 0).lastAmp = 0 ∧ (s.dev.bufAt 0).factor = 4096 ∧
      (s.dev.synAt 0).deltaFactor = 256 := by decide

/-! ### Witnesses: the hypotheses of the statements can be met -/

/-- A device in the middle of a frame that keeps the invariant: oscillator 0 sounds in buffer 0 at level 15. -/
def playingDevice : Device Config.chip :=
  { deviceOf unitSynth (boundOsc (some 0) 15) (pulseRegs 0xFE) with lastTime := 100 }

/-- The machine around it. -/
def playing : State := stateOf playingDevice

/-- The machine around it with bytes on the transport. -/
def playingWith (bytes : List Byte) : State := { playing with inbox := bytes }

/-- The machine around it after a fault. -/
def faulted (c : FaultCode) : State := stateOf { playingDevice with fault := some c }

/-- A micro-operation completed. -/
def isOk : Progress Config.chip → Bool
  | .ok _ => true
  | .trap _ _ => false

theorem exists_of_isOk {p : Progress Config.chip} (h : isOk p = true) : ∃ d, p = .ok d := by
  cases p with
  | ok d => exact ⟨d, rfl⟩
  | trap d c => simp [isOk] at h

theorem exec_after {i : Instr} {s : State} : exec i s = .next (after i s) := by
  obtain ⟨t, h⟩ := issue_next s (bodyOf i)
  simp only [after, exec_eq_issue, h]

theorem standardBuffer_inv : standardBuffer.Inv := by
  refine ⟨.inr ⟨by decide, by decide, by decide, by decide, by decide⟩, by decide, by decide, by decide⟩

theorem silentBuffer_inv : Buffer.powerOn.Inv := by
  refine ⟨.inl ⟨rfl, rfl, rfl⟩, by decide, by decide, by decide⟩

theorem unitSynth_inv : unitSynth.Inv .q8 :=
  ⟨rfl, unitKernel_lawful (by decide), by decide, by decide, by decide⟩

theorem powerOnOsc_inv : ∀ i : Fin 4, (Osc.powerOn Config.chip).Inv (voiceOf Config.chip i) := by
  intro i
  fin_cases i <;> exact ⟨by decide, by decide, by decide, by decide, by decide⟩

theorem boundOsc_inv : (boundOsc (some 0) 15).Inv (voiceOf Config.chip 0) :=
  ⟨by decide, by decide, by decide, by decide, by decide⟩

theorem restOscs_inv {o : Osc Config.chip} (h : o.Inv (voiceOf Config.chip 0)) (i : Fin 4) :
    ((#v[o, Osc.powerOn Config.chip, Osc.powerOn Config.chip, Osc.powerOn Config.chip])[i]).Inv
      (voiceOf Config.chip i) := by
  fin_cases i
  exacts [h, powerOnOsc_inv 1, powerOnOsc_inv 2, powerOnOsc_inv 3]

theorem testBuffers_inv (b : Fin 4) :
    ((#v[standardBuffer, standardBuffer, Buffer.powerOn, Buffer.powerOn])[b]).Inv := by
  fin_cases b
  exacts [standardBuffer_inv, standardBuffer_inv, silentBuffer_inv, silentBuffer_inv]

theorem testSynths_inv (y : Fin 3) : ((#v[unitSynth, unitSynth, unitSynth])[y]).Inv Config.chip.tierOf[y] := by
  fin_cases y
  exacts [unitSynth_inv, unitSynth_inv, unitSynth_inv]

theorem playing_inv : playing.Inv :=
  ⟨testBuffers_inv, testSynths_inv, restOscs_inv boundOsc_inv, by decide, by decide, by decide, by decide⟩

/-! Encoding and transport. -/

theorem witness_EncodeDecodeRoundTrip : decode ⟨0x07FFFFFF, 0xFFFFFFFF, 0xFFFFFFFF⟩ =
    .ok (.setTreble 0xFF 0xFFFF 0xFFFFFFFF 0xFFFFFFFF) := by decide

theorem witness_FetchTakesWholeCommands :
    fetchCommand (List.replicate 12 0xFF) = .command ⟨0xFFFFFFFF, 0xFFFFFFFF, 0xFFFFFFFF⟩ [] ∧
    fetchCommand [0x09] = .incomplete ∧ fetchCommand (List.replicate 11 0x09) = .incomplete := by decide

theorem witness_TableWordsRoundTrip : playing.dev.fault = none := rfl

/-! A step and its outcomes. -/

theorem witness_StepRunsDecodedCommand :
    (playingWith ((encode (.write 0x10 0xFF)).bytes ++ [0x01])).inbox = (encode (.write 0x10 0xFF)).bytes ++ [0x01] ∧
    (playingWith ((encode (.write 0x10 0xFF)).bytes ++ [0x01])).dev.fault = none ∧
    decode (encode (.write 0x10 0xFF)) = .ok (.write 0x10 0xFF) := ⟨rfl, rfl, by decide⟩

theorem witness_IllegalCommandIsRefused :
    (playingWith (Cmd.bytes ⟨0x0D000000, 0, 0⟩)).inbox = Cmd.bytes ⟨0x0D000000, 0, 0⟩ ++ [] ∧
    (playingWith (Cmd.bytes ⟨0x0D000000, 0, 0⟩)).dev.fault = none ∧
    decode ⟨0x0D000000, 0, 0⟩ = .error .unknownOpcode ∧ decode ⟨0x0C000000, 0, 1⟩ = .error .reservedField :=
  ⟨rfl, rfl, by decide, by decide⟩

theorem witness_FaultedDeviceAnswersFaulted :
    ({ faulted .timeRegression with inbox := Cmd.bytes ⟨0, 0, 0⟩ } : State).dev.fault = some .timeRegression ∧
    ({ faulted .timeRegression with inbox := Cmd.bytes ⟨0, 0, 0⟩ } : State).inbox = Cmd.bytes ⟨0, 0, 0⟩ ++ [] :=
  ⟨rfl, rfl⟩

theorem witness_IdleAndPartialTransport :
    playing.inbox = [] ∧ 0 < (playingWith [0x09]).inbox.length ∧
    (playingWith (List.replicate 11 0)).inbox.length < 12 := by decide

theorem witness_EveryCommandIsAnsweredOnce :
    (playingWith ((encode (.readSamples 0 2)).bytes)).inbox = (encode (.readSamples 0 2)).bytes ++ [] ∧
    ((after (.readSamples 0 2) playing).outbox.map Response.samples) ≠ [[]] := ⟨rfl, by decide⟩

/-- A command of each class: an error, a refusal, and a success. -/
theorem witness_ErrorsAndRefusalsChangeNothing :
    (after (.readSample 4) playing).outbox = [⟨.error .indexOutOfRange, []⟩] ∧
    (after (.setVolume 0 0x7FC00000) playing).outbox = [⟨.refusal .invalidArgument, []⟩] ∧
    (after (.flush 0) playing).outbox = [⟨.ok, []⟩] := by decide

/-- A command on a faulted device, and one that faults. -/
theorem witness_FaultsAreRecordedForGood :
    (faulted .timeOutOfRange).dev.fault = some .timeOutOfRange ∧
    exec .reset (faulted .timeOutOfRange) = .next (after .reset (faulted .timeOutOfRange)) ∧
    playing.dev.fault = none ∧ exec (.runUntil 99) playing = .next (after (.runUntil 99) playing) ∧
    (after (.runUntil 99) playing).outbox = playing.outbox ++ [⟨.fault .timeRegression, []⟩] :=
  ⟨rfl, exec_after, rfl, exec_after, by decide⟩

theorem witness_StatusesOfEachCommand :
    playing.Inv ∧ playing.dev.fault = none ∧ exec (.runUntil 99) playing = .next (after (.runUntil 99) playing) ∧
    (after (.runUntil 99) playing).outbox = playing.outbox ++ [⟨.fault .timeRegression, []⟩] :=
  ⟨playing_inv, rfl, exec_after, by decide⟩

/-- Each clause at its boundary: the first index out of range, a NaN, the last address. -/
theorem witness_OperandChecksComeFirst :
    playing.dev.fault = none ∧
    operandError Config.chip (.readSample 4) = some (.error .indexOutOfRange) ∧
    operandError Config.chip (.write 0x11 0) = some (.error .addressOutOfRange) ∧
    operandError Config.chip (.setVolume 2 0x7FC00000) = some (.refusal .invalidArgument) ∧
    operandError Config.chip (.write 0x10 0) = none := by decide

/-! SynthesisBuffer. -/

theorem witness_RequantIsLargestMultiple :
    (0 : Int) < 48000 ∧ (0 : Int) < 47999 ∧ (48000 : Int) ∣ 48000 ∧ (48000 : Int) ≤ 48000 := by decide

/-- The ratios of the rule, and the first at which the factor rounds to 0. -/
theorem witness_FactorIsRounded :
    (0 : Int) < 1 ∧ (1 : Int) ≤ 131073 ∧ (1 : Int) / 1 = 1 ∧ (16 : Int) / 1 = 16 ∧ (40 : Int) / 1 = 40 ∧
    (131072 : Int) / 1 = 131072 ∧ (131072 : Int) < 131073 / 1 := by decide

/-- `f = 0`, `f = 1`, and a cutoff and a rate of 0. -/
theorem witness_BassShiftClosedForm :
    ((0 : Int) ≤ 0 ∨ (48000 : Int) ≤ 0) ∧ ((16 : Int) ≤ 0 ∨ (0 : Int) ≤ 0) ∧
    (0 : Int) < 1 ∧ (0 : Int) < 65537 ∧ (1 : Int) * 2 ^ 16 / 65537 = 0 ∧
    (0 : Int) < 65536 ∧ 1 ≤ (1 : Int) * 2 ^ 16 / 65536 := by decide

/-- The largest ratio that converts. -/
theorem witness_SetSampleRateConfigures :
    playing.dev.fault = none ∧ (3 : Byte).toNat = (3 : Fin Config.chip.numBuf).1 ∧ 0 < (1 : Word).toInt ∧
    (1 : Word).toInt ≤ (131072 : Word).toInt ∧ (131072 : Word).toInt / (1 : Word).toInt ≤ 131072 := by decide

/-- Each reason at its boundary. -/
theorem witness_SetSampleRateRejects :
    playing.dev.fault = none ∧ (3 : Byte).toNat = (3 : Fin Config.chip.numBuf).1 ∧ (0 : Word).toInt ≤ 0 ∧
    (0xFFFFFFFF : Word).toInt ≤ 0 ∧ (47999 : Word).toInt < (48000 : Word).toInt ∧
    131072 < (131073 : Word).toInt / (1 : Word).toInt := by decide

theorem witness_SetBassFreqStoresCutoff :
    playing.dev.fault = none ∧ (3 : Byte).toNat = (3 : Fin Config.chip.numBuf).1 := by decide

theorem witness_ReadSampleConsumesOneSlot :
    playing.dev.fault = none ∧ (0 : Byte).toNat = (0 : Fin Config.chip.numBuf).1 := by decide

theorem witness_ReadSamplesAreSuccessiveReads :
    playing.dev.fault = none ∧ (3 : Byte).toNat < 4 ∧ 0 + 1 < 2 ^ 32 ∧ (2 ^ 32 - 2) + 1 < 2 ^ 32 := by decide

theorem witness_SilenceConverges :
    17 ≤ 17 ∧ ({ standardBuffer with bassShift := 16, acc := -1 } : Buffer).bassShift ≤ 16 := by decide

theorem witness_FlushClearsBuffer :
    playing.dev.fault = none ∧ (3 : Byte).toNat = (3 : Fin Config.chip.numBuf).1 := by decide

/-! StepSynthesizer. -/

/-- The smallest denormal, 1 and the largest finite value are finite; a negative zero has a level, the next value
above 1 has none. -/
theorem witness_BinaryFloatValue :
    (0x00000001 : F32).toNat / 2 ^ 23 % 256 = 0 ∧ (0x3F800000 : F32).toNat / 2 ^ 23 % 256 = 127 ∧
    (0x7F7FFFFF : F32).toNat / 2 ^ 23 % 256 = 254 ∧ (0x7F800000 : F32).toNat / 2 ^ 23 % 256 = 255 ∧
    2 ^ 31 ≤ (0x80000000 : F32).toNat ∧ f32Level 0x80000000 = some 0 ∧ f32Level 0x3F800000 = some levelOne ∧ f32Level 0x3F800001 = none := by decide

theorem witness_DeltaFactorIsRounded : 0 < 1 ∧ deltaFactorOf (2 ^ 117) 1 = 1 ∧ deltaFactorOf (2 ^ 117 - 1) 1 = 0 := by
  decide

/-- Level 0, level 1, and the smallest level whose delta factor is positive. -/
theorem witness_SetVolumeAccepts :
    playing.dev.fault = none ∧ (2 : Byte).toNat = (2 : Fin Config.chip.numSynth).1 ∧
    f32Finite 0x2F800000 = true ∧ f32Level 0x2F800000 = some (2 ^ 117) ∧ f32Level 0x3F800000 = some levelOne ∧
    1 ≤ deltaFactorOf (2 ^ 117) (playing.dev.synAt (2 : Fin Config.chip.numSynth)).kernel.unit ∧
    f32Level 0x80000000 = some 0 := by decide

/-- The smallest denormal as a level is too low for every kernel unit. -/
theorem level_too_low {unit : Nat} (h : 1 ≤ unit) : deltaFactorOf 1 unit = 0 := by
  unfold deltaFactorOf Config.dfBits
  generalize hp : 2 ^ 149 = p
  have hp2 : 2 ^ 32 < p := by rw [← hp]; exact Nat.pow_lt_pow_right (by decide) (by decide)
  apply Nat.div_eq_of_lt
  nlinarith

/-- A device whose synthesizer 2 holds the smallest positive level. -/
def faint : State :=
  stateOf (playingDevice.setSyn (2 : Fin Config.chip.numSynth) { unitSynth with level := 1, deltaFactor := 0 })

theorem witness_VolumeTooLowIsRejected :
    faint.dev.fault = none ∧ (2 : Byte).toNat = (2 : Fin Config.chip.numSynth).1 ∧ f32Finite 0x00000001 = true ∧
    f32Level 0x00000001 = some 1 ∧ 0 < 1 ∧
    deltaFactorOf 1 (faint.dev.synAt (2 : Fin Config.chip.numSynth)).kernel.unit = 0 ∧
    0 < (faint.dev.synAt (2 : Fin Config.chip.numSynth)).level ∧
    deltaFactorOf (faint.dev.synAt (2 : Fin Config.chip.numSynth)).level
      (kernelOf (faint.dev.synAt (2 : Fin Config.chip.numSynth)).width ⟨1, 8000, 3000⟩).unit = 0 := by
  refine ⟨rfl, rfl, by decide, by decide, by decide, by decide, by decide, ?_⟩
  exact level_too_low (kernelOf_law (by decide) _).2.1

/-- The unit of a lawful kernel of width 8 is at most `2^18`, so full level is never too low for it. -/
theorem full_level_is_loud {k : Kernel} (h : k.lawful 8) : 1 ≤ deltaFactorOf levelOne k.unit := by
  have hs := Kernel.row_sum h (p := 0) (by decide)
  have hu : (k.unit : Int) ≤ 2 ^ 18 := by
    have t := fun j => (Kernel.tap_range h 0 j).2
    have := t 0; have := t 1; have := t 2; have := t 3; have := t 4; have := t 5; have := t 6; have := t 7
    simp only [List.range, List.range.loop, List.map_cons, List.map_nil, List.sum_cons, List.sum_nil] at hs
    omega
  have hn : k.unit ≤ 2 ^ 18 := by exact_mod_cast hu
  have h1 := h.2.1
  have e : k.unit * 2 ^ 149 ≤ 2 ^ 18 * 2 ^ 149 := Nat.mul_le_mul_right _ hn
  rw [deltaFactorOf, Nat.le_div_iff_mul_le (by positivity), Nat.one_mul, Nat.mul_assoc 2 k.unit, levelOne,
    Nat.mul_right_comm]
  refine le_trans ?_ (Nat.le_add_right _ _)
  calc 2 * (k.unit * 2 ^ 149) ≤ 2 * (2 ^ 18 * 2 ^ 149) := Nat.mul_le_mul_left _ e
    _ ≤ 2 * 2 ^ Config.dfBits * 2 ^ 149 := by decide

/-- Synthesizer 2 at full level, and at level 0. -/
theorem witness_SetTrebleRegenerates :
    playing.dev.fault = none ∧ (2 : Byte).toNat = (2 : Fin Config.chip.numSynth).1 ∧ f32Finite 0x7F7FFFFF = true ∧
    1 ≤ deltaFactorOf (playing.dev.synAt (2 : Fin Config.chip.numSynth)).level
      (kernelOf (playing.dev.synAt (2 : Fin Config.chip.numSynth)).width ⟨0x7F7FFFFF, 8000, 3000⟩).unit ∧
    (State.reset.dev.synAt (2 : Fin Config.chip.numSynth)).level = 0 :=
  ⟨rfl, rfl, by decide, full_level_is_loud (kernelOf_law (by decide) _), rfl⟩

theorem witness_KernelLawAndBounds : (0 : Nat) ≤ levelOne ∧ levelOne ≤ levelOne ∧ |(65535 : ℤ)| < 2 ^ 16 := by
  decide

/-- An unconfigured buffer, the last time in the window and the first past it. -/
theorem witness_OffsetChecksThenSplats :
    (playingDevice.bufAt (3 : Fin Config.chip.numBuf)).factor.toNat = 0 ∧
    (playingDevice.bufAt (0 : Fin Config.chip.numBuf)).factor.toNat = 4096 ∧
    (playingDevice.synAt (0 : Fin Config.chip.numSynth)).width = 8 ∧
    17 < 160 * 4096 / 2 ^ 16 + 8 ∧ 159 * 4096 / 2 ^ 16 + 8 ≤ 17 := by decide

theorem witness_SplatConservesDelta :
    (playingDevice.synAt (0 : Fin Config.chip.numSynth)).kernel.lawful
      (playingDevice.synAt (0 : Fin Config.chip.numSynth)).width ∧
    ∃ d', offset (0 : Fin Config.chip.numSynth) 159 (-15) (0 : Fin Config.chip.numBuf) playingDevice = .ok d' :=
  ⟨unitKernel_lawful (by decide), exists_of_isOk (by decide)⟩

/-- Two splats that overlap in one buffer. -/
theorem witness_SplatsCommute :
    (∃ d₁, offset (0 : Fin Config.chip.numSynth) 100 15 (0 : Fin Config.chip.numBuf) playingDevice = .ok d₁) ∧
    ∃ d₂, offset (1 : Fin Config.chip.numSynth) 159 (-7) (0 : Fin Config.chip.numBuf) playingDevice = .ok d₂ :=
  ⟨exists_of_isOk (by decide), exists_of_isOk (by decide)⟩

/-- An amplitude that is held, a splat in the window, and one past it. -/
theorem witness_UpdateSplatsTheDifference :
    (playingDevice.oscAt (0 : Fin Config.chip.numOsc)).output = some (0 : Fin Config.chip.numBuf) ∧
    (15 : Int) = (playingDevice.oscAt (0 : Fin Config.chip.numOsc)).lastAmp ∧
    (0 : Int) ≠ (playingDevice.oscAt (0 : Fin Config.chip.numOsc)).lastAmp ∧
    (∃ e, offset (synthOf Config.chip (0 : Fin Config.chip.numOsc)) 159 (0 - 15) (0 : Fin Config.chip.numBuf)
      playingDevice = .ok e) ∧
    offset (synthOf Config.chip (0 : Fin Config.chip.numOsc)) 160 (0 - 15) (0 : Fin Config.chip.numBuf)
      playingDevice = .trap playingDevice .timeOutOfRange :=
  ⟨rfl, rfl, by decide, exists_of_isOk (by decide), by decide⟩

/-! Oscillators. -/

theorem witness_AmplitudeOfEachVoice :
    (0 : Fin Config.chip.numOsc).1 = (0 : Fin 2).1 ∧ (1 : Fin Config.chip.numOsc).1 = (1 : Fin 2).1 ∧
    (playingDevice.oscAt (2 : Fin Config.chip.numOsc)).phase < 32 ∧
    playingDevice.amp (0 : Fin Config.chip.numOsc) = 15 := by decide

theorem witness_NoiseLoopLengths : 0 < 1 ∧ 14 < 15 ∧ (0x4000 : BitVec 15) ≠ 0 := by decide

theorem witness_AdvanceAdds :
    (playingDevice.oscAt (0 : Fin Config.chip.numOsc)).phase <
      stepsOf Config.chip (voiceOf Config.chip (0 : Fin Config.chip.numOsc)) ∧
    (3 : Fin Config.chip.numOsc).1 = 3 := by decide

/-- A run of one expiry, at `from`, of an audible and bound oscillator; its end is the last time in the window. And a
run of a silent one. -/
theorem witness_RunKeepsTheNextExpiry :
    (∃ d', run (0 : Fin Config.chip.numOsc) 100 160 playingDevice = .ok d') ∧
    100 + (playingDevice.oscAt (0 : Fin Config.chip.numOsc)).delay.toNat +
      0 * playingDevice.period (voiceOf Config.chip (0 : Fin Config.chip.numOsc)) < 160 ∧
    (playingDevice.oscAt (0 : Fin Config.chip.numOsc)).phase <
      stepsOf Config.chip (voiceOf Config.chip (0 : Fin Config.chip.numOsc)) ∧
    ¬ (playingDevice.silent (0 : Fin Config.chip.numOsc) = true ∨
      playingDevice.inaudible (voiceOf Config.chip (0 : Fin Config.chip.numOsc)) = true) ∧
    (playingDevice.oscAt (0 : Fin Config.chip.numOsc)).output ≠ none ∧
    (∃ d', run (1 : Fin Config.chip.numOsc) 100 160 playingDevice = .ok d') ∧
    playingDevice.silent (1 : Fin Config.chip.numOsc) = true :=
  ⟨exists_of_isOk (by decide), by decide, by decide, by decide, by decide, exists_of_isOk (by decide), by decide⟩

/-- Oscillator 1 is silent and unbound: it holds its amplitude 0 for ever. -/
theorem witness_SteadyRunNeverSplats :
    100 ≤ 160 ∧ playingDevice.amp (1 : Fin Config.chip.numOsc) =
      (playingDevice.oscAt (1 : Fin Config.chip.numOsc)).lastAmp ∧
    ∀ n, 100 + (playingDevice.oscAt (1 : Fin Config.chip.numOsc)).delay.toNat +
        n * playingDevice.period (voiceOf Config.chip (1 : Fin Config.chip.numOsc)) < 160 →
      (advance (1 : Fin Config.chip.numOsc) (n + 1) playingDevice).amp (1 : Fin Config.chip.numOsc) =
        (playingDevice.oscAt (1 : Fin Config.chip.numOsc)).lastAmp :=
  ⟨by decide, by decide, fun n _ => by rfl⟩

theorem witness_RunSplitsAnywhere :
    100 ≤ 101 ∧ 101 ≤ 160 ∧ ∃ d', run (0 : Fin Config.chip.numOsc) 100 160 playingDevice = .ok d' :=
  ⟨by decide, by decide, exists_of_isOk (by decide)⟩

theorem witness_EnvelopeDecay : ({ boundOsc none 0 with envStart := true } : Osc Config.chip).envStart = true := rfl

/-- A device whose pulse A sweeps, with register bytes `sweep` and `nhi`. -/
def sweeping (sweep nhi : Byte) : Device Config.chip :=
  deviceOf unitSynth (boundOsc none 0) [(0x01, sweep), (0x02, 0xFF), (0x03, nhi)]

/-- Vector W5's kind, a mute; and a target of exactly 0x7FF, which still writes back. -/
theorem witness_SweepClockWritesBack :
    (sweeping 0x81 0x87).regs.wf ∧ (0 : Fin Config.chip.numOsc).1 = (0 : Fin 2).1 ∧
    2047 = (sweeping 0x81 0x87).divider (4 * (0 : Fin 2) + 2) (4 * (0 : Fin 2) + 3) ∧
    1 = ((sweeping 0x81 0x87).reg (4 * (0 : Fin 2) + 1)).toNat % 8 ∧
    ¬ (2047 + 2047 / 2 ^ 1 ≤ 0x7FF) ∧ (sweeping 0x84 0x85).divider 0x02 0x03 = 1535 ∧ 1365 + 1365 / 2 ^ 1 ≤ 0x7FF ∧
    ((sweeping 0x81 0x87).oscAt (0 : Fin Config.chip.numOsc)).swDiv = 0 ∧
    ((sweeping 0x81 0x87).reg (4 * (0 : Fin 2) + 1)).getLsbD 7 = true := by decide

/-- The same binding; unbound; a retirement in the window and one past it. -/
theorem witness_SetOutputRebinds :
    playing.dev.fault = none ∧ (0 : Byte).toNat = (0 : Fin Config.chip.numOsc).1 ∧
    (0 : Word).toNat = (0 : Fin Config.chip.numBuf).1 ∧
    some (0 : Fin Config.chip.numBuf) = (playing.dev.oscAt (0 : Fin Config.chip.numOsc)).output ∧
    none ≠ (playing.dev.oscAt (0 : Fin Config.chip.numOsc)).output ∧
    (playing.dev.oscAt (0 : Fin Config.chip.numOsc)).lastAmp ≠ 0 ∧
    (playing.dev.bufAt (0 : Fin Config.chip.numBuf)).factor ≠ 0 ∧ inWindow 4096 8 159 ∧ ¬ inWindow 4096 8 160 ∧
    some (3 : Fin Config.chip.numBuf) ≠ (playing.dev.oscAt (1 : Fin Config.chip.numOsc)).output ∧
    (playing.dev.oscAt (1 : Fin Config.chip.numOsc)).output = none := by
  unfold inWindow; decide

/-! Chip. -/

theorem witness_WriteStoresOneByte :
    playing.Inv ∧ playing.dev.fault = none ∧ (0x00 : Half).toNat < 0x11 ∧ (0x10 : Half).toNat < 0x11 :=
  ⟨playing_inv, rfl, by decide, by decide⟩

theorem witness_RepeatedWriteChangesNothing :
    playing.Inv ∧ playing.dev.fault = none ∧ (0x0C : Half).toNat < 0x11 ∧
    ¬ ((0x0C : Half) = 0x0C ∧ (playing.dev.reg 0x0B).getLsbD 7 = true) ∧
    (0x10 : Half).toNat ∈ [0x00, 0x02, 0x04, 0x06, 0x08, 0x09, 0x0D, 0x0E, 0x10] ∧ playing.dev.reg 0x10 = 0x01 :=
  ⟨playing_inv, rfl, by decide, by decide, by decide, by decide⟩

theorem witness_RunUntilBackwardOrNowhere :
    playing.dev.fault = none ∧ (99 : Word).toNat < playing.dev.lastTime.toNat ∧ (100 : Word) = playing.dev.lastTime ∧
    Instr.endFrame 99 ∈ [Instr.runUntil 99, Instr.endFrame 99] := by decide

/-- A run to 160: the last cycle before it, 159, is the last in the window. -/
theorem playing_mayRun : playing.dev.mayRun (160 : Word).toNat := by
  unfold Device.mayRun inWindow; decide

/-- The playing machine with its next tick at time 120. -/
def ticking : State := stateOf { playingDevice with fsNext := 120 }

/-- A run that ends before the next tick, and one that takes it. -/
theorem witness_RunUntilCompletes :
    (playing.Inv ∧ playing.dev.fault = none ∧ playing.dev.lastTime.toNat < (160 : Word).toNat ∧
      playing.dev.mayRun (160 : Word).toNat ∧ (160 : Word).toNat ≤ playing.dev.fsNext) ∧
    ticking.Inv ∧ ticking.dev.fault = none ∧ ticking.dev.lastTime.toNat < (160 : Word).toNat ∧
    ticking.dev.mayRun (160 : Word).toNat ∧ ticking.dev.fsNext < (160 : Word).toNat :=
  ⟨⟨playing_inv, rfl, by decide, playing_mayRun, by decide⟩,
    ⟨testBuffers_inv, testSynths_inv, restOscs_inv boundOsc_inv, by decide, by decide, by decide, by decide⟩,
    rfl, by decide, playing_mayRun, by decide⟩

/-- Oscillator 0 about to rise, bound to `b`, at chip time `t`. -/
def rising (b : Fin 4) (t : Word) : State :=
  stateOf { deviceOf unitSynth (boundOsc (some b) 0) (pulseRegs 0xFE) with lastTime := t }

/-- An unconfigured buffer; and the first time outside the window. -/
theorem witness_RunFaultsAtFirstSplat :
    (rising 3 100).Inv ∧ (rising 0 160).Inv ∧ (rising 3 100).dev.fault = none ∧
    (rising 3 100).dev.lastTime.toNat < (101 : Word).toNat ∧
    ((rising 3 100).dev.oscAt (0 : Fin Config.chip.numOsc)).output = some (3 : Fin Config.chip.numBuf) ∧
    (rising 3 100).dev.amp (0 : Fin Config.chip.numOsc) ≠
      ((rising 3 100).dev.oscAt (0 : Fin Config.chip.numOsc)).lastAmp ∧
    ((rising 3 100).dev.bufAt (3 : Fin Config.chip.numBuf)).factor = 0 ∧
    (rising 0 160).dev.lastTime.toNat < (161 : Word).toNat ∧
    (rising 0 160).dev.amp (0 : Fin Config.chip.numOsc) ≠
      ((rising 0 160).dev.oscAt (0 : Fin Config.chip.numOsc)).lastAmp ∧
    ((rising 0 160).dev.bufAt (0 : Fin Config.chip.numBuf)).factor ≠ 0 ∧ ¬ inWindow 4096 8 160 := by
  refine ⟨?_, ?_, ?_⟩
  · exact ⟨testBuffers_inv, testSynths_inv,
      restOscs_inv ⟨by decide, by decide, by decide, by decide, by decide⟩, by decide, by decide, by decide, by decide⟩
  · exact ⟨testBuffers_inv, testSynths_inv,
      restOscs_inv ⟨by decide, by decide, by decide, by decide, by decide⟩, by decide, by decide, by decide, by decide⟩
  · unfold inWindow; decide

theorem witness_EndFrameRebasesTime :
    playing.Inv ∧ playing.dev.fault = none ∧ playing.dev.lastTime.toNat ≤ (100 : Word).toNat ∧
    playing.dev.lastTime.toNat ≤ (160 : Word).toNat ∧ playing.dev.mayRun (160 : Word).toNat :=
  ⟨playing_inv, rfl, by decide, by decide, playing_mayRun⟩

theorem witness_FrameSequencerTick : (3 : Nat) = 1 ∨ (3 : Nat) = 3 := by decide

theorem witness_ResetReturnsToPowerOn : playing.dev.fault = none := rfl

/-- The playing device and the same one with another history: silent at another time, in another place of the frame. -/
def otherHistory : State :=
  { stateOf { deviceOf unitSynth (boundOsc (some 0) 0) [] with lastTime := 7, fsNext := 20, fsStep := 3 } with
    outbox := [⟨.ok, []⟩] }

theorem witness_ReplayIsBitIdentical :
    let cmds := (encode (.runUntil 16)).bytes
    let s : State := { playing with inbox := (encode .reset).bytes ++ cmds }
    let s' : State := { otherHistory with inbox := (encode .reset).bytes ++ cmds }
    s.dev.SameConfiguration s'.dev ∧ s.dev.fault = none ∧
    (∃ t, core.run (1 + 1) s = .next t) ∧ ∃ t', core.run (1 + 1) s' = .next t' :=
  ⟨⟨rfl, rfl, by decide, by decide⟩, rfl, ⟨_, rfl⟩, ⟨_, rfl⟩⟩

/-! Invariants. -/

theorem witness_StepKeepsInvariant :
    (playingWith (encode (.runUntil 160)).bytes).Inv ∧ ∃ t, step (playingWith (encode (.runUntil 160)).bytes) = .next t :=
  ⟨playing_inv, _, rfl⟩

theorem witness_ChipTimeMovesForward :
    playing.Inv ∧ exec (.endFrame 160) playing = .next (after (.endFrame 160) playing) ∧
    (after (.endFrame 160) playing).dev.fault = none :=
  ⟨playing_inv, exec_after, by decide⟩

theorem witness_RunUntilSplitsAnywhere :
    playing.Inv ∧ playing.dev.fault = none ∧ playing.dev.lastTime.toNat ≤ (100 : Word).toNat ∧
    (100 : Word).toNat ≤ (160 : Word).toNat ∧ (159 : Word).toNat ≤ (160 : Word).toNat ∧
    exec (.runUntil 160) playing = .next (after (.runUntil 160) playing) ∧
    (after (.runUntil 160) playing).dev.fault = none :=
  ⟨playing_inv, rfl, by decide, by decide, by decide, exec_after, by decide⟩

/-! Another chip. -/

/-- A chip that is not REF-1: one buffer, one synthesizer of tier Q16, one pulse without a sweep unit, a window of four
registers, a noise register of seven bits. -/
def tinyChip : ChipConfig where
  numBuf := 1
  numSynth := 1
  numOsc := 1
  tierOf := #v[.q16]
  oscOf := #v[⟨.pulse 0 none 1 2, 0⟩]
  regSize := 4
  pulseClockDiv := 16
  pulseSteps := 4
  waveClockDiv := 16
  waveSteps := 16
  duty := #v[1, 1, 2, 3]
  inaudibleF := 4
  waveRamSize := 16
  lfsrWidth := 7
  lfsrSeed := 1
  tapLong := 1
  tapShort := 2
  noisePeriod := Vector.replicate 16 4
  fsPeriod := 100
  fsSteps := 2
  envOscs := [0]
  sweepSteps := []
  sweepOscs := []
  mixEn := 3
  writeEffects := [(2, .pulseTrigger 0)]
  refClockRate := 1
  refSampleRate := 1
  pulse_ok := by decide
  wave_ok := by decide
  noise_ok := by decide
  ram_ok := by decide
  lfsr_ok := by decide
  fs_ok := by decide
  window_ok := by decide

/-- The machine of that chip in the middle of a frame, with one command on the transport. -/
def tinyState (i : Instr) : State tinyChip :=
  { State.powerOn tinyChip with
    dev := { Device.powerOn tinyChip with regs := [(0, 0x9F)], lastTime := 30 }
    inbox := (encode i).bytes }

/-- The status of the response to a command on that chip, and its registers 2 and 4 after it. -/
def tinyView (i : Instr) : Option (List Status × Byte × Byte) :=
  match stepFor (tinyState i) with
  | .next t => some (t.outbox.map Response.status, t.dev.reg 2, t.dev.reg 4)
  | .fault _ => none
  | .refused _ => none

/-- R4, R40: the register window is that of the chip. -/
theorem test_other_chip :
    tinyView (.write 2 0x80) = some ([.ok], 0x80, 0) ∧
    tinyView (.write 4 0x80) = some ([.error .addressOutOfRange], 0, 0) := by decide

theorem witness_EveryChipKeepsInvariant :
    (tinyState (.runUntil 250)).Inv ∧ ∃ t, stepFor (tinyState (.runUntil 250)) = .next t := by
  refine ⟨⟨fun b => ?_, fun y => ?_, fun i => ?_, fun i b h => ?_, by decide, by decide, by decide⟩, _, rfl⟩
  · simpa [tinyState, Device.powerOn, Device.bufAt] using Buffer.powerOn_inv
  · simpa [tinyState, Device.powerOn, Device.synAt] using Synth.powerOn_inv _
  · simpa [tinyState, Device.powerOn, Device.oscAt] using Osc.powerOn_inv _
  · simp [tinyState, Device.powerOn, Device.oscAt, Osc.powerOn] at h

end Sys2Proof.Tests
end

section
/-! The fields of a binary32 pattern on its number, and the rational value of its magnitude (spec/00_scope.md R12,
spec/93_implementation_defined.md G1). -/

namespace Sys2Proof.Machine

/-! ### The fields of a pattern -/

theorem f32Exponent_eq (u : F32) : f32Exponent u = u.toNat / 2 ^ 23 % 256 := by
  rw [f32Exponent, BitVec.extractLsb'_toNat, Nat.shiftRight_eq_div_pow]

theorem f32Fraction_eq (u : F32) : f32Fraction u = u.toNat % 2 ^ 23 := by
  rw [f32Fraction, BitVec.extractLsb'_toNat, Nat.shiftRight_zero]

theorem f32Negative_iff (u : F32) : f32Negative u = true ↔ 2 ^ 31 ≤ u.toNat := by
  rw [f32Negative, ← BitVec.msb_eq_getLsbD_last, BitVec.msb_eq_decide, decide_eq_true_iff]

theorem f32Finite_iff (u : F32) : f32Finite u = true ↔ f32Exponent u ≠ 255 := by
  rw [f32Finite, bne_iff_ne]

/-! ### The value of a magnitude -/

/-- A denormal pattern is its fraction, in units of `2^-149`. -/
theorem f32Magnitude_of_denormal {u : F32} (h : f32Exponent u = 0) : f32Magnitude u = f32Fraction u := if_pos h

/-- The value of a normal pattern: the hidden bit and the fraction, scaled by the exponent less its bias. -/
theorem f32Magnitude_of_normal {u : F32} (h : f32Exponent u ≠ 0) :
    (f32Magnitude u : ℚ) / 2 ^ 149 = (1 + (f32Fraction u : ℚ) / 2 ^ 23) * 2 ^ ((f32Exponent u : ℤ) - 127) := by
  obtain ⟨k, hk⟩ := Nat.exists_eq_succ_of_ne_zero h
  have hscale : (2 : ℚ) ^ ((f32Exponent u : ℤ) - 127) = 2 ^ k / 2 ^ 126 := by
    rw [hk, show ((k.succ : ℕ) : ℤ) - 127 = (k : ℤ) - (126 : ℕ) by push_cast; ring, zpow_sub₀ two_ne_zero,
      zpow_natCast, zpow_natCast]
  rw [hscale, f32Magnitude, if_neg h, hk, Nat.succ_sub_one]
  push_cast
  ring

/-! ### Levels -/

/-- A magnitude of at most `levelOne` is a value of at most 1. -/
theorem le_levelOne_iff (m : Nat) : m ≤ levelOne ↔ (m : ℚ) / 2 ^ 149 ≤ 1 := by
  rw [div_le_one (by positivity), levelOne]
  exact_mod_cast Iff.rfl

/-- A pattern has a level when it is at most 1 and not below 0; the level is its magnitude (R255). -/
theorem f32Level_eq_some {u : F32} {l : Nat} :
    f32Level u = some l ↔
      f32Magnitude u ≤ levelOne ∧ (f32Negative u = true → f32Magnitude u = 0) ∧ l = f32Magnitude u := by
  unfold f32Level
  split_ifs with hneg hbig
  · rw [Bool.and_eq_true, bne_iff_ne] at hneg
    exact iff_of_false (by simp) fun ⟨_, hzero, _⟩ => hneg.2 (hzero hneg.1)
  · exact iff_of_false (by simp) fun ⟨hle, _⟩ => Nat.not_lt.2 hle hbig
  · rw [Bool.and_eq_true, bne_iff_ne, not_and, not_not] at hneg
    rw [Option.some.injEq]
    exact ⟨fun hl => ⟨Nat.not_lt.1 hbig, hneg, hl.symm⟩, fun ⟨_, _, hl⟩ => hl.symm⟩

/-- Settles O27: each field is a quotient of the pattern, and the value is the one of its class, denormal or normal. -/
theorem binaryFloatValue : Obligations.BinaryFloatValue := by
  intro u
  rw [← f32Exponent_eq, ← f32Fraction_eq, ← f32Negative_iff]
  refine ⟨f32Finite_iff u, fun _ => ⟨?_, fun l => ?_⟩⟩
  · split
    · next hden => rw [f32Magnitude_of_denormal hden]
    · next hnorm => exact f32Magnitude_of_normal hnorm
  · rw [f32Level_eq_some, le_levelOne_iff]

end Sys2Proof.Machine
end

section
/-! The invariant holds at power-on, every command keeps it, and so does every step, on a chip of any configuration
(spec/00_scope.md R4, R9). -/

namespace Sys2Proof.Machine

variable {cfg : ChipConfig}

/-! ### The components of the device at power-on and after `RESET` -/

@[simp] theorem Device.bufAt_powerOn (b : Fin cfg.numBuf) : (Device.powerOn cfg).bufAt b = Buffer.powerOn := by
  simp [Device.powerOn, Device.bufAt]

@[simp] theorem Device.synAt_powerOn (s : Fin cfg.numSynth) :
    (Device.powerOn cfg).synAt s = Synth.powerOn cfg.tierOf[s] := by
  simp [Device.powerOn, Device.synAt]

@[simp] theorem Device.oscAt_powerOn (i : Fin cfg.numOsc) : (Device.powerOn cfg).oscAt i = Osc.powerOn cfg := by
  simp [Device.powerOn, Device.oscAt]

@[simp] theorem Device.bufAt_afterReset (d : Device cfg) (b : Fin cfg.numBuf) :
    d.afterReset.bufAt b = (d.bufAt b).flushed := by
  simp [Device.afterReset, Device.bufAt]

@[simp] theorem Device.synAt_afterReset (d : Device cfg) (s : Fin cfg.numSynth) :
    d.afterReset.synAt s = d.synAt s := rfl

@[simp] theorem Device.oscAt_afterReset (d : Device cfg) (i : Fin cfg.numOsc) :
    d.afterReset.oscAt i = (d.oscAt i).afterReset := by
  simp [Device.afterReset, Device.oscAt]

theorem Device.powerOn_inv (cfg : ChipConfig) : (Device.powerOn cfg).Inv where
  buf b := by rw [Device.bufAt_powerOn]; exact Buffer.powerOn_inv
  syn s := by rw [Device.synAt_powerOn]; exact Synth.powerOn_inv _
  osc i := by rw [Device.oscAt_powerOn]; exact Osc.powerOn_inv _
  bound i _ _ hne := by rw [Device.oscAt_powerOn] at hne; exact absurd rfl hne
  regs := ⟨Memory.wf_nil, List.forall_mem_nil _⟩
  tick := ⟨Nat.zero_le _, Nat.le_add_left _ _⟩
  step := cfg.fs_ok.2

/-- After `RESET` an oscillator is as at power-on but for its binding, with the last amplitude 0 (R426). -/
theorem Osc.afterReset_inv (v : Voice) (o : Osc cfg) : o.afterReset.Inv v := (Osc.powerOn_inv v).rebound o.output

theorem Device.Inv.afterReset {d : Device cfg} (h : d.Inv) : d.afterReset.Inv where
  buf b := by rw [Device.bufAt_afterReset]; exact (h.buf b).flushed
  syn := h.syn
  osc i := by rw [Device.oscAt_afterReset]; exact Osc.afterReset_inv _ _
  bound i _ _ hne := by rw [Device.oscAt_afterReset] at hne; exact absurd rfl hne
  regs := ⟨Memory.wf_nil, List.forall_mem_nil _⟩
  tick := ⟨Nat.zero_le _, Nat.le_add_left _ _⟩
  step := cfg.fs_ok.2

/-! ### Each command

What a command leaves in place of the device `d` is `Answer.devOr d`: `d` itself after an error or a refusal. -/

/-- An index operand is out of range, or is one of the `n` indices. -/
theorem le_or_eq_fin (n x : Nat) : n ≤ x ∨ ∃ i : Fin n, x = i.1 :=
  (Nat.lt_or_ge x n).symm.imp_right fun h => ⟨⟨x, h⟩, rfl⟩

/-- A command that ends with its micro-operation leaves the device the micro-operation reached. -/
theorem Progress.Keeps.devOr_answer {P : Device cfg → Prop} {p : Progress cfg} (hp : p.Keeps P) (d : Device cfg) :
    P (p.answer.devOr d) := by
  cases p <;> exact hp

theorem setSampleRate_keepsInv {d : Device cfg} (h : d.Inv) (x : Byte) (u v : Word) :
    ((setSampleRate x u v d).devOr d).Inv := by
  rcases le_or_eq_fin cfg.numBuf x.toNat with hx | ⟨b, hx⟩
  · rw [setSampleRate_out hx]; exact h
  rw [setSampleRate_at hx]
  split_ifs with hpos hreq hfac
  · exact h
  · exact h
  · exact h
  · have hsr : 0 < u.toInt := by omega
    obtain ⟨hle, hcr⟩ := requant_range hsr (Int.not_le.1 hreq)
    have hlt : requant u.toInt v.toInt < 2 ^ 31 := lt_of_le_of_lt hcr BitVec.toInt_lt
    obtain ⟨hinv, hne⟩ :=
      Buffer.configured_inv (b := d.bufAt b) hsr hle hlt (Dvd.intro _ rfl) hfac
    exact h.setBuf hinv fun h0 => absurd h0 hne

theorem setBassFreq_keepsInv {d : Device cfg} (h : d.Inv) (x : Byte) (u : Word) :
    ((setBassFreq x u d).devOr d).Inv := by
  rcases le_or_eq_fin cfg.numBuf x.toNat with hx | ⟨b, hx⟩
  · rw [setBassFreq_out hx]; exact h
  · rw [setBassFreq_at hx]
    exact h.setBuf ⟨(h.buf b).rates, (h.buf b).factor_le, rfl, bassCalc_le _ _⟩ id

theorem readSample_keepsInv {d : Device cfg} (h : d.Inv) (x : Byte) : ((readSample x d).devOr d).Inv := by
  rcases le_or_eq_fin cfg.numBuf x.toNat with hx | ⟨b, hx⟩
  · rw [readSample_out hx]; exact h
  · rw [readSample_at hx]; exact h.setBuf (h.buf b).afterRead id

theorem readSamples_keepsInv {d : Device cfg} (h : d.Inv) (x : Byte) (u : Word) :
    ((readSamples x u d).devOr d).Inv := by
  rcases le_or_eq_fin cfg.numBuf x.toNat with hx | ⟨b, hx⟩
  · rw [readSamples_out hx]; exact h
  · rw [readSamples_at hx]
    exact h.setBuf ((h.buf b).afterReads _) (by rw [Buffer.afterReads_factor]; exact id)

theorem flush_keepsInv {d : Device cfg} (h : d.Inv) (x : Byte) : ((flush x d).devOr d).Inv := by
  rcases le_or_eq_fin cfg.numBuf x.toNat with hx | ⟨b, hx⟩
  · rw [flush_out hx]; exact h
  · rw [flush_at hx]; exact h.setBuf (h.buf b).flushed id

theorem setVolume_keepsInv {d : Device cfg} (h : d.Inv) (x : Byte) (u : F32) :
    ((setVolume x u d).devOr d).Inv := by
  rcases le_or_eq_fin cfg.numSynth x.toNat with hx | ⟨s, hx⟩
  · rw [setVolume_out hx]; exact h
  cases hu : f32Finite u with
  | false => rw [setVolume_bad hx (.inl hu)]; exact h
  | true =>
    cases hl : f32Level u with
    | none => rw [setVolume_bad hx (.inr hl)]; exact h
    | some l =>
      rw [setVolume_at hx hu hl]
      split
      · exact h
      · next hlow => exact h.setSyn ((h.syn s).withLevel (f32Level_le hl) fun h0 => by omega)

theorem setTreble_keepsInv {d : Device cfg} (h : d.Inv) (x : Byte) (cutoff : Half) (u : F32) (v : Word) :
    ((setTreble x cutoff u v d).devOr d).Inv := by
  rcases le_or_eq_fin cfg.numSynth x.toNat with hx | ⟨s, hx⟩
  · rw [setTreble_out hx]; exact h
  cases hu : f32Finite u with
  | false => rw [setTreble_bad hx hu]; exact h
  | true =>
    rw [setTreble_at hx hu]
    split
    · exact h
    · next hlow => exact h.setSyn ((h.syn s).withEq _ fun h0 => by omega)

/-- Retiring the old level is one splat, or nothing. -/
theorem retire_keepsInv {d : Device cfg} (h : d.Inv) (i : Fin cfg.numOsc) : (retire i d).Keeps Device.Inv := by
  unfold retire
  split
  · exact h
  · split
    · exact h
    · exact offset_keepsInv h _ _ _ _

theorem Device.Inv.rebind {d : Device cfg} (h : d.Inv) (i : Fin cfg.numOsc) (new : Option (Fin cfg.numBuf)) :
    (d.rebind i new).Inv :=
  h.setOsc ((h.osc i).rebound new) fun _ _ hne => absurd rfl hne

theorem setOutput_keepsInv {d : Device cfg} (h : d.Inv) (x : Byte) (u : Word) :
    ((setOutput x u d).devOr d).Inv := by
  rcases le_or_eq_fin cfg.numOsc x.toNat with hx | ⟨i, hx⟩
  · rw [setOutput_out hx]; exact h
  cases hu : outputOperand cfg.numBuf u with
  | none => rw [setOutput_bad hx hu]; exact h
  | some new =>
    rw [setOutput_at hx hu]
    split
    · exact h
    · have hkeep : ((retire i d).andThen fun e => .ok (e.rebind i new)).Keeps Device.Inv :=
        (retire_keepsInv h i).andThen (fun _ he => he.rebind i new) fun _ he => he
      exact hkeep.devOr_answer d

theorem write_keepsInv {d : Device cfg} (h : d.Inv) (y : Half) (v : Byte) : ((write y v d).devOr d).Inv := by
  rcases Nat.lt_or_ge y.toNat cfg.regSize with hy | hy
  · rw [write_at hy]; exact sideEffect_keepsInv (h.setReg hy v) _ v
  · rw [write_out hy]; exact h

theorem runUntil_keepsInv {d : Device cfg} (h : d.Inv) (u : Word) : ((runUntil u d).devOr d).Inv :=
  (runTo_keepsInv h u).devOr_answer d

/-- A run that completes ends at its time (R420). -/
theorem runTo_ok_lastTime {u : Word} {d d' : Device cfg} (h : runTo u d = .ok d') : d'.lastTime = u := by
  unfold runTo at h
  split_ifs at h with hback hsame
  · rw [← Progress.ok.inj h, hsame]
  · obtain ⟨-, hlast, -⟩ := runPasses_ok h
    rw [hlast, BitVec.ofNat_toNat, BitVec.setWidth_eq]

/-- A frame that ends at chip time leaves the next tick at most one period ahead of the new time 0 (R423, R67). -/
theorem Device.Inv.rebase {d : Device cfg} (h : d.Inv) {u : Word} (hu : d.lastTime = u) : (d.rebase u).Inv := by
  obtain ⟨hle, hnext⟩ := h.tick
  subst hu
  have hzero : (d.lastTime - d.lastTime).toNat = 0 := by rw [BitVec.sub_self]; rfl
  exact h.times (m := d.fsStep) (by omega) (by omega) h.step

theorem endFrame_keepsInv {d : Device cfg} (h : d.Inv) (u : Word) : ((endFrame u d).devOr d).Inv := by
  have hrun := runTo_keepsInv h u
  unfold endFrame
  cases hr : runTo u d with
  | trap e c => rw [hr] at hrun; exact hrun
  | ok e =>
    rw [hr, Progress.keeps_ok] at hrun
    exact hrun.rebase (runTo_ok_lastTime hr)

/-- Every command keeps the invariant of the device, whatever its outcome. -/
theorem bodyOf_keepsInv {d : Device cfg} (h : d.Inv) (i : Instr) : ((bodyOf i d).devOr d).Inv := by
  cases i with
  | setSampleRate x u v => exact setSampleRate_keepsInv h x u v
  | setBassFreq x u => exact setBassFreq_keepsInv h x u
  | readSample x => exact readSample_keepsInv h x
  | readSamples x u => exact readSamples_keepsInv h x u
  | flush x => exact flush_keepsInv h x
  | setVolume x u => exact setVolume_keepsInv h x u
  | setTreble x y u v => exact setTreble_keepsInv h x y u v
  | setOutput x u => exact setOutput_keepsInv h x u
  | write y v => exact write_keepsInv h y v
  | runUntil u => exact runUntil_keepsInv h u
  | endFrame u => exact endFrame_keepsInv h u
  | reset => exact h.afterReset

/-! ### The step -/

/-- Ending a command keeps the invariant: a fault sets `FAULT` alone in the device its body reached (R504). -/
theorem State.Inv.conclude {s : State cfg} {a : Answer cfg} (h : (a.devOr s.dev).Inv) : (s.conclude a).Inv := by
  cases a with
  | done d xs => exact h
  | error e => exact h
  | fault d c => exact Device.Inv.takeFault h c
  | refusal r => exact h

theorem execFor_keepsInv {i : Instr} {s t : State cfg} (h : s.Inv) (hst : execFor i s = .next t) : t.Inv := by
  cases hf : s.dev.fault with
  | some f =>
    rw [execFor, issue_faulted hf, Host.Outcome.next.injEq] at hst
    exact hst ▸ h
  | none =>
    rw [execFor, issue_ready hf, Host.Outcome.next.injEq] at hst
    exact hst ▸ State.Inv.conclude (bodyOf_keepsInv h i)

theorem stepFor_keepsInv {s t : State cfg} (h : s.Inv) (hst : stepFor s = .next t) : t.Inv := by
  rcases stepOn_cases hst with rfl | ⟨c, rest, -, hans⟩
  · exact h
  · have hrest : ({ s with inbox := rest } : State cfg).Inv := h
    rcases answerCommand_cases hans with ⟨f, -, rfl⟩ | ⟨-, ⟨i, -, hi⟩ | ⟨e, -, rfl⟩⟩
    · exact hrest
    · exact execFor_keepsInv hrest hi
    · exact hrest

/-- Settles O60: the host's machine is the generic one at REF-1, and on every chip the invariant holds at power-on and
is kept by each command, hence by each step. -/
theorem everyChipKeepsInvariant : Obligations.EveryChipKeepsInvariant :=
  ⟨core_eq_coreFor, fun cfg => ⟨Device.powerOn_inv cfg, fun _ _ h hst => stepFor_keepsInv h hst⟩⟩

end Sys2Proof.Machine
end

section
/-! The invariant of the device (spec/10_state.md R33 to R68), and what a command does to `FAULT` and to chip time
(spec/10_state.md R32, R41, spec/60_exceptions.md R504, spec/43_chip.md R420, R423, R426). -/

namespace Sys2Proof.Machine

variable {cfg : ChipConfig}

/-! ### The invariant -/

/-- Settles O57: REF-1 steps as the generic machine does, which keeps the invariant of every chip. -/
theorem stepKeepsInvariant : Obligations.StepKeepsInvariant := by
  intro s t h hst
  rw [step_eq_stepFor] at hst
  exact stepFor_keepsInv h hst

/-! ### `FAULT` and chip time -/

/-- Two devices agree on `FAULT` and on chip time. -/
structure Device.SameMoment (d e : Device cfg) : Prop where
  fault : e.fault = d.fault
  lastTime : e.lastTime = d.lastTime

theorem Device.SameMoment.refl (d : Device cfg) : d.SameMoment d := ⟨rfl, rfl⟩

theorem setSampleRate_sameMoment (x : Byte) (u v : Word) (d : Device cfg) :
    d.SameMoment ((setSampleRate x u v d).devOr d) := by
  rcases le_or_eq_fin cfg.numBuf x.toNat with hx | ⟨b, hx⟩
  · rw [setSampleRate_out hx]; exact .refl d
  · rw [setSampleRate_at hx]
    split_ifs
    · exact .refl d
    · exact .refl d
    · exact .refl d
    · exact ⟨rfl, rfl⟩

theorem setBassFreq_sameMoment (x : Byte) (u : Word) (d : Device cfg) :
    d.SameMoment ((setBassFreq x u d).devOr d) := by
  rcases le_or_eq_fin cfg.numBuf x.toNat with hx | ⟨b, hx⟩
  · rw [setBassFreq_out hx]; exact .refl d
  · rw [setBassFreq_at hx]; exact ⟨rfl, rfl⟩

theorem readSample_sameMoment (x : Byte) (d : Device cfg) : d.SameMoment ((readSample x d).devOr d) := by
  rcases le_or_eq_fin cfg.numBuf x.toNat with hx | ⟨b, hx⟩
  · rw [readSample_out hx]; exact .refl d
  · rw [readSample_at hx]; exact ⟨rfl, rfl⟩

theorem readSamples_sameMoment (x : Byte) (u : Word) (d : Device cfg) :
    d.SameMoment ((readSamples x u d).devOr d) := by
  rcases le_or_eq_fin cfg.numBuf x.toNat with hx | ⟨b, hx⟩
  · rw [readSamples_out hx]; exact .refl d
  · rw [readSamples_at hx]; exact ⟨rfl, rfl⟩

theorem flush_sameMoment (x : Byte) (d : Device cfg) : d.SameMoment ((flush x d).devOr d) := by
  rcases le_or_eq_fin cfg.numBuf x.toNat with hx | ⟨b, hx⟩
  · rw [flush_out hx]; exact .refl d
  · rw [flush_at hx]; exact ⟨rfl, rfl⟩

theorem setVolume_sameMoment (x : Byte) (u : F32) (d : Device cfg) :
    d.SameMoment ((setVolume x u d).devOr d) := by
  rcases le_or_eq_fin cfg.numSynth x.toNat with hx | ⟨y, hx⟩
  · rw [setVolume_out hx]; exact .refl d
  cases hu : f32Finite u with
  | false => rw [setVolume_bad hx (.inl hu)]; exact .refl d
  | true =>
    cases hl : f32Level u with
    | none => rw [setVolume_bad hx (.inr hl)]; exact .refl d
    | some l =>
      rw [setVolume_at hx hu hl]
      split
      · exact .refl d
      · exact ⟨rfl, rfl⟩

theorem setTreble_sameMoment (x : Byte) (cutoff : Half) (u : F32) (v : Word) (d : Device cfg) :
    d.SameMoment ((setTreble x cutoff u v d).devOr d) := by
  rcases le_or_eq_fin cfg.numSynth x.toNat with hx | ⟨y, hx⟩
  · rw [setTreble_out hx]; exact .refl d
  cases hu : f32Finite u with
  | false => rw [setTreble_bad hx hu]; exact .refl d
  | true =>
    rw [setTreble_at hx hu]
    split
    · exact .refl d
    · exact ⟨rfl, rfl⟩

theorem offset_sameMoment (s : Fin cfg.numSynth) (t : Nat) (x : Int) (b : Fin cfg.numBuf) (d : Device cfg) :
    (offset s t x b d).Keeps d.SameMoment := by
  rcases offset_cases s t x b d with ⟨-, e⟩ | ⟨-, -, e⟩ | ⟨-, -, e⟩ <;> rw [e]
  · exact .refl d
  · exact .refl d
  · exact ⟨rfl, rfl⟩

theorem retire_sameMoment (i : Fin cfg.numOsc) (d : Device cfg) : (retire i d).Keeps d.SameMoment := by
  unfold retire
  split
  · exact .refl d
  · split
    · exact .refl d
    · exact offset_sameMoment _ _ _ _ d

theorem setOutput_sameMoment (x : Byte) (u : Word) (d : Device cfg) :
    d.SameMoment ((setOutput x u d).devOr d) := by
  rcases le_or_eq_fin cfg.numOsc x.toNat with hx | ⟨i, hx⟩
  · rw [setOutput_out hx]; exact .refl d
  cases hu : outputOperand cfg.numBuf u with
  | none => rw [setOutput_bad hx hu]; exact .refl d
  | some new =>
    rw [setOutput_at hx hu]
    split
    · exact .refl d
    · have hkeep : ((retire i d).andThen fun e => .ok (e.rebind i new)).Keeps d.SameMoment :=
        (retire_sameMoment i d).andThen (fun _ he => ⟨he.fault, he.lastTime⟩) fun _ he => he
      exact hkeep.devOr_answer d

theorem applyEffect_sameMoment (v : Byte) (d : Device cfg) (e : WriteEffect cfg.numOsc) :
    d.SameMoment (applyEffect v d e) := by
  cases e with
  | sweepReload p => exact ⟨rfl, rfl⟩
  | pulseTrigger p => simp only [applyEffect]; split <;> exact ⟨rfl, rfl⟩
  | waveTrigger p => simp only [applyEffect]; split <;> exact ⟨rfl, rfl⟩
  | noiseTrigger p => simp only [applyEffect]; split <;> exact ⟨rfl, rfl⟩
  | ramAddress => exact ⟨rfl, rfl⟩
  | ramData a => exact ⟨rfl, rfl⟩

theorem sideEffect_sameMoment (a : Nat) (v : Byte) (d : Device cfg) : d.SameMoment (sideEffect a v d) := by
  unfold sideEffect
  split
  · exact .refl d
  · exact applyEffect_sameMoment v d _

theorem write_sameMoment (y : Half) (v : Byte) (d : Device cfg) : d.SameMoment ((write y v d).devOr d) := by
  rcases Nat.lt_or_ge y.toNat cfg.regSize with hy | hy
  · rw [write_at hy]
    have h := sideEffect_sameMoment y.toNat v (d.setReg y.toNat v)
    exact ⟨h.fault, h.lastTime⟩
  · rw [write_out hy]; exact .refl d

/-! ### Runs of the chip -/

theorem runPass_advance (t : Nat) (d : Device cfg) : (runPass t d).Keeps d.AdvanceFrame :=
  Progress.Keeps.andThen (runEach_frame d.lastTime.toNat t (List.finRange cfg.numOsc) d)
    (fun e he => he.1.times _ e.fsNext e.fsStep) (fun _ he => he.1)

theorem runPasses_advance (stop : Nat) : ∀ (n : Nat) (d : Device cfg),
    (runPasses stop n d).Keeps d.AdvanceFrame
  | 0, d => runPass_advance stop d
  | n + 1, d =>
    (runPass_advance d.fsNext d).andThen
      (fun e he => (runPasses_advance stop n (tickDue e)).mono fun _ hf =>
        he.trans ((tickDue_advance e).trans hf))
      (fun _ he => he)

/-- What `RUN_UNTIL` leaves as it was, whether it completes or faults (R420, R504). -/
theorem runTo_advance (u : Word) (d : Device cfg) : (runTo u d).Keeps d.AdvanceFrame := by
  unfold runTo
  split_ifs
  · exact .refl d
  · exact .refl d
  · exact runPasses_advance _ _ d

/-- A pass moves chip time to its end, or faults before (R420). -/
theorem runPass_lastTime {t : Nat} (ht : t < 2 ^ 32) {d : Device cfg} (h : d.lastTime.toNat ≤ t) :
    (runPass t d).Keeps fun e => d.lastTime.toNat ≤ e.lastTime.toNat := by
  refine Progress.Keeps.andThen (runEach_frame d.lastTime.toNat t (List.finRange cfg.numOsc) d)
    (fun e _ => ?_) (fun e ⟨_, hlast, _⟩ => hlast ▸ le_rfl)
  show d.lastTime.toNat ≤ (BitVec.ofNat 32 t).toNat
  rwa [BitVec.toNat_ofNat, Nat.mod_eq_of_lt ht]

/-- Chip time never decreases while ticks are due in order (R420). -/
theorem runPasses_lastTime {stop : Nat} (hs : stop < 2 ^ 32) : ∀ {n : Nat} {d : Device cfg},
    d.lastTime.toNat ≤ d.fsNext → d.lastTime.toNat ≤ stop → (∀ m, m < n → d.fsNext + m * cfg.fsPeriod < stop) →
    (runPasses stop n d).Keeps fun e => d.lastTime.toNat ≤ e.lastTime.toNat
  | 0, d, _, h2, _ => runPass_lastTime hs h2
  | n + 1, d, h1, _, hn => by
    have hdue : d.fsNext < stop := by have := hn 0 (by omega); omega
    simp only [runPasses]
    have hpass := runPass_lastTime (by omega) h1
    cases hr : runPass d.fsNext d with
    | trap e c => rw [hr] at hpass; exact hpass
    | ok e =>
      obtain ⟨-, hlast, hnext, -⟩ := runPass_ok hr
      have hl : (tickDue e).lastTime.toNat = d.fsNext := by
        rw [tickDue_lastTime, hlast, BitVec.toNat_ofNat, Nat.mod_eq_of_lt (by omega)]
      have hrest := runPasses_lastTime hs (n := n) (d := tickDue e) (by rw [hl, tickDue_fsNext, hnext]; omega)
        (by omega) fun m hm => by
          have := hn (m + 1) (by omega)
          rw [Nat.succ_mul] at this
          rw [tickDue_fsNext, hnext]; omega
      exact hrest.mono fun _ hf => by omega

theorem runTo_lastTime_le {d : Device cfg} (h : d.lastTime.toNat ≤ d.fsNext) (u : Word) :
    (runTo u d).Keeps fun e => d.lastTime.toNat ≤ e.lastTime.toNat := by
  unfold runTo
  split_ifs with hback hsame
  · exact le_rfl
  · exact le_rfl
  · rw [BitVec.lt_def] at hback
    exact runPasses_lastTime u.isLt h (by omega) fun m hm => (lt_expiries_iff cfg.fs_ok.1).1 hm

/-! ### `FAULT` after each command -/

theorem runUntil_fault (u : Word) (d : Device cfg) : ((runUntil u d).devOr d).fault = d.fault :=
  ((runTo_advance u d).mono fun _ h => h.fault).devOr_answer d

theorem endFrame_fault (u : Word) (d : Device cfg) : ((endFrame u d).devOr d).fault = d.fault := by
  have hkeep : ((runTo u d).andThen fun e => .ok (e.rebase u)).Keeps fun e => e.fault = d.fault :=
    (runTo_advance u d).andThen (fun _ he => he.fault) fun _ he => he.fault
  exact hkeep.devOr_answer d

/-- A command moves neither `FAULT` nor chip time, or is one of the three that move chip time. -/
theorem bodyOf_moment (i : Instr) (d : Device cfg) :
    d.SameMoment ((bodyOf i d).devOr d) ∨ (∃ u, i = .runUntil u) ∨ (∃ u, i = .endFrame u) ∨ i = .reset := by
  cases i with
  | setSampleRate x u v => exact .inl (setSampleRate_sameMoment x u v d)
  | setBassFreq x u => exact .inl (setBassFreq_sameMoment x u d)
  | readSample x => exact .inl (readSample_sameMoment x d)
  | readSamples x u => exact .inl (readSamples_sameMoment x u d)
  | flush x => exact .inl (flush_sameMoment x d)
  | setVolume x u => exact .inl (setVolume_sameMoment x u d)
  | setTreble x y u v => exact .inl (setTreble_sameMoment x y u v d)
  | setOutput x u => exact .inl (setOutput_sameMoment x u d)
  | write y v => exact .inl (write_sameMoment y v d)
  | runUntil u => exact .inr (.inl ⟨u, rfl⟩)
  | endFrame u => exact .inr (.inr (.inl ⟨u, rfl⟩))
  | reset => exact .inr (.inr (.inr rfl))

/-- No command body writes `FAULT`: taking the fault it raises does (R504). -/
theorem bodyOf_fault (i : Instr) (d : Device cfg) : ((bodyOf i d).devOr d).fault = d.fault := by
  rcases bodyOf_moment i d with h | ⟨u, rfl⟩ | ⟨u, rfl⟩ | rfl
  · exact h.fault
  · exact runUntil_fault u d
  · exact endFrame_fault u d
  · rfl

/-- Settles O14: no body writes `FAULT`, so it is set by the outcome that returns its code, and by no other. -/
theorem faultsAreRecordedForGood : Obligations.FaultsAreRecordedForGood := by
  intro s t i hst
  rw [exec_eq_issue] at hst
  rcases issue_cases hst with ⟨f, hf, rfl⟩ | ⟨hnone, hend⟩
  · exact ⟨fun _ _ => rfl, fun hnone => absurd (hf.symm.trans hnone) (by simp)⟩
  · refine ⟨fun f hf => absurd (hf.symm.trans hnone) (by simp), fun _ f => ?_⟩
    rcases hend with ⟨d, xs, hb, rfl⟩ | ⟨e, -, rfl⟩ | ⟨d, c, -, rfl⟩ | ⟨r, -, rfl⟩
    · have hd : d.fault = none := by
        have h := bodyOf_fault i s.dev
        rw [hb] at h
        exact h.trans hnone
      simp [hd]
    · simp [hnone]
    · simp
    · simp [hnone]

/-! ### Chip time after each command -/

/-- `RESET` and `END_FRAME` alone move chip time back. -/
theorem bodyOf_lastTime_le {d : Device cfg} (h : d.Inv) (i : Instr) :
    d.lastTime.toNat ≤ ((bodyOf i d).devOr d).lastTime.toNat ∨ i = .reset ∨ ∃ n, i = .endFrame n := by
  rcases bodyOf_moment i d with hsame | ⟨u, rfl⟩ | hframe | hreset
  · exact .inl (hsame.lastTime ▸ le_rfl)
  · exact .inl ((runTo_lastTime_le h.tick.1 u).devOr_answer d)
  · exact .inr (.inr hframe)
  · exact .inr (.inl hreset)

/-- An `END_FRAME` faults, or is OK and leaves chip time 0 (R423). -/
theorem endFrame_cases (u : Word) (d : Device cfg) :
    (∃ e c, endFrame u d = .fault e c) ∨ ∃ e, endFrame u d = .done e [] ∧ e.lastTime = 0 := by
  unfold endFrame
  cases hr : runTo u d with
  | trap e c => exact .inl ⟨e, c, rfl⟩
  | ok e =>
    refine .inr ⟨e.rebase u, rfl, ?_⟩
    rw [Device.rebase_lastTime, runTo_ok_lastTime hr, BitVec.sub_self]
    rfl

/-- Ending a command moves no chip time. -/
theorem conclude_lastTime (s : State cfg) (a : Answer cfg) :
    (s.conclude a).dev.lastTime = (a.devOr s.dev).lastTime := by cases a <;> rfl

/-- A re-basing command that leaves no fault leaves chip time 0 (R423, R426). -/
theorem conclude_lastTime_eq_zero {s : State cfg} {i : Instr} (hi : i = .reset ∨ ∃ n, i = .endFrame n)
    (hok : (s.conclude (bodyOf i s.dev)).dev.fault = none) :
    (s.conclude (bodyOf i s.dev)).dev.lastTime = 0 := by
  rcases hi with rfl | ⟨u, rfl⟩
  · rfl
  · simp only [bodyOf] at hok ⊢
    rcases endFrame_cases u s.dev with ⟨e, c, hfault⟩ | ⟨e, hdone, hzero⟩
    · rw [hfault] at hok; exact absurd hok (by simp [State.conclude])
    · rw [hdone]; exact hzero

/-- Settles O58: the tick bound is the invariant's; chip time moves as the body of the command moves it. -/
theorem chipTimeMovesForward : Obligations.ChipTimeMovesForward := by
  intro s t i h hst
  have hinv : t.Inv := execFor_keepsInv h (exec_eq_execFor ▸ hst)
  rw [← and_assoc]
  refine ⟨?_, hinv.tick⟩
  cases hf : s.dev.fault with
  | some f =>
    rw [exec_faulted hf, Host.Outcome.next.injEq] at hst
    subst hst
    exact ⟨.inl le_rfl, fun _ hnone => absurd (hf.symm.trans hnone) (by simp)⟩
  | none =>
    rw [exec_ready hf, Host.Outcome.next.injEq] at hst
    subst hst
    exact ⟨conclude_lastTime s _ ▸ bodyOf_lastTime_le h i, conclude_lastTime_eq_zero⟩

end Sys2Proof.Machine
end

section
/-! A splat adds its delta to the sum of the delay line (spec/41_step_synthesizer.md R251, R263). -/

namespace Sys2Proof.Machine

variable {cfg : ChipConfig}

/-- The slots of a line, summed by index. -/
theorem line_sum {n : Nat} (v : Vector Slot n) : v.toList.sum = ∑ k : Fin n, v[k] := by
  rw [← List.sum_ofFn]
  congr 1
  exact List.ext_getElem (by simp) fun k _ _ => by simp

/-- What a splat adds at slot `k`. -/
def splatAt (start width : Nat) (f : Nat → Int) (k : Nat) : Slot :=
  if k ∈ Finset.Ico start (start + width) then BitVec.ofInt 64 (f (k - start)) else 0

theorem addSplat_slot_eq_add (dl : Vector Slot Config.delayLen) (start width : Nat) (f : Nat → Int)
    (k : Fin Config.delayLen) : (addSplat dl start width f)[k] = dl[k] + splatAt start width f k := by
  rw [Fin.getElem_fin, addSplat_slot, splatAt]
  simp only [Finset.mem_Ico]
  split
  · rfl
  · exact (BitVec.add_zero _).symm

/-- The amounts of a splat that lies in the line, summed over the line. -/
theorem sum_splatAt {start width n : Nat} (h : start + width ≤ n) (f : Nat → Int) :
    ∑ k : Fin n, splatAt start width f k = BitVec.ofInt 64 ((List.range width).map f).sum := by
  have hin : Finset.range n ∩ Finset.Ico start (start + width) = Finset.Ico start (start + width) := by
    rw [Finset.inter_eq_right, Finset.range_eq_Ico]
    exact Finset.Ico_subset_Ico (Nat.zero_le _) h
  calc ∑ k : Fin n, splatAt start width f k
      = ∑ k ∈ Finset.range n, splatAt start width f k := Fin.sum_univ_eq_sum_range _ n
    _ = ∑ k ∈ Finset.Ico start (start + width), BitVec.ofInt 64 (f (k - start)) := by
      simp only [splatAt]; rw [Finset.sum_ite_mem, hin]
    _ = ∑ j ∈ Finset.range width, BitVec.ofInt 64 (f j) := by
      rw [Finset.sum_Ico_eq_sum_range, Nat.add_sub_cancel_left]
      simp only [Nat.add_sub_cancel_left]
    _ = BitVec.ofInt 64 ((List.range width).map f).sum := (Int.cast_sum (Finset.range width) f).symm

/-- A splat that lies in the line adds its amounts to the sum of the line (R263). -/
theorem addSplat_sum (dl : Vector Slot Config.delayLen) {start width : Nat} (h : start + width ≤ Config.delayLen)
    (f : Nat → Int) :
    (addSplat dl start width f).toList.sum = dl.toList.sum + BitVec.ofInt 64 ((List.range width).map f).sum := by
  rw [line_sum, line_sum, ← sum_splatAt h, ← Finset.sum_add_distrib]
  exact Finset.sum_congr rfl fun k _ => addSplat_slot_eq_add dl start width f k

/-- The taps of one phase of a lawful kernel share out the delta (R251, R263). -/
theorem Synth.tapAmount_sum {y : Synth} (h : y.kernel.lawful y.width) (delta : Int) {p : Nat}
    (hp : p < Config.phases) :
    ((List.range y.width).map (y.tapAmount delta p)).sum = delta * y.deltaFactor * y.kernel.unit := by
  rw [← Kernel.row_sum h hp, ← List.sum_map_mul_left]
  rfl

/-- Settles O34: the splat lies in the line, so all its taps are added, and a row of the kernel sums to its unit. -/
theorem splatConservesDelta : Obligations.SplatConservesDelta := by
  intro d d' y t delta b hlaw hok
  obtain ⟨-, hwin, rfl⟩ := offset_eq_ok.1 hok
  have hfit : splitSlot t (d.bufAt b).factor.toNat + (d.synAt y).width ≤ Config.delayLen := by
    rwa [splitSlot_eq, ← Nat.shiftRight_eq_div_pow]
  rw [Device.bufAt_setBuf_self, ← Synth.tapAmount_sum hlaw delta (splitPhase_lt t (d.bufAt b).factor.toNat)]
  exact addSplat_sum _ hfit _

end Sys2Proof.Machine
end

section
/-! What a completed run of an oscillator does (spec/42_oscillators.md R312 to R316, R319): its updates, its waveform
state, the delay it stores and the last amplitude it leaves. -/

namespace Sys2Proof.Machine

variable {cfg : ChipConfig}

/-! ### Advancing by 0, and beside a last amplitude -/

theorem advanced_zero_phase (d : Device cfg) {o : Osc cfg} {v : Voice} (h : o.phase < stepsOf cfg v) :
    (d.advanced o 0 v).phase = o.phase := by
  cases v with
  | pulse c s lo hi => exact Nat.mod_eq_of_lt h
  | wave w lo hi => exact Nat.mod_eq_of_lt h
  | noise c m t => rfl

theorem advanced_zero_lfsr (d : Device cfg) (o : Osc cfg) (v : Voice) : (d.advanced o 0 v).lfsr = o.lfsr := by
  cases v <;> rfl

theorem advanced_setLastAmp (d : Device cfg) (o : Osc cfg) (a : Int) (n : Nat) (v : Voice) :
    d.advanced { o with lastAmp := a } n v = { d.advanced o n v with lastAmp := a } := by
  cases v <;> rfl

/-- The amplitude of a silent or inaudible oscillator does not depend on its waveform state (R309, R310). -/
theorem amp_advance_of_still {i : Fin cfg.numOsc} {d : Device cfg}
    (h : d.silent i = true ∨ d.inaudible (voiceOf cfg i) = true) (n : Nat) : (advance i n d).amp i = d.amp i := by
  have hframe := advance_frame i n d
  have hsilent : (advance i n d).silent i = d.silent i := silent_congr hframe.chip.reg hframe.self
  by_cases hs : d.silent i = true
  · simp [Device.amp, hsilent, hs]
  · have hin := h.resolve_left hs
    have hvol := fun v => volume_congr hframe.chip.reg hframe.self.envLevel v
    have hwave : (advance i n d).waveform ((advance i n d).oscAt i) (voiceOf cfg i) =
        d.waveform (d.oscAt i) (voiceOf cfg i) := by
      generalize voiceOf cfg i = v at hin
      cases v with
      | pulse c s lo hi => simp only [Device.waveform, Device.inaudible_advance, hin, hvol, if_true]
      | wave w lo hi => simp only [Device.waveform, Device.inaudible_advance, hin, hvol, if_true]
      | noise c m t => exact absurd hin (by simp [Device.inaudible])
    simp only [Device.amp, hsilent, hwave]

/-! ### The stepping loop as a chain of updates -/

theorem Progress.andThen_ok_right (p : Progress cfg) : (p.andThen fun d => .ok d) = p := by cases p <;> rfl

/-- The last expiry of a stepping loop, taken off its end. -/
theorem stepLoop_succ_last (i : Fin cfg.numOsc) (p n time : Nat) (d : Device cfg) :
    stepLoop i p (n + 1) time d = (stepLoop i p n time d).andThen fun e =>
      update i (time + n * p) ((advance i 1 e).amp i) (advance i 1 e) := by
  rw [stepLoop_add i p n 1]
  congr 1
  funext e
  exact Progress.andThen_ok_right _

/-- A stepping loop that completes passes through a chain of devices: at the time of each expiry it advances one step
and updates there (R315). -/
theorem stepLoop_chain {i : Fin cfg.numOsc} {p time : Nat} {d : Device cfg} : ∀ {cnt : Nat} {f : Device cfg},
    stepLoop i p cnt time d = .ok f →
    ∃ e : Nat → Device cfg, e 0 = d ∧ e cnt = f ∧ ∀ n, n < cnt →
      update i (time + n * p) ((advance i 1 (e n)).amp i) (advance i 1 (e n)) = .ok (e (n + 1))
  | 0, f, h => ⟨fun _ => d, rfl, Progress.ok.inj h, fun n hn => absurd hn (Nat.not_lt_zero n)⟩
  | cnt + 1, f, h => by
    rw [stepLoop_succ_last] at h
    obtain ⟨g, hg, hlast⟩ := Progress.andThen_eq_ok.1 h
    obtain ⟨e, hfirst, rfl, hstep⟩ := stepLoop_chain hg
    have hold : ∀ n, n ≤ cnt → Function.update e (cnt + 1) f n = e n := fun n hn =>
      Function.update_of_ne (by omega) _ _
    refine ⟨Function.update e (cnt + 1) f, (hold 0 (Nat.zero_le _)).trans hfirst, Function.update_self .., ?_⟩
    intro n hn
    rw [hold n (by omega)]
    rcases Nat.lt_or_eq_of_le (Nat.le_of_lt_succ hn) with hlt | rfl
    · rw [hold (n + 1) hlt]; exact hstep n hlt
    · rw [Function.update_self]; exact hlast

/-- The waveform state after a stepping loop is that of `ADVANCE` by its count of expiries (R319). -/
theorem stepLoop_waveform {i : Fin cfg.numOsc} {p n time : Nat} {d f : Device cfg}
    (h : stepLoop i p n time d = .ok f) :
    ((d.oscAt i).phase < stepsOf cfg (voiceOf cfg i) → (f.oscAt i).phase = ((advance i n d).oscAt i).phase) ∧
      (f.oscAt i).lfsr = ((advance i n d).oscAt i).lfsr := by
  rw [stepLoop_osc h, oscAt_advance_self]
  split
  · subst_vars
    exact ⟨fun hp => (advanced_zero_phase d hp).symm, (advanced_zero_lfsr d (d.oscAt i) _).symm⟩
  · exact ⟨fun _ => rfl, rfl⟩

/-! ### The expiries of a run -/

/-- Everything the expiries of a run can do when they complete: a silent or inaudible oscillator only advances
(R314), an audible one steps (R315). -/
theorem runExpiries_cases {i : Fin cfg.numOsc} {time stop : Nat} {d f : Device cfg}
    (h : runExpiries i time stop d = .ok f) :
    (d.silent i = true ∨ d.inaudible (voiceOf cfg i) = true) ∧
        f = advance i (expiries time stop (d.period (voiceOf cfg i))) d ∨
      ¬ (d.silent i = true ∨ d.inaudible (voiceOf cfg i) = true) ∧
        stepLoop i (d.period (voiceOf cfg i)) (expiries time stop (d.period (voiceOf cfg i))) time d = .ok f := by
  unfold runExpiries at h
  rw [← Bool.or_eq_true]
  split at h
  · next hstill => exact .inl ⟨hstill, (Progress.ok.inj h).symm⟩
  · next hheard => exact .inr ⟨hheard, h⟩

theorem runExpiries_waveform {i : Fin cfg.numOsc} {time stop : Nat} {d f : Device cfg}
    (h : runExpiries i time stop d = .ok f) :
    ((d.oscAt i).phase < stepsOf cfg (voiceOf cfg i) → (f.oscAt i).phase =
        ((advance i (expiries time stop (d.period (voiceOf cfg i))) d).oscAt i).phase) ∧
      (f.oscAt i).lfsr = ((advance i (expiries time stop (d.period (voiceOf cfg i))) d).oscAt i).lfsr := by
  rcases runExpiries_cases h with ⟨-, rfl⟩ | ⟨-, hloop⟩
  · exact ⟨fun _ => rfl, rfl⟩
  · exact stepLoop_waveform hloop

/-- The expiries of a run keep the last amplitude of a bound oscillator equal to its amplitude (R314, R315). -/
theorem runExpiries_lastAmp {i : Fin cfg.numOsc} {time stop : Nat} {d f : Device cfg}
    (h : runExpiries i time stop d = .ok f) (ho : (d.oscAt i).output ≠ none)
    (ha : (d.oscAt i).lastAmp = d.amp i) : (f.oscAt i).lastAmp = f.amp i := by
  rcases runExpiries_cases h with ⟨hstill, rfl⟩ | ⟨-, hloop⟩
  · rw [amp_advance_of_still hstill, oscAt_advance_self, advanced_lastAmp, ha]
  · exact stepLoop_lastAmp hloop ho fun _ => ha

/-! ### The parts of a run -/

/-- The frame of an update that completed. -/
theorem update_ok_frame {i : Fin cfg.numOsc} {t : Nat} {a : Int} {d e : Device cfg} (h : update i t a d = .ok e) :
    d.RunFrame i e := by
  have hframe := update_frame i t a d
  rwa [h] at hframe

/-- A run that completes is an update at its start, the expiries before its end, and the distance to the next expiry
stored (R312, R316); the time and the period of the expiries are those of the device it starts from. -/
theorem run_parts {i : Fin cfg.numOsc} {start stop : Nat} {d d' : Device cfg} (h : run i start stop d = .ok d') :
    start ≤ stop ∧ ∃ e f, update i start (d.amp i) d = .ok e ∧
      runExpiries i (start + (d.oscAt i).delay.toNat) stop e = .ok f ∧
      d' = f.setDelay i (d.overshoot i (start + (d.oscAt i).delay.toNat) stop) := by
  unfold run at h
  split at h
  · exact absurd h (by simp)
  · obtain ⟨e, hupd, hon⟩ := Progress.andThen_eq_ok.1 h
    obtain ⟨f, hexp, hset⟩ := Progress.andThen_eq_ok.1 hon
    have hdelay : (e.oscAt i).delay = (d.oscAt i).delay := by rw [update_osc hupd]
    have hperiod : e.period (voiceOf cfg i) = d.period (voiceOf cfg i) :=
      period_congr (update_ok_frame hupd).chip.reg _
    rw [hdelay] at hexp hset
    refine ⟨by omega, e, f, hupd, hexp, ?_⟩
    rw [← Progress.ok.inj hset, Device.overshoot, Device.overshoot, hperiod]

@[simp] theorem oscAt_setDelay_self (i : Fin cfg.numOsc) (n : Nat) (d : Device cfg) :
    (d.setDelay i n).oscAt i = { d.oscAt i with delay := BitVec.ofNat 32 n } := by simp [Device.setDelay]

/-- The amplitude does not read the delay. -/
theorem amp_setDelay (i : Fin cfg.numOsc) (n : Nat) (d : Device cfg) : (d.setDelay i n).amp i = d.amp i := by
  have hframe := setDelay_frame i n d
  exact amp_congr hframe.chip.reg hframe.chip.ram hframe.self (by simp) (by simp)

/-- An update leaves the amplitude of its oscillator. -/
theorem amp_update {i : Fin cfg.numOsc} {t : Nat} {a : Int} {d e : Device cfg} (h : update i t a d = .ok e) :
    e.amp i = d.amp i := by
  have hframe := update_ok_frame h
  have hosc := update_osc h
  exact amp_congr hframe.chip.reg hframe.chip.ram hframe.self (by rw [hosc]) (by rw [hosc])

/-- After an update of its oscillator, advancing differs in the last amplitude alone. -/
theorem oscAt_advance_update {i : Fin cfg.numOsc} {t : Nat} {a : Int} {d e : Device cfg}
    (h : update i t a d = .ok e) (n : Nat) :
    (advance i n e).oscAt i = { (advance i n d).oscAt i with lastAmp := (e.oscAt i).lastAmp } := by
  rw [oscAt_advance_self, oscAt_advance_self, advanced_congr (update_ok_frame h).chip.reg,
    update_osc h, advanced_setLastAmp]

/-! ### What a completed run does -/

/-- How many expiries of oscillator `i` lie in a run (R314, R315). -/
def Device.expiryCount (d : Device cfg) (i : Fin cfg.numOsc) (start stop : Nat) : Nat :=
  expiries (start + (d.oscAt i).delay.toNat) stop (d.period (voiceOf cfg i))

theorem Device.lt_expiryCount_iff (d : Device cfg) (i : Fin cfg.numOsc) (start stop n : Nat) :
    n < d.expiryCount i start stop ↔
      start + (d.oscAt i).delay.toNat + n * d.period (voiceOf cfg i) < stop :=
  lt_expiries_iff (one_le_period d _)

/-- The delay a run stores is the distance from its end to the next expiry (R316). -/
theorem run_delay {i : Fin cfg.numOsc} {start stop : Nat} {d d' : Device cfg} (h : run i start stop d = .ok d') :
    stop + (d'.oscAt i).delay.toNat = start + (d.oscAt i).delay.toNat +
      d.expiryCount i start stop * d.period (voiceOf cfg i) := by
  obtain ⟨hle, e, f, -, -, rfl⟩ := run_parts h
  have hreach := le_expiries_mul (time := start + (d.oscAt i).delay.toNat) (stop := stop)
    (one_le_period d (voiceOf cfg i))
  rw [oscAt_setDelay_self, BitVec.toNat_ofNat, Nat.mod_eq_of_lt (overshoot_lt i start stop d hle),
    Device.overshoot, Device.expiryCount]
  omega

theorem run_waveform {i : Fin cfg.numOsc} {start stop : Nat} {d d' : Device cfg} (h : run i start stop d = .ok d') :
    ((d.oscAt i).phase < stepsOf cfg (voiceOf cfg i) →
      (d'.oscAt i).phase = ((advance i (d.expiryCount i start stop) d).oscAt i).phase) ∧
    (d'.oscAt i).lfsr = ((advance i (d.expiryCount i start stop) d).oscAt i).lfsr := by
  obtain ⟨-, e, f, hupd, hexp, rfl⟩ := run_parts h
  have hwave := runExpiries_waveform hexp
  rw [period_congr (update_ok_frame hupd).chip.reg, oscAt_advance_update hupd, update_osc hupd] at hwave
  rw [oscAt_setDelay_self]
  exact hwave

/-- A completed run leaves the last amplitude of a bound oscillator equal to its amplitude (R66). -/
theorem run_lastAmp {i : Fin cfg.numOsc} {start stop : Nat} {d d' : Device cfg} (h : run i start stop d = .ok d')
    (ho : (d.oscAt i).output ≠ none) : (d'.oscAt i).lastAmp = d'.amp i := by
  obtain ⟨-, e, f, hupd, hexp, rfl⟩ := run_parts h
  have hbound : (e.oscAt i).output ≠ none := by rw [(update_ok_frame hupd).self.output]; exact ho
  rw [amp_setDelay, oscAt_setDelay_self]
  exact runExpiries_lastAmp hexp hbound ((update_lastAmp hupd ho).trans (amp_update hupd).symm)

/-- The updates of a completed run: one at its start, then one at the time of each expiry if it is heard. -/
theorem run_chain {i : Fin cfg.numOsc} {start stop : Nat} {d d' : Device cfg} (h : run i start stop d = .ok d') :
    ∃ (e : Nat → Device cfg) (f : Device cfg), update i start (d.amp i) d = .ok (e 0) ∧
      (if d.silent i = true ∨ d.inaudible (voiceOf cfg i) = true
        then f = advance i (d.expiryCount i start stop) (e 0)
        else f = e (d.expiryCount i start stop) ∧ ∀ n, n < d.expiryCount i start stop →
          update i (start + (d.oscAt i).delay.toNat + n * d.period (voiceOf cfg i))
            ((advance i 1 (e n)).amp i) (advance i 1 (e n)) = .ok (e (n + 1))) ∧
      d' = f.setOsc i { f.oscAt i with delay := (d'.oscAt i).delay } := by
  obtain ⟨-, e, f, hupd, hexp, rfl⟩ := run_parts h
  have hframe := update_ok_frame hupd
  have hcases := runExpiries_cases hexp
  rw [period_congr hframe.chip.reg, inaudible_congr hframe.chip.reg, silent_congr hframe.chip.reg hframe.self]
    at hcases
  have hset : ∀ n, f.setDelay i n = f.setOsc i { f.oscAt i with delay := ((f.setDelay i n).oscAt i).delay } :=
    fun n => by rw [oscAt_setDelay_self]; rfl
  rcases hcases with ⟨hstill, hadv⟩ | ⟨hheard, hloop⟩
  · exact ⟨fun _ => e, f, hupd, by rw [if_pos hstill]; exact hadv, hset _⟩
  · obtain ⟨c, rfl, hlast, hstep⟩ := stepLoop_chain hloop
    exact ⟨c, f, hupd, by rw [if_neg hheard]; exact ⟨hlast.symm, hstep⟩, hset _⟩

/-- Settles O41: the count is that of the expiries before `to`, and each clause is one part of the run. -/
theorem runKeepsTheNextExpiry : Obligations.RunKeepsTheNextExpiry := by
  intro d d' i start stop h
  obtain ⟨hphase, hlfsr⟩ := run_waveform h
  have hframe := run_frame i start stop d
  rw [h] at hframe
  exact ⟨d.expiryCount i start stop, d.lt_expiryCount_iff i start stop, hframe, run_delay h, hphase,
    hlfsr, run_chain h, run_lastAmp h⟩

end Sys2Proof.Machine
end

section
/-! The transport is read a whole command at a time, each command is answered once, and splats commute
(spec/20_memory.md R104, R106, R110, spec/30_encoding.md R130, R133, spec/70_reset_and_hazards.md R612). -/

namespace Sys2Proof

/-! ### Taking a command off the transport -/

theorem exists_wordBytes_append : ∀ {bs : List Byte}, 4 ≤ bs.length → ∃ w rest, bs = wordBytes w ++ rest
  | b0 :: b1 :: b2 :: b3 :: rest, _ => ⟨wordOfBytes b0 b1 b2 b3, rest, by rw [wordBytes_word]; rfl⟩

/-- Any twelve bytes are the bytes of a command (R130). -/
theorem exists_bytes_append {bs : List Byte} (h : 12 ≤ bs.length) : ∃ (c : Cmd) (rest : List Byte),
    bs = c.bytes ++ rest := by
  obtain ⟨w0, bs, rfl⟩ := exists_wordBytes_append (by omega : 4 ≤ bs.length)
  rw [List.length_append, wordBytes_length] at h
  obtain ⟨w1, bs, rfl⟩ := exists_wordBytes_append (by omega : 4 ≤ bs.length)
  rw [List.length_append, wordBytes_length] at h
  obtain ⟨w2, rest, rfl⟩ := exists_wordBytes_append (by omega : 4 ≤ bs.length)
  exact ⟨⟨w0, w1, w2⟩, rest, by simp only [Cmd.bytes, List.append_assoc]⟩

theorem fetchCommand_short {bs : List Byte} (hne : bs ≠ []) (h : bs.length < 12) :
    fetchCommand bs = .incomplete := by
  unfold fetchCommand
  split
  · exact absurd rfl hne
  · simp only [List.length_cons] at h; omega
  · rfl

/-- Everything the transport can hold: nothing, fewer bytes than a command (R612), or a whole command and more. -/
theorem fetchCommand_cases (bs : List Byte) :
    (bs = [] ∧ fetchCommand bs = .idle) ∨
    ((0 < bs.length ∧ bs.length < 12) ∧ fetchCommand bs = .incomplete) ∨
    ∃ c rest, bs = c.bytes ++ rest ∧ fetchCommand bs = .command c rest := by
  rcases Nat.lt_or_ge bs.length 12 with hshort | hwhole
  · rcases eq_or_ne bs [] with rfl | hne
    · exact .inl ⟨rfl, rfl⟩
    · exact .inr (.inl ⟨⟨List.length_pos_iff.2 hne, hshort⟩, fetchCommand_short hne hshort⟩)
  · obtain ⟨c, rest, rfl⟩ := exists_bytes_append hwhole
    exact .inr (.inr ⟨c, rest, rfl, Machine.fetchCommand_append c rest⟩)

theorem fetchCommand_eq_command {bs : List Byte} {c : Cmd} {rest : List Byte}
    (h : fetchCommand bs = .command c rest) : bs = c.bytes ++ rest := by
  rcases fetchCommand_cases bs with ⟨-, hf⟩ | ⟨-, hf⟩ | ⟨c', rest', hbs, hf⟩ <;> rw [hf] at h
  · cases h
  · cases h
  · cases h; exact hbs

theorem fetchCommand_eq_idle_iff (bs : List Byte) : fetchCommand bs = .idle ↔ bs = [] := by
  rcases fetchCommand_cases bs with ⟨rfl, hf⟩ | ⟨⟨hpos, -⟩, hf⟩ | ⟨c, rest, rfl, hf⟩ <;> rw [hf]
  · simp
  · simp [List.length_pos_iff.1 hpos]
  · simp [← List.length_eq_zero_iff]

theorem fetchCommand_eq_incomplete_iff (bs : List Byte) :
    fetchCommand bs = .incomplete ↔ 0 < bs.length ∧ bs.length < 12 := by
  rcases fetchCommand_cases bs with ⟨rfl, hf⟩ | ⟨hlen, hf⟩ | ⟨c, rest, rfl, hf⟩ <;> rw [hf]
  · simp
  · simp [hlen]
  · simp

/-- Settles O5: any twelve bytes are those of one command, which is fetched whole; fewer are idle or incomplete. -/
theorem fetchTakesWholeCommands : Obligations.FetchTakesWholeCommands :=
  ⟨Machine.fetchCommand_append, fun _ _ _ => fetchCommand_eq_command, fetchCommand_eq_idle_iff,
    fetchCommand_eq_incomplete_iff⟩

namespace Machine

variable {cfg : ChipConfig}

/-! ### A step on a whole command -/

section
variable {run : Instr → State cfg → Host.Outcome (State cfg) Fault Refusal} {c : Cmd} {s : State cfg}

theorem answerCommand_faulted {f : FaultCode} (hf : s.dev.fault = some f) :
    answerCommand run c s = .next (s.respond .faulted []) := by
  simp only [answerCommand, hf]

theorem answerCommand_undecodable {e : DecodeError} (hf : s.dev.fault = none) (hdec : decode c = .error e) :
    answerCommand run c s = .next (s.refuse .illegalCommand) := by
  simp only [answerCommand, hf, hdec]

theorem answerCommand_decoded {i : Instr} (hf : s.dev.fault = none) (hdec : decode c = .ok i) :
    answerCommand run c s = run i s := by
  simp only [answerCommand, hf, hdec]

end

/-- Settles O7: the bytes are fetched as the command, which a device without a fault decodes and executes. -/
theorem stepRunsDecodedCommand : Obligations.StepRunsDecodedCommand := by
  intro s c rest i hin hf hdec
  rw [step_command hin]
  exact answerCommand_decoded hf hdec

/-! ### The payload of an answer -/

/-- The samples an answer returns: none unless it is OK (R133). -/
def Answer.payload : Answer cfg → List Half
  | .done _ xs => xs
  | .error _ => []
  | .fault _ _ => []
  | .refusal _ => []

@[simp] theorem Progress.answer_payload (p : Progress cfg) : p.answer.payload = [] := by cases p <;> rfl

theorem Answer.status_of_payload {a : Answer cfg} (h : a.payload ≠ []) : a.status = .ok := by
  cases a with
  | done d xs => rfl
  | error e => exact absurd rfl h
  | fault d c => exact absurd rfl h
  | refusal r => exact absurd rfl h

theorem conclude_outbox_eq (s : State cfg) (a : Answer cfg) :
    (s.conclude a).outbox = s.outbox ++ [⟨a.status, a.payload⟩] := by cases a <;> rfl

theorem setSampleRate_payload (x : Byte) (u v : Word) (d : Device cfg) : (setSampleRate x u v d).payload = [] := by
  rcases le_or_eq_fin cfg.numBuf x.toNat with hx | ⟨b, hx⟩
  · rw [setSampleRate_out hx]; rfl
  · rw [setSampleRate_at hx]; split_ifs <;> rfl

theorem setBassFreq_payload (x : Byte) (u : Word) (d : Device cfg) : (setBassFreq x u d).payload = [] := by
  rcases le_or_eq_fin cfg.numBuf x.toNat with hx | ⟨b, hx⟩
  · rw [setBassFreq_out hx]; rfl
  · rw [setBassFreq_at hx]; rfl

theorem flush_payload (x : Byte) (d : Device cfg) : (flush x d).payload = [] := by
  rcases le_or_eq_fin cfg.numBuf x.toNat with hx | ⟨b, hx⟩
  · rw [flush_out hx]; rfl
  · rw [flush_at hx]; rfl

theorem setVolume_payload (x : Byte) (u : F32) (d : Device cfg) : (setVolume x u d).payload = [] := by
  rcases le_or_eq_fin cfg.numSynth x.toNat with hx | ⟨y, hx⟩
  · rw [setVolume_out hx]; rfl
  · cases hfin : f32Finite u with
    | false => rw [setVolume_bad hx (.inl hfin)]; rfl
    | true =>
      cases hlev : f32Level u with
      | none => rw [setVolume_bad hx (.inr hlev)]; rfl
      | some l => rw [setVolume_at hx hfin hlev]; split_ifs <;> rfl

theorem setTreble_payload (x : Byte) (cutoff : Half) (u : F32) (v : Word) (d : Device cfg) :
    (setTreble x cutoff u v d).payload = [] := by
  rcases le_or_eq_fin cfg.numSynth x.toNat with hx | ⟨y, hx⟩
  · rw [setTreble_out hx]; rfl
  · cases hfin : f32Finite u with
    | false => rw [setTreble_bad hx hfin]; rfl
    | true => rw [setTreble_at hx hfin]; split_ifs <;> rfl

theorem setOutput_payload (x : Byte) (u : Word) (d : Device cfg) : (setOutput x u d).payload = [] := by
  rcases le_or_eq_fin cfg.numOsc x.toNat with hx | ⟨i, hx⟩
  · rw [setOutput_out hx]; rfl
  · cases hout : outputOperand cfg.numBuf u with
    | none => rw [setOutput_bad hx hout]; rfl
    | some new =>
      rw [setOutput_at hx hout]
      split_ifs
      · rfl
      · exact Progress.answer_payload _

theorem write_payload (y : Half) (v : Byte) (d : Device cfg) : (write y v d).payload = [] := by
  rcases Nat.lt_or_ge y.toNat cfg.regSize with hy | hy
  · rw [write_at hy]; rfl
  · rw [write_out hy]; rfl

/-- The two commands that return samples (R133). -/
theorem read_of_payload {i : Instr} {d : Device cfg} (h : (bodyOf i d).payload ≠ []) :
    (∃ x, i = .readSample x) ∨ ∃ x n, i = .readSamples x n := by
  cases i with
  | readSample x => exact .inl ⟨x, rfl⟩
  | readSamples x n => exact .inr ⟨x, n, rfl⟩
  | setSampleRate x u v => exact absurd (setSampleRate_payload x u v d) h
  | setBassFreq x u => exact absurd (setBassFreq_payload x u d) h
  | flush x => exact absurd (flush_payload x d) h
  | setVolume x u => exact absurd (setVolume_payload x u d) h
  | setTreble x y u v => exact absurd (setTreble_payload x y u v d) h
  | setOutput x u => exact absurd (setOutput_payload x u d) h
  | write y v => exact absurd (write_payload y v d) h
  | runUntil u => exact absurd (Progress.answer_payload _) h
  | endFrame u => exact absurd (Progress.answer_payload _) h
  | reset => exact absurd rfl h

/-! ### One response for each command -/

/-- A faulted device and an undecodable value return a status alone; a decoded command concludes with its own answer,
whose payload only a read has. -/
theorem answerCommand_once (c : Cmd) (s : State) :
    ∃ t r, answerCommand exec c s = .next t ∧ t.inbox = s.inbox ∧ t.outbox = s.outbox ++ [r] ∧
      (r.samples ≠ [] → r.status = .ok ∧
        ∃ i, decode c = .ok i ∧ ((∃ x, i = .readSample x) ∨ ∃ x n, i = .readSamples x n)) := by
  cases hf : s.dev.fault with
  | some f => exact ⟨_, _, answerCommand_faulted hf, rfl, rfl, fun h => absurd rfl h⟩
  | none =>
    cases hdec : decode c with
    | error e => exact ⟨_, _, answerCommand_undecodable hf hdec, rfl, rfl, fun h => absurd rfl h⟩
    | ok i =>
      rw [answerCommand_decoded hf hdec, exec_ready hf]
      exact ⟨_, _, rfl, conclude_inbox _ _, conclude_outbox_eq _ _,
        fun h => ⟨Answer.status_of_payload h, i, rfl, read_of_payload h⟩⟩

/-- Settles O12: the step takes the command off the transport and answers it once. -/
theorem everyCommandIsAnsweredOnce : Obligations.EveryCommandIsAnsweredOnce := by
  intro s c rest hin
  rw [step_command hin]
  exact answerCommand_once c { s with inbox := rest }

/-! ### Splats -/

/-- The device after a splat that is in range (R263). -/
def Device.splatted (d : Device cfg) (y : Fin cfg.numSynth) (t : Nat) (x : Int) (b : Fin cfg.numBuf) : Device cfg :=
  d.setBuf b ((d.bufAt b).splat (d.synAt y) t x)

@[simp] theorem Device.synAt_splatted (d : Device cfg) (y z : Fin cfg.numSynth) (t : Nat) (x : Int)
    (b : Fin cfg.numBuf) : (d.splatted y t x b).synAt z = d.synAt z := rfl

@[simp] theorem Device.factor_splatted (d : Device cfg) (y : Fin cfg.numSynth) (t : Nat) (x : Int)
    (b c : Fin cfg.numBuf) : ((d.splatted y t x b).bufAt c).factor = (d.bufAt c).factor := by
  rw [Device.splatted, Device.bufAt_setBuf]
  split_ifs with hcb
  · rw [hcb, Buffer.splat_factor]
  · rfl

theorem offset_eq_ok_splatted {y : Fin cfg.numSynth} {t : Nat} {x : Int} {b : Fin cfg.numBuf} {d d' : Device cfg}
    (h : offset y t x b d = .ok d') : d' = d.splatted y t x b := (offset_eq_ok.1 h).2.2

/-- A splat in range stays in range after another: no splat changes a factor or a kernel (R263, R264). -/
theorem offset_splatted {y z : Fin cfg.numSynth} {t u : Nat} {x w : Int} {b c : Fin cfg.numBuf} {d e : Device cfg}
    (h : offset z u w c d = .ok e) :
    offset z u w c (d.splatted y t x b) = .ok ((d.splatted y t x b).splatted z u w c) := by
  obtain ⟨hfactor, hwin, -⟩ := offset_eq_ok.1 h
  refine offset_eq_ok.2 ⟨?_, ?_, rfl⟩
  · rwa [Device.factor_splatted]
  · rwa [Device.factor_splatted, Device.synAt_splatted]

/-- Into one buffer the taps add up in either order; into two, neither splat sees the other (R110). -/
theorem Device.splatted_comm (d : Device cfg) (y z : Fin cfg.numSynth) (t u : Nat) (x w : Int)
    (b c : Fin cfg.numBuf) :
    (d.splatted y t x b).splatted z u w c = (d.splatted z u w c).splatted y t x b := by
  simp only [Device.splatted, Device.synAt_setBuf]
  rcases eq_or_ne b c with rfl | hbc
  · simp only [Device.bufAt_setBuf_self, Device.setBuf_setBuf]
    rw [Buffer.splat_comm]
  · rw [Device.bufAt_setBuf_ne _ _ hbc.symm, Device.bufAt_setBuf_ne _ _ hbc, Device.setBuf_comm _ _ _ hbc]

/-- Settles O35: each splat stays in range after the other, and the two devices agree. -/
theorem splatsCommute : Obligations.SplatsCommute := by
  intro d d₁ d₂ y z t u x w b c h₁ h₂
  refine ⟨(d.splatted y t x b).splatted z u w c, ?_, ?_⟩
  · rw [h₁, Progress.andThen_ok, offset_eq_ok_splatted h₁, offset_splatted h₂]
  · rw [h₂, Progress.andThen_ok, offset_eq_ok_splatted h₂, offset_splatted h₁, Device.splatted_comm]

end Machine

end Sys2Proof
end

section
/-! The encoder and the decoder undo each other, and the decoder is the match and mask table (spec/30_encoding.md R130
to R138); a value that is no command is refused (R505); the words of a response (R133, R134). -/

namespace Sys2Proof

/-! ### The encoder and the decoder -/

/-- Settles O2: the opcode selects the arm of the decoder, which reads back the operands and finds the reserved fields
0. Only the word of `WRITE`'s data byte is cut again. -/
theorem decodeEncodeRoundTrip : Obligations.DecodeEncodeRoundTrip := by
  intro i
  cases i with
  | write y d =>
    obtain ⟨hreserved, hdata⟩ := extract_data_setWidth d
    simp [decode, encode, reservedZero, Cmd.make_op, Cmd.make_x, Cmd.make_y, Cmd.make_u, Cmd.make_v, hreserved, hdata]
  | setSampleRate | setBassFreq | readSample | readSamples | flush | setVolume | setTreble | setOutput | runUntil
  | endFrame | reset =>
    simp [decode, encode, reservedZero, Cmd.make_op, Cmd.make_x, Cmd.make_y, Cmd.make_u, Cmd.make_v]

/-- A command is put together from its own fields. -/
theorem Cmd.make_eq {c : Cmd} {op x : Byte} {y : Half} {u v : Word} (hop : c.op = op) (hx : c.x = x) (hy : c.y = y)
    (hu : c.u = u) (hv : c.v = v) : Cmd.make op x y u v = c := by
  subst hop hx hy hu hv
  exact c.make_fields

/-- Settles O3: in each arm the opcode and the reserved fields are those the encoder writes, and the operands are the
other fields; one arm for each opcode, in the order of R136. -/
theorem encodeDecodeRoundTrip : Obligations.EncodeDecodeRoundTrip := by
  intro c i h
  rcases decode_cases h with ⟨hop, hy, rfl⟩ | ⟨hop, hy, hv, rfl⟩ | ⟨hop, hy, hu, hv, rfl⟩ | ⟨hop, hy, hv, rfl⟩ |
    ⟨hop, hy, hu, hv, rfl⟩ | ⟨hop, hy, hv, rfl⟩ | ⟨hop, rfl⟩ | ⟨hop, hy, hv, rfl⟩ | ⟨hop, hx, hu, hv, rfl⟩ |
    ⟨hop, hx, hy, hv, rfl⟩ | ⟨hop, hx, hy, hv, rfl⟩ | ⟨hop, hx, hy, hu, hv, rfl⟩
  · exact Cmd.make_eq hop rfl hy rfl rfl
  · exact Cmd.make_eq hop rfl hy rfl hv
  · exact Cmd.make_eq hop rfl hy hu hv
  · exact Cmd.make_eq hop rfl hy rfl hv
  · exact Cmd.make_eq hop rfl hy hu hv
  · exact Cmd.make_eq hop rfl hy rfl hv
  · exact Cmd.make_eq hop rfl rfl rfl rfl
  · exact Cmd.make_eq hop rfl hy rfl hv
  · exact Cmd.make_eq hop hx rfl (setWidth_extract_data hu).symm hv
  · exact Cmd.make_eq hop hx hy rfl hv
  · exact Cmd.make_eq hop hx hy rfl hv
  · exact Cmd.make_eq hop hx hy hu hv

/-- The decoder is the inverse of the encoder. -/
theorem decode_eq_ok_iff {c : Cmd} {i : Instr} : decode c = .ok i ↔ encode i = c :=
  ⟨encodeDecodeRoundTrip c i, fun h => h ▸ decodeEncodeRoundTrip i⟩

/-- Settles O1: the first five are the words of their commands; the last sets bit 8 of W1, which `WRITE` reserves. -/
theorem specWordsDecode : Obligations.SpecWordsDecode :=
  ⟨decode_eq_ok_iff.2 (by decide), decode_eq_ok_iff.2 (by decide), decode_eq_ok_iff.2 (by decide),
    decode_eq_ok_iff.2 (by decide), decode_eq_ok_iff.2 (by decide), by decide⟩

/-! ### The table -/

/-- The row of a command in the opcode table (R138). -/
def Instr.row : Instr → OpcodeRow
  | .setSampleRate .. => opcodeTable[0]
  | .setBassFreq .. => opcodeTable[1]
  | .readSample .. => opcodeTable[2]
  | .readSamples .. => opcodeTable[3]
  | .flush .. => opcodeTable[4]
  | .setVolume .. => opcodeTable[5]
  | .setTreble .. => opcodeTable[6]
  | .setOutput .. => opcodeTable[7]
  | .write .. => opcodeTable[8]
  | .runUntil .. => opcodeTable[9]
  | .endFrame .. => opcodeTable[10]
  | .reset => opcodeTable[11]

theorem Instr.row_mem (i : Instr) : i.row ∈ opcodeTable := by
  cases i <;> exact List.getElem_mem _

theorem Instr.row_mnemonic (i : Instr) : i.row.mnemonic = i.mnemonic := by
  cases i <;> rfl

theorem opcodeTable_mnemonics_nodup : (opcodeTable.map OpcodeRow.mnemonic).Nodup := by decide

/-- A mnemonic names one row. -/
theorem Instr.row_eq {i : Instr} {row : OpcodeRow} (hmem : row ∈ opcodeTable) (h : i.mnemonic = row.mnemonic) :
    i.row = row :=
  List.inj_on_of_nodup_map opcodeTable_mnemonics_nodup i.row_mem hmem (i.row_mnemonic.trans h)

/-- The mask of `WRITE` on W1 covers the bits above the data byte. -/
theorem and_data_mask_eq_zero_iff (u : Word) : u &&& 0xFFFFFF00 = 0 ↔ u.extractLsb' 8 24 = 0 := by
  have hu : u = u.extractLsb' 8 24 ++ u.extractLsb' 0 8 := by
    rw [BitVec.extractLsb'_append_extractLsb'_eq_extractLsb' (by rfl)]
    exact BitVec.extractLsb'_eq_self.symm
  have hmask : u &&& 0xFFFFFF00 =
      (u.extractLsb' 8 24 &&& BitVec.allOnes 24) ++ (u.extractLsb' 0 8 &&& 0) := by
    rw [← BitVec.and_append, ← hu]; rfl
  rw [hmask, show (0 : Word) = (0 : BitVec 24) ++ (0 : BitVec 8) from rfl, append_eq_append_iff,
    BitVec.and_allOnes]
  exact and_iff_left BitVec.and_zero

/-- The words of a command match its row. -/
theorem encode_matches_row (i : Instr) : (encode i).bits &&& i.row.mask = i.row.pattern := by
  cases i with
  | setSampleRate x u v => exact (row_setSampleRate _).2 ⟨Cmd.make_op .., Cmd.make_y ..⟩
  | setBassFreq x u => exact (row_setBassFreq _).2 ⟨Cmd.make_op .., Cmd.make_y .., rfl⟩
  | readSample x => exact (row_readSample _).2 ⟨Cmd.make_op .., Cmd.make_y .., rfl, rfl⟩
  | readSamples x u => exact (row_readSamples _).2 ⟨Cmd.make_op .., Cmd.make_y .., rfl⟩
  | flush x => exact (row_flush _).2 ⟨Cmd.make_op .., Cmd.make_y .., rfl, rfl⟩
  | setVolume x u => exact (row_setVolume _).2 ⟨Cmd.make_op .., Cmd.make_y .., rfl⟩
  | setTreble x y u v => exact (row_setTreble _).2 (Cmd.make_op ..)
  | setOutput x u => exact (row_setOutput _).2 ⟨Cmd.make_op .., Cmd.make_y .., rfl⟩
  | write y d =>
    have hdata := (and_data_mask_eq_zero_iff _).2 (extract_data_setWidth d).1
    exact (row_write _).2 ⟨Cmd.make_op .., Cmd.make_x .., hdata, rfl⟩
  | runUntil u => exact (row_runUntil _).2 ⟨Cmd.make_op .., Cmd.make_x .., Cmd.make_y .., rfl⟩
  | endFrame u => exact (row_endFrame _).2 ⟨Cmd.make_op .., Cmd.make_x .., Cmd.make_y .., rfl⟩
  | reset => exact (row_reset _).2 ⟨Cmd.make_op .., Cmd.make_x .., Cmd.make_y .., rfl, rfl⟩

/-- A value that matches a row is the words of a command of that row: the mask leaves only its operands free. -/
theorem exists_encode_of_match {c : Cmd} : ∀ row ∈ opcodeTable, c.bits &&& row.mask = row.pattern →
    ∃ i, encode i = c ∧ i.mnemonic = row.mnemonic := by
  simp only [opcodeTable, List.forall_mem_cons, row_setSampleRate, row_setBassFreq, row_readSample, row_readSamples,
    row_flush, row_setVolume, row_setTreble, row_setOutput, row_write, row_runUntil, row_endFrame, row_reset]
  refine ⟨?_, ?_, ?_, ?_, ?_, ?_, ?_, ?_, ?_, ?_, ?_, ?_, by simp⟩
  · exact fun ⟨hop, hy⟩ => ⟨.setSampleRate c.x c.u c.v, Cmd.make_eq hop rfl hy rfl rfl, rfl⟩
  · exact fun ⟨hop, hy, hv⟩ => ⟨.setBassFreq c.x c.u, Cmd.make_eq hop rfl hy rfl hv, rfl⟩
  · exact fun ⟨hop, hy, hu, hv⟩ => ⟨.readSample c.x, Cmd.make_eq hop rfl hy hu hv, rfl⟩
  · exact fun ⟨hop, hy, hv⟩ => ⟨.readSamples c.x c.u, Cmd.make_eq hop rfl hy rfl hv, rfl⟩
  · exact fun ⟨hop, hy, hu, hv⟩ => ⟨.flush c.x, Cmd.make_eq hop rfl hy hu hv, rfl⟩
  · exact fun ⟨hop, hy, hv⟩ => ⟨.setVolume c.x c.u, Cmd.make_eq hop rfl hy rfl hv, rfl⟩
  · exact fun hop => ⟨.setTreble c.x c.y c.u c.v, Cmd.make_eq hop rfl rfl rfl rfl, rfl⟩
  · exact fun ⟨hop, hy, hv⟩ => ⟨.setOutput c.x c.u, Cmd.make_eq hop rfl hy rfl hv, rfl⟩
  · exact fun ⟨hop, hx, hu, hv⟩ => ⟨.write c.y (c.u.extractLsb' 0 8),
      Cmd.make_eq hop hx rfl (setWidth_extract_data ((and_data_mask_eq_zero_iff _).1 hu)).symm hv, rfl⟩
  · exact fun ⟨hop, hx, hy, hv⟩ => ⟨.runUntil c.u, Cmd.make_eq hop hx hy rfl hv, rfl⟩
  · exact fun ⟨hop, hx, hy, hv⟩ => ⟨.endFrame c.u, Cmd.make_eq hop hx hy rfl hv, rfl⟩
  · exact fun ⟨hop, hx, hy, hu, hv⟩ => ⟨.reset, Cmd.make_eq hop hx hy hu hv, rfl⟩

/-- A value decodes to a command of a row exactly when it matches the row. -/
theorem decode_row_iff (c : Cmd) {row : OpcodeRow} (hmem : row ∈ opcodeTable) :
    (∃ i, decode c = .ok i ∧ i.mnemonic = row.mnemonic) ↔ c.bits &&& row.mask = row.pattern := by
  simp only [decode_eq_ok_iff]
  constructor
  · rintro ⟨i, rfl, hname⟩
    rw [← Instr.row_eq hmem hname]
    exact encode_matches_row i
  · exact exists_encode_of_match row hmem

theorem decode_error_iff (c : Cmd) :
    (∃ e, decode c = .error e) ↔ ∀ row ∈ opcodeTable, c.bits &&& row.mask ≠ row.pattern := by
  constructor
  · rintro ⟨e, he⟩ row hmem hmatch
    obtain ⟨i, hi, -⟩ := (decode_row_iff c hmem).2 hmatch
    rw [he] at hi
    cases hi
  · intro hnone
    cases hdec : decode c with
    | error e => exact ⟨e, rfl⟩
    | ok i => exact absurd ((decode_row_iff c i.row_mem).1 ⟨i, hdec, i.row_mnemonic.symm⟩) (hnone _ i.row_mem)

theorem reservedZero_ne_unknownOpcode (ok : Bool) (i : Instr) : reservedZero ok i ≠ .error .unknownOpcode := by
  cases ok <;> simp [reservedZero]

/-- An arm of an opcode never answers `unknownOpcode`, so the answer means that none of 0x01 to 0x0C was met (R137). -/
theorem decode_unknownOpcode_iff (c : Cmd) :
    decode c = .error .unknownOpcode ↔ c.op = 0x00 ∨ 0x0D ≤ c.op.toNat := by
  simp only [decode, ite_eq_iff, reservedZero_ne_unknownOpcode, reduceCtorEq, and_false, false_or, and_true]
  bv_omega

/-- Settles O4, one lemma for each of its three clauses. -/
theorem decodeIsTheMatchMaskTable : Obligations.DecodeIsTheMatchMaskTable := fun c =>
  ⟨fun _ => decode_row_iff c, decode_error_iff c, decode_unknownOpcode_iff c⟩

/-- The bytes of a table word are the bytes of its command (assumption log entry 4). -/
theorem tableWordBytes_bits (c : Cmd) : tableWordBytes 96 c.bits.toNat = c.bytes := by
  rw [tableWordBytes, Nat.mod_eq_of_lt c.bits.isLt, BitVec.ofNat_toNat, BitVec.setWidth_eq, Cmd.ofBits_bits]

theorem decodeTableWord_bits (c : Cmd) : decodeTableWord 96 c.bits.toNat = (decode c).toOption := by
  have hfetch := Machine.fetchCommand_append c []
  rw [List.append_nil] at hfetch
  simp only [decodeTableWord, tableWordBytes_bits, hfetch]

namespace Machine

theorem withFetchWord_inbox (s : State) (c : Cmd) :
    (s.withFetchWord 96 c.bits.toNat).inbox = c.bytes ++ s.inbox := by
  rw [State.withFetchWord, tableWordBytes_bits]; rfl

/-- Settles O6: the bytes placed are those of the command, which decodes back, and taking them leaves the transport as
it was. -/
theorem tableWordsRoundTrip : Obligations.TableWordsRoundTrip := by
  intro i
  have hdec := decodeEncodeRoundTrip i
  refine ⟨?_, fun s hf => ?_⟩
  · rw [decodeTableWord_bits, hdec]; rfl
  · exact stepRunsDecodedCommand _ _ _ i (withFetchWord_inbox s (encode i)) hf hdec

/-- Settles O8: the step takes the twelve bytes off the transport and refuses them. -/
theorem illegalCommandIsRefused : Obligations.IllegalCommandIsRefused := by
  intro s c rest e hin hf hdec
  exact ⟨_, (step_command hin).trans (answerCommand_undecodable hf hdec), rfl, rfl, rfl, rfl⟩

/-! ### The words of a response -/

/-- The code stands in the top byte of the status word (R133). -/
theorem Status.word_toNat (st : Status) : st.word.toNat = st.code.toNat * 2 ^ 24 := by
  show (st.code ++ (0 : BitVec 24)).toNat = _
  rw [BitVec.toNat_append, Nat.shiftLeft_eq]
  simp

/-- A sample keeps its value when it is returned (R133). -/
theorem sampleWord_toInt (x : Half) : (sampleWord x).toInt = x.toInt :=
  BitVec.toInt_signExtend_of_le (by decide)

/-- The codes of R134, status by status. -/
theorem Status.code_mem (st : Status) :
    st.code ∈ [0x00#8, 0x01, 0x02, 0x03, 0x04, 0x10, 0x11, 0x12, 0x13, 0x20, 0x21] := by
  cases st with
  | ok => decide
  | error e => cases e <;> decide
  | faulted => decide
  | fault c => cases c <;> decide
  | refusal r => cases r <;> decide

/-- Settles O11: the codes named are those of the definition. -/
theorem statusAndSampleWords : Obligations.StatusAndSampleWords :=
  ⟨Status.word_toNat, sampleWord_toInt, fun _ _ => rfl,
    ⟨rfl, rfl, rfl, rfl, rfl, rfl, rfl, rfl, rfl, rfl, rfl⟩, Status.code_mem⟩

end Machine

end Sys2Proof
end

section
/-! The rate conversions of the SynthesisBuffer: re-quantisation, the Q16.16 factor and the bass shift
(spec/40_synthesis_buffer.md R203 to R205). -/

namespace Sys2Proof.Machine

/-! ### Re-quantisation (R203) -/

/-- The multiples of `sr` not above `cr` are those of the quotients not above `cr div sr`. -/
theorem le_requant_of_dvd {sr cr m : Int} (hsr : 0 < sr) (hdvd : sr ∣ m) (hle : m ≤ cr) : m ≤ requant sr cr := by
  obtain ⟨q, rfl⟩ := hdvd
  have hq : q ≤ cr / sr := (Int.le_ediv_iff_mul_le hsr).2 (by rw [Int.mul_comm]; exact hle)
  exact Int.mul_le_mul_of_nonneg_left hq hsr.le

/-- Settles O17: the quotient is the largest one whose multiple of `sr` is not above `cr`. -/
theorem requantIsLargestMultiple : Obligations.RequantIsLargestMultiple := by
  intro sr cr hsr hcr
  refine ⟨rfl, Dvd.intro _ rfl, Int.mul_ediv_self_le hsr.ne', fun m => le_requant_of_dvd hsr,
    Int.mul_ediv_cancel_left _ hsr.ne', fun hlt => ?_⟩
  rw [requant, Int.ediv_eq_zero_of_lt hcr.le hlt, Int.mul_zero]

/-- Rates that convert have a positive ratio. -/
theorem ratio_pos {sr cr : Int} (hsr : 0 < sr) (hle : sr ≤ cr) : 0 < cr / sr :=
  (Int.le_ediv_iff_mul_le hsr).2 (by omega)

theorem requant_pos {sr cr : Int} (hsr : 0 < sr) (hle : sr ≤ cr) : 0 < requant sr cr :=
  Int.mul_pos hsr (ratio_pos hsr hle)

/-! ### The factor (R204) -/

/-- Rounding a quotient of integers to nearest, ties upward, is one integer division. -/
theorem floor_div_add_half {a b : Int} (hb : 0 < b) : ⌊(a : ℚ) / b + 1 / 2⌋ = (2 * a + b) / (2 * b) := by
  have hbq : (0 : ℚ) < b := by exact_mod_cast hb
  have hsum : (a : ℚ) / b + 1 / 2 = ((2 * a + b : Int) : ℚ) / ((2 * b : Int) : ℚ) := by
    push_cast
    field_simp
  rw [hsum, Int.floor_div_cast_of_nonneg (by omega), Int.floor_intCast]

theorem factorOf_eq_floor {sr crq : Int} (h : 0 < crq) : factorOf sr crq = ⌊(sr : ℚ) * 2 ^ 16 / crq + 1 / 2⌋ := by
  have hround := floor_div_add_half (a := sr * 2 ^ 16) h
  simp only [Int.cast_mul, Int.cast_pow, Int.cast_ofNat] at hround
  rw [hround, factorOf]
  congr 1
  ring

/-- The factor depends on the ratio `k = cr div sr` alone. -/
theorem factorOf_requant {sr cr : Int} (hsr : 0 < sr) :
    factorOf sr (requant sr cr) = (2 ^ 17 + cr / sr) / (2 * (cr / sr)) := by
  have hnum : sr * 2 ^ 17 + sr * (cr / sr) = sr * (2 ^ 17 + cr / sr) := by ring
  have hden : 2 * (sr * (cr / sr)) = sr * (2 * (cr / sr)) := by ring
  rw [factorOf, requant, hnum, hden, Int.mul_ediv_mul_of_pos _ _ hsr]

/-- The factor rounds to 0 exactly when the ratio is above `2^17` (R204). -/
theorem factorOf_requant_eq_zero_iff {sr cr : Int} (hsr : 0 < sr) (hle : sr ≤ cr) :
    factorOf sr (requant sr cr) = 0 ↔ 131072 < cr / sr := by
  have hk := ratio_pos hsr hle
  rw [factorOf_requant hsr]
  generalize cr / sr = k at hk
  constructor
  · intro hzero
    by_contra hsmall
    have hone : 1 ≤ (2 ^ 17 + k) / (2 * k) := (Int.le_ediv_iff_mul_le (by omega)).2 (by omega)
    omega
  · intro hlarge
    exact Int.ediv_eq_zero_of_lt (by omega) (by omega)

/-- Settles O18: the factor is the rounded ratio, as a quotient of the rates and as a function of `k`. -/
theorem factorIsRounded : Obligations.FactorIsRounded := by
  intro sr cr hsr hle
  have hratio := factorOf_requant (cr := cr) hsr
  have hfloor := floor_div_add_half (a := 2 ^ 16) (ratio_pos hsr hle)
  refine ⟨rfl, factorOf_eq_floor (requant_pos hsr hle), ?_, ?_, ?_, ?_, ?_, factorOf_requant_eq_zero_iff hsr hle⟩
  · simp only [Int.cast_pow, Int.cast_ofNat] at hfloor
    rw [hratio, hfloor]
    rfl
  · intro h; rw [hratio, h]; decide
  · intro h; rw [hratio, h]; decide
  · intro h; rw [hratio, h]; decide
  · intro h; rw [hratio, h]; decide

/-! ### The bass shift (R205) -/

/-- The loop at the power `2^(k+1)`, with `2^k` passed already, takes one step for each power of two left up to `f`. -/
theorem bassLoop_eq {f : Nat} (hf : f ≠ 0) (n k : Nat) (hk : k ≤ f.log2) :
    bassLoop f n (2 ^ (k + 1)) = n - min n (f.log2 - k) := by
  induction n generalizing k with
  | zero => simp [bassLoop]
  | succ n ih =>
    have hpow : ((2 : Int) ^ (k + 1) ≤ f) ↔ k + 1 ≤ f.log2 := by
      rw [Nat.le_log2 hf]
      exact_mod_cast Iff.rfl
    rw [bassLoop]
    by_cases hnext : k + 1 ≤ f.log2
    · rw [if_pos (hpow.2 hnext), ← pow_succ', ih (k + 1) hnext]
      omega
    · rw [if_neg (hpow.not.2 hnext)]
      omega

theorem bassCalc_of_not_pos {hz sr : Int} (h : hz ≤ 0 ∨ sr ≤ 0) : bassCalc hz sr = 31 := if_pos h

theorem bassCalc_of_pos {hz sr : Int} (hhz : 0 < hz) (hsr : 0 < sr) :
    bassCalc hz sr = bassLoop (hz * 2 ^ 16 / sr) 13 2 := if_neg (by omega)

/-- Settles O19: at `f = 0` the loop stops at once, and from `f = 1` on it counts the powers of two up to `f`. -/
theorem bassShiftClosedForm : Obligations.BassShiftClosedForm := by
  intro hz sr
  refine ⟨bassCalc_of_not_pos, fun hhz hsr hzero => ?_, fun hhz hsr hone => ?_⟩
  · rw [bassCalc_of_pos hhz hsr, hzero]
    rfl
  · rw [bassCalc_of_pos hhz hsr]
    generalize hz * 2 ^ 16 / sr = f at hone
    obtain ⟨n, rfl⟩ := Int.eq_ofNat_of_zero_le (by omega : 0 ≤ f)
    exact bassLoop_eq (by omega) 13 0 (Nat.zero_le _)

end Sys2Proof.Machine
end

section
/-! The five commands of the SynthesisBuffer: what each leaves in its buffer and what it leaves alone
(spec/40_synthesis_buffer.md R202, R206, R210 to R216). -/

namespace Sys2Proof.Machine

variable {cfg : ChipConfig}

/-! ### A command that sets one buffer -/

theorem Device.SameButBuf.setBuf (d : Device cfg) (b : Fin cfg.numBuf) (v : Buffer) :
    d.SameButBuf b (d.setBuf b v) where
  fault := rfl
  chip := ⟨fun _ => rfl, rfl, rfl, rfl, rfl, rfl⟩
  syn _ := rfl
  osc _ := rfl
  buf _ hc := d.bufAt_setBuf_ne v hc

/-- The machine after a command that answered OK with `xs` and left `v` in buffer `b`. -/
def State.afterBuf (s : State cfg) (b : Fin cfg.numBuf) (v : Buffer) (xs : List Half) : State cfg :=
  { s with dev := s.dev.setBuf b v }.respond .ok xs

@[simp] theorem State.afterBuf_dev (s : State cfg) (b : Fin cfg.numBuf) (v : Buffer) (xs : List Half) :
    (s.afterBuf b v xs).dev = s.dev.setBuf b v := rfl

@[simp] theorem State.afterBuf_outbox (s : State cfg) (b : Fin cfg.numBuf) (v : Buffer) (xs : List Half) :
    (s.afterBuf b v xs).outbox = s.outbox ++ [⟨.ok, xs⟩] := rfl

/-- A buffer set to what it holds leaves the device as it was. -/
theorem State.afterBuf_bufAt (s : State cfg) (b : Fin cfg.numBuf) (xs : List Half) :
    s.afterBuf b (s.dev.bufAt b) xs = s.respond .ok xs := by
  rw [State.afterBuf, Device.setBuf_bufAt]

/-- Of two commands that set one buffer, nothing of the first remains but its response. -/
theorem State.afterBuf_afterBuf (s : State cfg) (b : Fin cfg.numBuf) (v w : Buffer) (xs ys zs : List Half) :
    s.afterBuf b w zs = { (s.afterBuf b v xs).afterBuf b w ys with outbox := s.outbox ++ [⟨.ok, zs⟩] } := by
  simp [State.afterBuf, State.respond]

theorem exec_afterBuf {s : State} {i : Instr} {b : Fin Config.chip.numBuf} {v : Buffer} {xs : List Half}
    (hf : s.dev.fault = none) (hb : bodyOf i s.dev = .done (s.dev.setBuf b v) xs) :
    exec i s = .next (s.afterBuf b v xs) := exec_done hf hb

/-- A command whose body sets one buffer answers OK, leaves that buffer as set and every other component alone. -/
theorem exec_setBuf {s : State} {i : Instr} {b : Fin Config.chip.numBuf} {v : Buffer} {xs : List Half}
    (hf : s.dev.fault = none) (hb : bodyOf i s.dev = .done (s.dev.setBuf b v) xs) :
    ∃ t, exec i s = .next t ∧ s.Answers t .ok xs ∧ s.dev.SameButBuf b t.dev ∧ t.dev.bufAt b = v :=
  ⟨_, exec_afterBuf hf hb, ⟨rfl, rfl, rfl⟩, .setBuf s.dev b v, s.dev.bufAt_setBuf_self b v⟩

/-- Settles O22: the body sets the cutoff and the shift of its buffer. -/
theorem setBassFreqStoresCutoff : Obligations.SetBassFreqStoresCutoff := by
  intro s x b u hf hx
  exact exec_setBuf (i := .setBassFreq x u) hf (setBassFreq_at hx u s.dev)

/-- Settles O26: the body flushes its buffer. -/
theorem flushClearsBuffer : Obligations.FlushClearsBuffer := by
  intro s x b hf hx
  obtain ⟨t, hexec, hans, hsame, hbuf⟩ := exec_setBuf (i := .flush x) hf (flush_at hx s.dev)
  refine ⟨t, hexec, hans, hsame, ?_, ?_⟩
  · rw [hbuf]; rfl
  · rw [hbuf]; exact (s.dev.bufAt b).flushed_slot

/-! ### Rates -/

/-- Rates that convert configure the buffer (R202). -/
theorem setSampleRate_converts {x : Byte} {b : Fin cfg.numBuf} (hx : x.toNat = b.1) {u v : Word}
    (hu : 0 < u.toInt) (hle : u.toInt ≤ v.toInt) (hk : v.toInt / u.toInt ≤ 131072) (d : Device cfg) :
    setSampleRate x u v d = .done (d.setBuf b ((d.bufAt b).configured u.toInt (requant u.toInt v.toInt)
      (factorOf u.toInt (requant u.toInt v.toInt)))) [] := by
  have hreq := requant_pos hu hle
  have hfac := (factorOf_requant_eq_zero_iff hu hle).not.2 (by omega)
  rw [setSampleRate_at hx, if_neg (by omega), if_neg (by omega), if_neg hfac]

/-- Settles O20: the words stored hold the rates and the factor exactly, and the buffer is flushed. -/
theorem setSampleRateConfigures : Obligations.SetSampleRateConfigures := by
  intro s x b u v hf hx hu hle hk
  obtain ⟨t, hexec, hans, hsame, hbuf⟩ :=
    exec_setBuf (i := .setSampleRate x u v) hf (setSampleRate_converts hx hu hle hk s.dev)
  obtain ⟨hlow, hhigh⟩ := requant_range hu (requant_pos hu hle)
  have hv : v.toInt < 2 ^ 31 := BitVec.toInt_lt
  obtain ⟨hfac0, hfac1⟩ := factorOf_range hu hlow
  have hfac : factorOf u.toInt (requant u.toInt v.toInt) ≠ 0 :=
    (factorOf_requant_eq_zero_iff hu hle).not.2 (by omega)
  have hclock : (BitVec.ofInt 32 (requant u.toInt v.toInt)).toInt = requant u.toInt v.toInt := by
    rw [BitVec.toInt_ofInt, Int.bmod_def]; omega
  have hfactor : ((BitVec.ofInt 32 (factorOf u.toInt (requant u.toInt v.toInt))).toNat : Int) =
      factorOf u.toInt (requant u.toInt v.toInt) := by
    rw [BitVec.toNat_ofInt]; omega
  refine ⟨t, hexec, hans, hsame, ?_⟩
  rw [hbuf]
  refine ⟨BitVec.ofInt_toInt, hclock, hfactor, ?_, rfl, rfl, rfl, (s.dev.bufAt b).flushed_slot⟩
  show 0 < (BitVec.ofInt 32 (factorOf u.toInt (requant u.toInt v.toInt))).toNat
  omega

/-- Rates that do not convert are an error (R202). -/
theorem setSampleRate_rejects {x : Byte} {b : Fin cfg.numBuf} (hx : x.toNat = b.1) {u v : Word}
    (h : u.toInt ≤ 0 ∨ v.toInt ≤ 0 ∨ v.toInt < u.toInt ∨ 131072 < v.toInt / u.toInt) (d : Device cfg) :
    setSampleRate x u v d = .error .invalidRate := by
  rw [setSampleRate_at hx]
  split_ifs with hpos hreq hfac
  · rfl
  · rfl
  · rfl
  · have hu : 0 < u.toInt := by omega
    obtain ⟨hlow, hhigh⟩ := requant_range hu (Int.not_le.1 hreq)
    have hle : u.toInt ≤ v.toInt := hlow.trans hhigh
    have hk := (factorOf_requant_eq_zero_iff hu hle).not.1 hfac
    omega

/-- Settles O21: the body is an error, which changes nothing. -/
theorem setSampleRateRejects : Obligations.SetSampleRateRejects := by
  intro s x b u v hf hx h
  exact exec_error hf (setSampleRate_rejects hx h s.dev)

/-! ### Reads -/

/-- The sample a read returns, on integers (R211): the statements shift by an integer, the model by a natural number. -/
theorem Buffer.nextSample_toInt (b : Buffer) :
    b.nextSample.toInt = min 32767 (max (-32768) (b.nextAcc.toInt >>> (16 : ℤ))) := by
  have hshift : b.nextAcc.toInt >>> (16 : ℤ) = b.nextAcc.toInt >>> Config.outShift :=
    Int.shiftRight_natCast_right _ 16
  rw [hshift, Buffer.nextSample, sampleOf_toInt, sat16]

/-- Settles O23: the buffer after the read, slot by slot, and its sample on integers. -/
theorem readSampleConsumesOneSlot : Obligations.ReadSampleConsumesOneSlot := by
  intro s x b hf hx
  obtain ⟨t, hexec, hans, hsame, hbuf⟩ := exec_setBuf (i := .readSample x) hf (readSample_at hx s.dev)
  refine ⟨t, _, hexec, hans, hsame, ?_⟩
  rw [hbuf]
  refine ⟨(s.dev.bufAt b).nextAcc_eq, fun j hj => ?_, ?_, rfl, (s.dev.bufAt b).nextSample_toInt⟩
  · exact (shiftLine_slot _ j (Nat.lt_of_succ_lt hj)).trans (dif_pos hj)
  · exact (shiftLine_slot _ 16 (by decide)).trans (dif_neg (by decide))

theorem exec_readSamples_at {s : State} {x : Byte} {b : Fin Config.chip.numBuf} (hf : s.dev.fault = none)
    (hx : x.toNat = b.1) {n : Nat} (hn : n < 2 ^ 32) :
    exec (.readSamples x (BitVec.ofNat 32 n)) s =
      .next (s.afterBuf b ((s.dev.bufAt b).afterReads n) ((s.dev.bufAt b).nextSamples n)) := by
  have hcount : (BitVec.ofNat 32 n).toNat = n := (BitVec.toNat_ofNat n 32).trans (Nat.mod_eq_of_lt hn)
  have hbody := readSamples_at hx (BitVec.ofNat 32 n) s.dev
  rw [hcount] at hbody
  exact exec_afterBuf hf hbody

/-- Settles O24: the first read leaves the buffer that the other `n` reads start from. -/
theorem readSamplesAreSuccessiveReads : Obligations.ReadSamplesAreSuccessiveReads := by
  intro s x n hf hx hn
  obtain ⟨b, hb⟩ : ∃ b : Fin Config.chip.numBuf, x.toNat = b.1 := ⟨⟨x.toNat, hx⟩, rfl⟩
  constructor
  · have hzero := exec_readSamples_at hf hb (n := 0) (by decide)
    exact hzero.trans (congrArg _ (s.afterBuf_bufAt b []))
  · have hone := exec_afterBuf (i := .readSample x) hf (readSample_at hb s.dev)
    have hrest := exec_readSamples_at (s := s.afterBuf b (s.dev.bufAt b).afterRead [(s.dev.bufAt b).nextSample]) hf hb
      (n := n) (by omega)
    rw [State.afterBuf_dev, Device.bufAt_setBuf_self] at hrest
    refine ⟨_, _, (s.dev.bufAt b).nextSample, (s.dev.bufAt b).afterRead.nextSamples n, hone, hrest, ?_,
      Buffer.nextSamples_length _ _, ?_⟩
    · simp only [State.afterBuf_outbox, List.append_assoc, List.cons_append, List.nil_append]
    · exact (exec_readSamples_at hf hb hn).trans (congrArg _ (s.afterBuf_afterBuf b _ _ _ _ _))

/-! ### Silence -/

/-- Slots past the end of the line enter it as 0, so seventeen reads empty it. -/
theorem Buffer.afterReads_slot_eq_zero (b : Buffer) {m : Nat} (hm : 17 ≤ m) (j : Nat) (h : j < 17) :
    (b.afterReads m).dl[j] = 0 :=
  (b.afterReads_slot m j h).trans (dif_neg (by show ¬ j + m < 17; omega))

/-- No slot of the delay line holds anything. -/
def Buffer.LineEmpty (b : Buffer) : Prop := ∀ (j : Nat) (h : j < Config.delayLen), b.dl[j] = 0

/-- A buffer whose delay line is empty and whose accumulator is below the scale of a sample. -/
structure Buffer.Settled (b : Buffer) : Prop where
  line : b.LineEmpty
  nonneg : 0 ≤ b.acc.toInt
  small : b.acc.toInt < 2 ^ 16

theorem Buffer.LineEmpty.afterRead {b : Buffer} (h : b.LineEmpty) : b.afterRead.LineEmpty := by
  intro j hj
  rw [Buffer.afterRead_dl, shiftLine_slot]
  split
  · exact h _ _
  · rfl

theorem Buffer.Settled.afterRead {b : Buffer} (h : b.Settled) : b.afterRead.Settled := by
  obtain ⟨-, hnonneg, hle⟩ := Buffer.nextAcc_nonneg (h.line 0 (by decide)) h.nonneg
  exact ⟨h.line.afterRead, hnonneg, lt_of_le_of_lt hle h.small⟩

theorem Buffer.Settled.afterReads {b : Buffer} (h : b.Settled) : ∀ n, (b.afterReads n).Settled
  | 0 => h
  | n + 1 => by rw [Buffer.afterReads_succ]; exact (h.afterReads n).afterRead

/-- A settled buffer reads 0: its accumulator stays below one unit of the sample. -/
theorem Buffer.Settled.nextSample {b : Buffer} (h : b.Settled) : b.nextSample = 0 := by
  have hnext := h.afterRead
  have hzero : b.nextAcc.toInt >>> Config.outShift = 0 := by
    rw [Int.shiftRight_eq_div_pow]
    exact Int.ediv_eq_zero_of_lt hnext.nonneg hnext.small
  rw [Buffer.nextSample, sampleOf, hzero]
  rfl

/-- With an empty line and a bass shift of at most 16, a read moves an accumulator that has not settled towards 0. -/
theorem Buffer.natAbs_nextAcc_lt {b : Buffer} (h0 : b.dl[0] = 0) (hshift : b.bassShift ≤ 16)
    (hacc : b.acc.toInt < 0 ∨ 2 ^ 16 ≤ b.acc.toInt) : b.nextAcc.toInt.natAbs < b.acc.toInt.natAbs := by
  rcases hacc with hneg | hlarge
  · have := Buffer.nextAcc_neg h0 hneg
    omega
  · obtain ⟨heq, hnonneg, -⟩ := Buffer.nextAcc_nonneg h0 (by omega)
    have hpow : (2 : Int) ^ b.bassShift ≤ 2 ^ 16 := pow_le_pow_right₀ (by decide) hshift
    have hleak : 1 ≤ b.acc.toInt / 2 ^ b.bassShift := (Int.le_ediv_iff_mul_le (by positivity)).2 (by omega)
    omega

/-- An empty line and a bass shift of at most 16 settle the buffer, by induction on the size of the accumulator. -/
theorem Buffer.exists_settled (b : Buffer) (hline : b.LineEmpty) (hshift : b.bassShift ≤ 16) :
    ∃ n, (b.afterReads n).Settled := by
  by_cases hacc : b.acc.toInt < 0 ∨ 2 ^ 16 ≤ b.acc.toInt
  · have := Buffer.natAbs_nextAcc_lt (hline 0 (by decide)) hshift hacc
    obtain ⟨n, hn⟩ := b.afterRead.exists_settled hline.afterRead hshift
    exact ⟨n + 1, hn⟩
  · rw [not_or, Int.not_lt, Int.not_le] at hacc
    exact ⟨0, hline, hacc.1, hacc.2⟩
termination_by b.acc.toInt.natAbs

/-- Settles O25: after seventeen reads the line is empty, then the accumulator shrinks until the buffer has settled. -/
theorem silenceConverges : Obligations.SilenceConverges := by
  intro b
  refine ⟨fun m j h hm => b.afterReads_slot_eq_zero hm j h, fun hshift => ?_⟩
  obtain ⟨n, hn⟩ := (b.afterReads 17).exists_settled (b.afterReads_slot_eq_zero le_rfl)
    (by rw [Buffer.afterReads_bassShift]; exact hshift)
  rw [← Buffer.afterReads_add] at hn
  refine ⟨17 + n, fun m hm => ?_⟩
  obtain ⟨k, rfl⟩ := Nat.exists_eq_add_of_le hm
  rw [Buffer.afterReads_add]
  exact (hn.afterReads k).nextSample

end Sys2Proof.Machine
end

section
/-! The operand checks of each command (spec/60_exceptions.md R505, R507 steps 3 and 4, R520): the first one that fails
decides the status, and a command that fails none never gets a status of theirs. -/

namespace Sys2Proof.Machine

variable {cfg : ChipConfig}

/-! ### What the checks fix of an answer -/

/-- What the operand checks say of an answer: its status is that of the first check that fails, and no such status when
none does. -/
def Answer.FollowsChecks (a : Answer cfg) : Option Status → Prop
  | some st => a.status = st
  | none => a.status.isOperandStatus = false

theorem Answer.status_eq_error {a : Answer cfg} {e : ErrorCode} (h : a.status = .error e) : a = .error e := by
  cases a with
  | done d xs => cases h
  | error e' => cases h; rfl
  | fault d c => cases h
  | refusal r => cases h

theorem Answer.status_eq_refusal {a : Answer cfg} {r : RefusalCode} (h : a.status = .refusal r) : a = .refusal r := by
  cases a with
  | done d xs => cases h
  | error e => cases h
  | fault d c => cases h
  | refusal r' => cases h; rfl

/-- A command that ends with its micro-operation is OK or faults. -/
@[simp] theorem Progress.answer_isOperandStatus (p : Progress cfg) : p.answer.status.isOperandStatus = false := by
  cases p <;> rfl

/-! ### The index operand -/

theorem indexInRange_of_le {n : Nat} {x : Byte} (h : n ≤ x.toNat) : indexInRange n x = false :=
  decide_eq_false (Nat.not_lt.2 h)

theorem indexInRange_fin {n : Nat} {x : Byte} {i : Fin n} (h : x.toNat = i.1) : indexInRange n x = true :=
  decide_eq_true (h ▸ i.2)

/-- The index is the first operand checked (R507 step 3); the checks after it decide about one in range. -/
theorem followsChecks_of_index {n : Nat} {x : Byte} {a : Answer cfg} {later : Option Status}
    (hout : n ≤ x.toNat → a = .error .indexOutOfRange) (hin : ∀ i : Fin n, x.toNat = i.1 → a.FollowsChecks later) :
    a.FollowsChecks (if indexInRange n x then later else some (.error .indexOutOfRange)) := by
  rcases le_or_eq_fin n x.toNat with hx | ⟨i, hx⟩
  · rw [indexInRange_of_le hx, hout hx]; rfl
  · rw [indexInRange_fin hx]; exact hin i hx

/-! ### Each command -/

theorem setSampleRate_followsChecks (x : Byte) (u v : Word) (d : Device cfg) :
    (setSampleRate x u v d).FollowsChecks (operandError cfg (.setSampleRate x u v)) := by
  refine followsChecks_of_index (fun hx => setSampleRate_out hx u v d) fun b hx => ?_
  rw [setSampleRate_at hx]
  split_ifs <;> rfl

theorem setVolume_followsChecks (x : Byte) (u : F32) (d : Device cfg) :
    (setVolume x u d).FollowsChecks (operandError cfg (.setVolume x u)) := by
  refine followsChecks_of_index (fun hx => setVolume_out hx u d) fun y hx => ?_
  unfold levelInRange
  cases hfin : f32Finite u with
  | false => rw [setVolume_bad hx (.inl hfin)]; rfl
  | true =>
    cases hlev : f32Level u with
    | none => rw [setVolume_bad hx (.inr hlev)]; rfl
    | some l =>
      show Answer.FollowsChecks _ none
      rw [setVolume_at hx hfin hlev]
      split_ifs <;> rfl

theorem setTreble_followsChecks (x : Byte) (cutoff : Half) (u : F32) (v : Word) (d : Device cfg) :
    (setTreble x cutoff u v d).FollowsChecks (operandError cfg (.setTreble x cutoff u v)) := by
  refine followsChecks_of_index (fun hx => setTreble_out hx cutoff u v d) fun y hx => ?_
  cases hfin : f32Finite u with
  | false => rw [setTreble_bad hx hfin]; rfl
  | true =>
    show Answer.FollowsChecks _ none
    rw [setTreble_at hx hfin]
    split_ifs <;> rfl

/-- The buffer operand of `SET_OUTPUT` is in range exactly when it names a buffer or `NULL`. -/
theorem outputInRange_eq_isSome (n : Nat) (u : Word) : outputInRange n u = (outputOperand n u).isSome := by
  cases hout : outputOperand n u with
  | none =>
    obtain ⟨hnull, hle⟩ := outputOperand_eq_none.1 hout
    simp [outputInRange, hnull, hle]
  | some new =>
    have hsome : outputOperand n u ≠ none := by simp [hout]
    rw [ne_eq, outputOperand_eq_none, not_and_or, not_not, Nat.not_le] at hsome
    simpa [outputInRange] using hsome

theorem setOutput_followsChecks (x : Byte) (u : Word) (d : Device cfg) :
    (setOutput x u d).FollowsChecks (operandError cfg (.setOutput x u)) := by
  have hchecks : operandError cfg (.setOutput x u) =
      if indexInRange cfg.numOsc x then
        if outputInRange cfg.numBuf u then none else some (.error .indexOutOfRange)
      else some (.error .indexOutOfRange) := by
    simp only [operandError, Bool.and_eq_true, ite_and]
  rw [hchecks]
  refine followsChecks_of_index (fun hx => setOutput_out hx u d) fun i hx => ?_
  rw [outputInRange_eq_isSome]
  cases hout : outputOperand cfg.numBuf u with
  | none => rw [setOutput_bad hx hout]; rfl
  | some new =>
    show Answer.FollowsChecks _ none
    rw [setOutput_at hx hout]
    split_ifs
    · rfl
    · exact Progress.answer_isOperandStatus _

theorem write_followsChecks (y : Half) (v : Byte) (d : Device cfg) :
    (write y v d).FollowsChecks (operandError cfg (.write y v)) := by
  rcases Nat.lt_or_ge y.toNat cfg.regSize with hy | hy
  · rw [write_at hy, operandError, addressInWindow, decide_eq_true hy]; rfl
  · rw [write_out hy, operandError, addressInWindow, decide_eq_false (Nat.not_lt.2 hy)]; rfl

theorem bodyOf_followsChecks (i : Instr) (d : Device cfg) : (bodyOf i d).FollowsChecks (operandError cfg i) := by
  cases i with
  | setSampleRate x u v => exact setSampleRate_followsChecks x u v d
  | setBassFreq x u =>
    exact followsChecks_of_index (fun hx => setBassFreq_out hx u d) fun b hx => by rw [bodyOf, setBassFreq_at hx]; rfl
  | readSample x =>
    exact followsChecks_of_index (fun hx => readSample_out hx d) fun b hx => by rw [bodyOf, readSample_at hx]; rfl
  | readSamples x u =>
    exact followsChecks_of_index (fun hx => readSamples_out hx u d) fun b hx => by rw [bodyOf, readSamples_at hx]; rfl
  | flush x =>
    exact followsChecks_of_index (fun hx => flush_out hx d) fun b hx => by rw [bodyOf, flush_at hx]; rfl
  | setVolume x u => exact setVolume_followsChecks x u d
  | setTreble x y u v => exact setTreble_followsChecks x y u v d
  | setOutput x u => exact setOutput_followsChecks x u d
  | write y v => exact write_followsChecks y v d
  | runUntil u => exact Progress.answer_isOperandStatus _
  | endFrame u => exact Progress.answer_isOperandStatus _
  | reset => rfl

/-! ### The host's duty -/

theorem isNone_ite_none_some (c : Bool) (st : Status) : (if c then none else some st : Option Status).isNone = c := by
  cases c <;> rfl

/-- A command fails no operand check exactly when it is well-formed (R520). -/
theorem operandError_isNone (cfg : ChipConfig) (i : Instr) : (operandError cfg i).isNone = i.wellFormed cfg := by
  cases i with
  | setSampleRate x u v => exact isNone_ite_none_some _ _
  | setBassFreq x u => exact isNone_ite_none_some _ _
  | readSample x => exact isNone_ite_none_some _ _
  | readSamples x u => exact isNone_ite_none_some _ _
  | flush x => exact isNone_ite_none_some _ _
  | setVolume x u =>
    simp only [operandError, Instr.wellFormed]
    cases indexInRange cfg.numSynth x
    · rfl
    · exact isNone_ite_none_some _ _
  | setTreble x y u v =>
    simp only [operandError, Instr.wellFormed]
    cases indexInRange cfg.numSynth x
    · rfl
    · exact isNone_ite_none_some _ _
  | setOutput x u => exact isNone_ite_none_some _ _
  | write y v => exact isNone_ite_none_some _ _
  | runUntil u => rfl
  | endFrame u => rfl
  | reset => rfl

/-- Settles O16: the body answers with the status of the first check that fails, which fixes the whole answer. -/
theorem operandChecksComeFirst : Obligations.OperandChecksComeFirst := by
  intro s i hf
  have hchecks := bodyOf_followsChecks i s.dev
  refine ⟨fun e he => ?_, fun c hc => ?_, fun hnone => ?_, operandError_isNone Config.chip i⟩
  · rw [he] at hchecks
    exact exec_error hf (Answer.status_eq_error hchecks)
  · rw [hc] at hchecks
    exact exec_refusal hf (Answer.status_eq_refusal hchecks)
  · rw [hnone] at hchecks
    exact ⟨_, _, exec_ready hf i, conclude_outbox_eq s _, hchecks⟩

end Sys2Proof.Machine
end

section
/-! The delta factor, the kernel bounds and the two commands of the StepSynthesizer (spec/41_step_synthesizer.md R251 to
R258). -/

namespace Sys2Proof.Machine

variable {cfg : ChipConfig}

/-! ### The delta factor (R254) -/

/-- The delta factor is the rounding division of `level * 2^31` by the unit, both in units of `2^-149`. -/
theorem deltaFactorOf_eq_floor (level : Nat) {unit : Nat} (h : 0 < unit) :
    (deltaFactorOf level unit : ℤ) = ⌊(level : ℚ) / 2 ^ 149 * 2 ^ 31 / unit + 1 / 2⌋ := by
  have hround := floor_div_add_half (a := level * 2 ^ 31) (b := unit * 2 ^ 149) (by positivity)
  simp only [Int.cast_mul, Int.cast_pow, Int.cast_natCast, Int.cast_ofNat] at hround
  have hquot : (level : ℚ) / 2 ^ 149 * 2 ^ 31 / unit = level * 2 ^ 31 / (unit * 2 ^ 149) := by
    rw [div_mul_eq_mul_div, div_div, mul_comm (unit : ℚ)]
  rw [hquot, hround, deltaFactorOf, Config.dfBits, mul_assoc 2 level, mul_assoc 2 unit]
  simp only [Int.natCast_ediv, Nat.cast_add, Nat.cast_mul, Nat.cast_pow, Nat.cast_ofNat]

/-- The factor of a level is positive from `unit / 2^32` on, the level whose quotient is 1/2 (R256). -/
theorem one_le_deltaFactorOf_iff (level : Nat) {unit : Nat} (h : 0 < unit) :
    1 ≤ deltaFactorOf level unit ↔ (unit : ℚ) / 2 ^ 32 ≤ (level : ℚ) / 2 ^ 149 := by
  have hunit : (0 : ℚ) < unit := by exact_mod_cast h
  calc 1 ≤ deltaFactorOf level unit
      ↔ (1 : ℤ) ≤ ⌊(level : ℚ) / 2 ^ 149 * 2 ^ 31 / unit + 1 / 2⌋ := by
        rw [← deltaFactorOf_eq_floor level h]; exact_mod_cast Iff.rfl
    _ ↔ 1 / 2 ≤ (level : ℚ) / 2 ^ 149 * 2 ^ 31 / unit := by
        rw [Int.le_floor, Int.cast_one, ← sub_le_iff_le_add]; norm_num
    _ ↔ (unit : ℚ) / 2 ^ 32 ≤ (level : ℚ) / 2 ^ 149 := by
        rw [le_div_iff₀ hunit, div_le_iff₀ (by positivity)]
        constructor <;> intro hle <;> linarith

/-- Settles O28: rounding is one integer division, and it reaches 1 from a quotient of 1/2 on. -/
theorem deltaFactorIsRounded : Obligations.DeltaFactorIsRounded := fun level _ h =>
  ⟨deltaFactorOf_eq_floor level h, one_le_deltaFactorOf_iff level h⟩

/-! ### Bounds (R252) -/

theorem Tier.width_le (t : Tier) : t.width ≤ 16 := by cases t <;> decide

/-- A row of `w` `s16` taps bounds the unit it sums to. -/
theorem Kernel.unit_le {w : Nat} {k : Kernel} (h : k.lawful w) : (k.unit : ℤ) ≤ w * (2 ^ 15 - 1) := by
  have htaps : ∀ t ∈ (List.range w).map (k.tap 0), t ≤ (2 ^ 15 - 1 : ℤ) := fun t ht => by
    obtain ⟨j, -, rfl⟩ := List.mem_map.1 ht
    exact Int.le_sub_one_of_lt (Kernel.tap_range h 0 j).2
  have hsum := List.sum_le_card_nsmul _ _ htaps
  rwa [Kernel.row_sum h (by decide), List.length_map, List.length_range, nsmul_eq_mul] at hsum

/-- A level of at most 1 has a factor of at most `2^31`, whatever the kernel unit: the quotient is at most `2^31`, and
so is what it rounds to. -/
theorem deltaFactorOf_le {level unit : Nat} (hunit : 1 ≤ unit) (hlevel : level ≤ levelOne) :
    deltaFactorOf level unit ≤ 2 ^ 31 := by
  have hle : level ≤ unit * levelOne := hlevel.trans (Nat.le_mul_of_pos_left _ hunit)
  have hpos : 0 < unit * levelOne := Nat.mul_pos hunit (by decide)
  rw [deltaFactorOf, Config.dfBits, mul_assoc 2 unit, ← levelOne]
  refine Nat.le_of_lt_succ ((Nat.div_lt_iff_lt_mul (by omega)).2 ?_)
  omega

/-- A tap of a lawful kernel times a delta of 16 bits and a factor of at most `2^31` stays below `2^62`. -/
theorem Kernel.abs_amount_lt {w : Nat} {k : Kernel} (h : k.lawful w) {d : ℤ} (hd : |d| < 2 ^ 16) {factor : Nat}
    (hfactor : factor ≤ 2 ^ 31) (p j : Nat) : |d * factor * k.tap p j| < 2 ^ 62 := by
  obtain ⟨hlow, hhigh⟩ := Kernel.tap_range h p j
  have hf : (factor : ℤ) ≤ 2 ^ 31 := by exact_mod_cast hfactor
  calc |d * factor * k.tap p j| = |d| * (factor * |k.tap p j|) := by
        rw [abs_mul, abs_mul, Nat.abs_cast, mul_assoc]
    _ ≤ |d| * (2 ^ 31 * 2 ^ 15) := by gcongr; exact abs_le.2 ⟨hlow, hhigh.le⟩
    _ < 2 ^ 16 * (2 ^ 31 * 2 ^ 15) := by gcongr
    _ = 2 ^ 62 := by norm_num

/-- Settles O31: each bound rests on the law alone, which `kernelOf` keeps whatever the generator returns. -/
theorem kernelLawAndBounds : Obligations.KernelLawAndBounds := by
  intro t eq
  have hlaw := kernelOf_law (Tier.one_le_width t) eq
  have hwidth := Tier.width_le t
  have hunit := Kernel.unit_le hlaw
  refine ⟨hlaw, fun hgen => if_pos hgen, by omega, fun level hlevel => ?_⟩
  have hfactor := deltaFactorOf_le hlaw.2.1 hlevel
  exact ⟨hfactor, fun d p j hd => Kernel.abs_amount_lt hlaw hd hfactor p j⟩

/-! ### The two commands -/

theorem Device.SameButSyn.setSyn (d : Device cfg) (y : Fin cfg.numSynth) (v : Synth) :
    d.SameButSyn y (d.setSyn y v) where
  fault := rfl
  chip := ⟨fun _ => rfl, rfl, rfl, rfl, rfl, rfl⟩
  syn _ hr := d.synAt_setSyn_ne v hr
  osc _ := rfl
  buf _ := rfl

/-- A command whose body sets one synthesizer answers OK, leaves it as set and every other component alone. -/
theorem exec_setSyn {s : State} {i : Instr} {y : Fin Config.chip.numSynth} {v : Synth} (hf : s.dev.fault = none)
    (hb : bodyOf i s.dev = .done (s.dev.setSyn y v) []) :
    ∃ t, exec i s = .next t ∧ s.Answers t .ok [] ∧ s.dev.SameButSyn y t.dev ∧ t.dev.synAt y = v :=
  ⟨_, exec_done hf hb, ⟨rfl, rfl, rfl⟩, .setSyn s.dev y v, s.dev.synAt_setSyn_self y v⟩

/-- Settles O29: the level is 0 or representable, so the body sets the synthesizer. -/
theorem setVolumeAccepts : Obligations.SetVolumeAccepts := by
  intro s x y u l hf hx hfin hlevel hok
  refine exec_setSyn (i := .setVolume x u) hf ?_
  rw [bodyOf, setVolume_at hx hfin hlevel, if_neg (by omega)]

/-- Settles O32: the kept level is 0 or representable under the new kernel, so the body sets the synthesizer. -/
theorem setTrebleRegenerates : Obligations.SetTrebleRegenerates := by
  intro s x y cutoff u v hf hx hfin hok
  refine exec_setSyn (i := .setTreble x cutoff u v) (v := (s.dev.synAt y).withEq ⟨u, v, cutoff⟩) hf ?_
  rw [bodyOf, setTreble_at hx hfin, if_neg]
  exact fun ⟨hpos, hzero⟩ => hok.elim hpos.ne' (Nat.one_le_iff_ne_zero.1 · hzero)

/-- Settles O30: both bodies are an error, which changes nothing. -/
theorem volumeTooLowIsRejected : Obligations.VolumeTooLowIsRejected := by
  intro s x y u hf hx hfin
  refine ⟨fun l hlevel hpos hzero => exec_error hf ?_, fun cutoff v hpos hzero => exec_error hf ?_⟩
  · rw [bodyOf, setVolume_at hx hfin hlevel, if_pos ⟨hpos, hzero⟩]
  · rw [bodyOf, setTreble_at hx hfin, if_pos ⟨hpos, hzero⟩]

end Sys2Proof.Machine
end

section
/-! The checks and slots of a splat, and the runs whose first splat faults (spec/41_step_synthesizer.md R262 to R266,
spec/42_oscillators.md R312, spec/43_chip.md R420, spec/60_exceptions.md R504, R508). -/

namespace Sys2Proof.Machine

variable {cfg : ChipConfig}

/-! ### `OFFSET` -/

theorem inWindow_iff {f w t : Nat} : inWindow f w t ↔ t * f / 2 ^ 16 + w ≤ 17 := by
  rw [inWindow, Nat.shiftRight_eq_div_pow]

/-- The first check of a splat: the factor (R263, R508). -/
theorem offset_unconfigured {b : Fin cfg.numBuf} {d : Device cfg} (h : (d.bufAt b).factor = 0)
    (y : Fin cfg.numSynth) (t : Nat) (x : Int) : offset y t x b d = .trap d .bufferUnconfigured := if_pos h

/-- The second check of a splat: the window (R263, R264). -/
theorem offset_out_of_window {y : Fin cfg.numSynth} {t : Nat} {b : Fin cfg.numBuf} {d : Device cfg}
    (h : (d.bufAt b).factor ≠ 0) (hwin : ¬ inWindow (d.bufAt b).factor.toNat (d.synAt y).width t) (x : Int) :
    offset y t x b d = .trap d .timeOutOfRange := by
  rcases offset_cases y t x b d with ⟨hzero, -⟩ | ⟨-, -, htrap⟩ | ⟨-, hin, -⟩
  · exact absurd hzero h
  · exact htrap
  · exact absurd hin hwin

/-- Slot `k` of a buffer after a splat (R262, R263). -/
theorem Buffer.splat_slot (b : Buffer) (y : Synth) (t : Nat) (x : Int) (k : Nat) (h : k < 17) :
    (b.splat y t x).dl[k] =
      if t * b.factor.toNat / 2 ^ 16 ≤ k ∧ k < t * b.factor.toNat / 2 ^ 16 + y.width then
        b.dl[k] + BitVec.ofInt 64 (x * y.deltaFactor *
          y.kernel.tap (t * b.factor.toNat / 2 ^ 10 % 64) (k - t * b.factor.toNat / 2 ^ 16))
      else b.dl[k] := by
  rw [← splitSlot_eq, ← splitPhase_eq]
  exact addSplat_slot _ _ _ _ k h

/-- Settles O33: each check fails alone, and past both the splat sets its buffer. -/
theorem offsetChecksThenSplats : Obligations.OffsetChecksThenSplats := by
  intro d y t delta b
  have hfactor : (d.bufAt b).factor.toNat = 0 ↔ (d.bufAt b).factor = 0 := by rw [← BitVec.toNat_inj]; rfl
  refine ⟨fun h => ?_, fun h hout => ?_, fun h hin => ?_, fun h hwidth => ?_⟩
  · exact offset_unconfigured (hfactor.1 h) y t delta
  · exact offset_out_of_window (hfactor.not.1 h) (inWindow_iff.not.2 (Nat.not_le.2 hout)) delta
  · refine ⟨d.splatted y t delta b, offset_eq_ok.2 ⟨hfactor.not.1 h, inWindow_iff.2 hin, rfl⟩, .setBuf d b _, ?_⟩
    rw [Device.splatted, Device.bufAt_setBuf_self]
    exact ⟨Buffer.splat_line .., Buffer.splat_slot _ _ t delta⟩
  · rw [h, hwidth]; omega

/-! ### `UPDATE` -/

/-- Settles O36: the difference is 0, or `UPDATE` is its splat and then the store. -/
theorem updateSplatsTheDifference : Obligations.UpdateSplatsTheDifference := by
  intro d i b t a hbound
  refine ⟨fun hsame => update_steady hsame t, fun hdiff => ?_⟩
  rw [update_bound hbound hdiff]
  exact ⟨fun e hok => by rw [hok, Progress.andThen_ok], fun e c htrap => by rw [htrap, Progress.andThen_trap]⟩

/-! ### A run whose first splat faults

The first effect of a run of the chip is the `UPDATE` of its first oscillator at `last_time`. -/

/-- A fault of the first step of a run is the fault of the run (R312 step 1). -/
theorem run_trap {i : Fin cfg.numOsc} {start stop : Nat} {d e : Device cfg} {c : FaultCode} (h : start ≤ stop)
    (hupd : update i start (d.amp i) d = .trap e c) : run i start stop d = .trap e c := by
  rw [run, if_neg (Nat.not_lt.2 h), hupd, Progress.andThen_trap]

section FirstSplat
variable {i : Fin cfg.numOsc} {rest : List (Fin cfg.numOsc)} {d e : Device cfg} {c : FaultCode}

/-- A pass faults with its first oscillator (R420). -/
theorem runPass_trap (hfirst : List.finRange cfg.numOsc = i :: rest)
    (hupd : update i d.lastTime.toNat (d.amp i) d = .trap e c) {t : Nat} (h : d.lastTime.toNat ≤ t) :
    runPass t d = .trap e c := by
  rw [runPass, hfirst, runEach, run_trap h hupd, Progress.andThen_trap, Progress.andThen_trap]

/-- A run of the chip faults in its first pass, be it one that ends in a tick or the last one (R420). -/
theorem runPasses_trap (hfirst : List.finRange cfg.numOsc = i :: rest)
    (hupd : update i d.lastTime.toNat (d.amp i) d = .trap e c) {stop : Nat} (hnext : d.lastTime.toNat ≤ d.fsNext)
    (hstop : d.lastTime.toNat ≤ stop) (n : Nat) : runPasses stop n d = .trap e c := by
  cases n with
  | zero => exact runPass_trap hfirst hupd hstop
  | succ n => rw [runPasses, runPass_trap hfirst hupd hnext, Progress.andThen_trap]

theorem runTo_trap (hfirst : List.finRange cfg.numOsc = i :: rest)
    (hupd : update i d.lastTime.toNat (d.amp i) d = .trap e c) (hnext : d.lastTime.toNat ≤ d.fsNext) {u : Word}
    (hu : d.lastTime.toNat < u.toNat) : runTo u d = .trap e c := by
  rw [runTo_forward (BitVec.lt_def.2 hu), runPasses_trap hfirst hupd hnext hu.le]

end FirstSplat

/-- Both commands that run the chip end with the fault of the run. -/
theorem bodyOf_run_trap {u : Word} {d e : Device cfg} {c : FaultCode} (h : runTo u d = .trap e c) {i : Instr}
    (hi : i ∈ [Instr.runUntil u, Instr.endFrame u]) : bodyOf i d = .fault e c := by
  simp only [List.mem_cons, List.not_mem_nil, or_false] at hi
  rcases hi with rfl | rfl
  · rw [bodyOf, runUntil, h, Progress.answer_trap]
  · rw [bodyOf, endFrame, h, Progress.andThen_trap, Progress.answer_trap]

/-- A fault of the splat that oscillator 0 must make at `last_time` is the whole effect of a run of the machine. -/
theorem exec_run_trap {s : State} {u : Word} {b : Fin Config.chip.numBuf} {c : FaultCode} (hinv : s.Inv)
    (hf : s.dev.fault = none) (hu : s.dev.lastTime.toNat < u.toNat) (hbound : (s.dev.oscAt 0).output = some b)
    (hdiff : s.dev.amp 0 ≠ (s.dev.oscAt 0).lastAmp)
    (hsplat : offset (synthOf Config.chip 0) s.dev.lastTime.toNat (s.dev.amp 0 - (s.dev.oscAt 0).lastAmp) b s.dev =
      .trap s.dev c) {i : Instr} (hi : i ∈ [Instr.runUntil u, Instr.endFrame u]) :
    exec i s = .next { s with dev := { s.dev with fault := some c }, outbox := s.outbox ++ [⟨.fault c, []⟩] } := by
  have hupd : update 0 s.dev.lastTime.toNat (s.dev.amp 0) s.dev = .trap s.dev c := by
    rw [update_bound hbound hdiff, hsplat, Progress.andThen_trap]
  exact exec_fault hf (bodyOf_run_trap (runTo_trap (List.finRange_succ ..) hupd hinv.tick.1 hu) hi)

/-- Settles O51: the splat oscillator 0 must make fails the first check or the second. -/
theorem runFaultsAtFirstSplat : Obligations.RunFaultsAtFirstSplat := by
  intro s u b hinv hf hu hbound hdiff i hi
  exact ⟨fun hzero => exec_run_trap hinv hf hu hbound hdiff (offset_unconfigured hzero ..) hi,
    fun hne hout => exec_run_trap hinv hf hu hbound hdiff (offset_out_of_window hne hout _) hi⟩

end Sys2Proof.Machine
end

section
/-! The registers of the REF-1 oscillators read as numbers: divider, period, audibility, silence and amplitude
(spec/42_oscillators.md R304 to R311, R321, R323, R326, R332, R342). -/

namespace Sys2Proof.Machine

variable {cfg : ChipConfig}

/-! ### Register fields -/

theorem append_toNat {m n : Nat} (x : BitVec m) (y : BitVec n) : (x ++ y).toNat = x.toNat * 2 ^ n + y.toNat := by
  rw [BitVec.toNat_append, ← Nat.shiftLeft_add_eq_or_of_lt y.isLt, Nat.shiftLeft_eq]

theorem dividerOf_toNat (nlo nhi : Byte) : (dividerOf nlo nhi).toNat = nhi.toNat % 8 * 256 + nlo.toNat := by
  rw [dividerOf, append_toNat, BitVec.extractLsb'_toNat, Nat.shiftRight_zero]
  rfl

theorem Device.divider_eq (d : Device cfg) (nlo nhi : Nat) :
    d.divider nlo nhi = (d.reg nhi).toNat % 8 * 256 + (d.reg nlo).toNat := dividerOf_toNat _ _

theorem ctrlVolp_toNat (ctrl : Byte) : (ctrlVolp ctrl).toNat = ctrl.toNat % 16 := by
  rw [ctrlVolp, BitVec.extractLsb'_toNat, Nat.shiftRight_zero]

theorem waveVolume_toNat (vol : Byte) : (waveVolume vol).toNat = vol.toNat % 16 := ctrlVolp_toNat vol

theorem sweepShift_eq (sw : Byte) : sweepShift sw = sw.toNat % 8 := by
  rw [sweepShift, BitVec.extractLsb'_toNat, Nat.shiftRight_zero]

theorem modePeriod_val (mode : Byte) : (modePeriod mode).val = mode.toNat % 16 := ctrlVolp_toNat mode

theorem ctrlDuty_val (ctrl : Byte) : (ctrlDuty ctrl).val = ctrl.toNat / 64 := by
  have hval : (ctrlDuty ctrl).val = ctrl.toNat >>> 6 % 4 := BitVec.extractLsb'_toNat ..
  rw [hval, Nat.shiftRight_eq_div_pow]
  omega

/-- The volume under a control register (R311). -/
theorem controlVolume_eq (ctrl : Byte) (envLevel : BitVec 4) :
    controlVolume ctrl envLevel = if ctrl.getLsbD 4 then ctrl.toNat % 16 else envLevel.toNat := by
  rw [controlVolume, ctrlVolp_toNat, ctrlConst]

/-- The sweep target on numbers (R340). -/
theorem sweepTarget_eq (sw : Byte) (n : Nat) :
    sweepTarget sw n = if sw.getLsbD 3 then n - n / 2 ^ (sw.toNat % 8) else n + n / 2 ^ (sw.toNat % 8) := by
  rw [sweepTarget, sweepNegate, sweepShift_eq, Nat.shiftRight_eq_div_pow]

/-- When a sweep unit mutes its pulse (R342). -/
theorem sweepMutes_iff (sw : Byte) (n : Nat) :
    sweepMutes sw n = true ↔ sw.getLsbD 7 = true ∧ sw.toNat % 8 ≠ 0 ∧ sw.getLsbD 3 = false ∧
      0x7FF < n + n / 2 ^ (sw.toNat % 8) := by
  simp [sweepMutes, sweepEnable, sweepNegate, sweepShift_eq, Nat.shiftRight_eq_div_pow, and_assoc]

/-! ### Silence and amplitude of a chip -/

theorem Device.silent_iff (d : Device cfg) (i : Fin cfg.numOsc) :
    d.silent i = true ↔ (d.oscAt i).output = none ∨ (d.reg cfg.mixEn).getLsbD i = false ∨
      d.volume (d.oscAt i) (voiceOf cfg i) = 0 ∨ d.muted (voiceOf cfg i) = true := by
  simp [Device.silent, mixEnabled, or_assoc]

/-- Without a sweep mute an oscillator is silent when it is unbound, not mixed in or at volume 0 (R309). -/
theorem Device.silent_iff_of_unmuted {d : Device cfg} {i : Fin cfg.numOsc} (h : d.muted (voiceOf cfg i) = false) :
    d.silent i = true ↔ (d.oscAt i).output = none ∨ (d.reg cfg.mixEn).getLsbD i = false ∨
      d.volume (d.oscAt i) (voiceOf cfg i) = 0 := by
  rw [Device.silent_iff, h]
  simp only [Bool.false_eq_true, or_false]

theorem Device.ramAt_of_lt (d : Device cfg) {p : Nat} (h : p < cfg.waveRamSize) : d.ramAt p = d.ram[p].toNat := by
  simp [Device.ramAt, h]

/-! ### The voices of REF-1 (R301) -/

/-- The registers of pulse `p` start at address `4 * p`. -/
theorem voiceOf_pulse : ∀ (p : Fin 2) (i : Fin Config.chip.numOsc), i.1 = p.1 →
    voiceOf Config.chip i = .pulse (4 * p) (some (4 * p + 1)) (4 * p + 2) (4 * p + 3) := by decide

section
variable (d : Device Config.chip)

theorem period_pulse (ctrl : Nat) (sweep : Option Nat) (nlo nhi : Nat) :
    d.period (.pulse ctrl sweep nlo nhi) = d.divider nlo nhi + 1 :=
  Nat.mul_div_cancel _ (by decide)

theorem period_wave (vol nlo nhi : Nat) : d.period (.wave vol nlo nhi) = d.divider nlo nhi + 1 :=
  Nat.mul_div_cancel _ (by decide)

theorem period_noise (ctrl mode trig : Nat) :
    d.period (.noise ctrl mode trig) = 4 <<< ((d.reg mode).toNat % 16) := by
  have htable : ∀ j : Fin 16, Config.chip.noisePeriod[j] = 4 <<< j.val := by decide
  rw [← modePeriod_val]
  exact htable _

/-- A pulse of divider `N` has a cycle of `8 * (N + 1)`, below 16 for `N = 0` alone (R306, R307). -/
theorem inaudible_pulse (ctrl : Nat) (sweep : Option Nat) (nlo nhi : Nat) :
    d.inaudible (.pulse ctrl sweep nlo nhi) = true ↔ d.divider nlo nhi = 0 := by
  rw [Device.inaudible, period_pulse, decide_eq_true_iff]
  show 8 * (d.divider nlo nhi + 1) < 16 ↔ _
  omega

/-- A wave has a cycle of at least 32 (R306, R307). -/
theorem inaudible_wave (vol nlo nhi : Nat) : d.inaudible (.wave vol nlo nhi) = false := by
  rw [Device.inaudible, period_wave, decide_eq_false_iff_not]
  show ¬ 32 * (d.divider nlo nhi + 1) < 16
  omega

/-- Settles O37: the divider is two registers put together, and the period of each voice is read off it or off the table
of noise periods. -/
theorem periodAndAudibility : Obligations.PeriodAndAudibility := by
  intro d
  refine ⟨d.divider_eq 2 3, ?_, ?_, ?_, period_noise d 0x0D 0x0E 0x0F, fun i => one_le_period d _,
    inaudible_pulse d 0 (some 1) 2 3, inaudible_pulse d 4 (some 5) 6 7, inaudible_wave d 8 9 0xA, rfl⟩
  · rw [← d.divider_eq]; exact period_pulse d 0 (some 1) 2 3
  · rw [← d.divider_eq]; exact period_pulse d 4 (some 5) 6 7
  · rw [← d.divider_eq]; exact period_wave d 8 9 0xA

/-! ### Silence and amplitude of REF-1 -/

/-- The steps of a pulse that are high, by its duty (R321). -/
theorem duty_eq (ctrl : Byte) : Config.chip.duty[ctrlDuty ctrl] = [1, 2, 4, 6].getD (ctrl.toNat / 64) 0 := by
  have htable : ∀ j : Fin 4, Config.chip.duty[j] = [1, 2, 4, 6].getD j.val 0 := by decide
  rw [← ctrlDuty_val]
  exact htable _

/-- The amplitude of a pulse that is not silent (R310, R321, R323). -/
theorem waveform_pulse (o : Osc Config.chip) (ctrl : Nat) (sweep : Option Nat) (nlo nhi : Nat) :
    d.waveform o (.pulse ctrl sweep nlo nhi) =
      if d.divider nlo nhi = 0 then controlVolume (d.reg ctrl) o.envLevel / 2
      else if o.phase < [1, 2, 4, 6].getD ((d.reg ctrl).toNat / 64) 0 then controlVolume (d.reg ctrl) o.envLevel
      else 0 := by
  rw [Device.waveform, duty_eq, Device.volume, Nat.shiftRight_one]
  simp only [inaudible_pulse]

/-- The amplitude of a wave that is not silent (R310, R326). -/
theorem waveform_wave {o : Osc Config.chip} (h : o.phase < 32) (vol nlo nhi : Nat) :
    d.waveform o (.wave vol nlo nhi) = (d.reg vol).toNat % 16 * d.ram[o.phase].toNat := by
  rw [Device.waveform, inaudible_wave, if_neg (by decide), Device.volume, waveVolume_toNat, d.ramAt_of_lt h]

/-- When a REF-1 pulse is silent (R309, R342). -/
theorem silent_pulse {p : Fin 2} {i : Fin Config.chip.numOsc} (hi : i.1 = p.1) :
    d.silent i = true ↔ (d.oscAt i).output = none ∨ (d.reg 0x10).getLsbD i = false ∨
      controlVolume (d.reg (4 * p)) (d.oscAt i).envLevel = 0 ∨
      ((d.reg (4 * p + 1)).getLsbD 7 = true ∧ (d.reg (4 * p + 1)).toNat % 8 ≠ 0 ∧
        (d.reg (4 * p + 1)).getLsbD 3 = false ∧ 0x7FF < d.divider (4 * p + 2) (4 * p + 3) +
          d.divider (4 * p + 2) (4 * p + 3) / 2 ^ ((d.reg (4 * p + 1)).toNat % 8)) := by
  rw [Device.silent_iff, voiceOf_pulse p i hi, Device.muted, sweepMutes_iff]
  rfl

end

/-- Settles O38: silence and waveform of each voice, on the numbers its registers hold. -/
theorem amplitudeOfEachVoice : Obligations.AmplitudeOfEachVoice := by
  intro d
  refine ⟨?_, fun h => ⟨?_, ?_⟩, ?_⟩
  · rintro p i vol n sh hi rfl rfl rfl
    rw [← controlVolume_eq, ← d.divider_eq]
    refine ⟨silent_pulse d hi, ?_⟩
    rw [Device.amp, voiceOf_pulse p i hi, waveform_pulse]
    simp only [Nat.cast_ite, Nat.cast_zero]
  · rw [← waveVolume_toNat]
    exact Device.silent_iff_of_unmuted rfl
  · rw [← waveform_wave d h 8 9 0xA]
    rfl
  · rintro vol rfl
    rw [← controlVolume_eq]
    refine ⟨Device.silent_iff_of_unmuted rfl, ?_⟩
    rw [← Nat.cast_zero, ← Nat.cast_ite]
    rfl

end Sys2Proof.Machine
end

section
/-! `ADVANCE` adds up, a run of a steady oscillator issues no splat, and a run may be cut in two at any time
(spec/42_oscillators.md R312 to R319). -/

namespace Sys2Proof.Machine

variable {cfg : ChipConfig}

/-! ### `ADVANCE` (R319) -/

theorem advance_advance (i : Fin cfg.numOsc) (m n : Nat) (d : Device cfg) :
    advance i n (advance i m d) = advance i (m + n) d := by
  have hreg := advanced_congr (advance_frame i m d).chip.reg
  rw [advance, oscAt_advance_self, hreg, advanced_add, advance, advance, Device.setOsc_setOsc]

theorem advance_zero {i : Fin cfg.numOsc} {d : Device cfg} (h : (d.oscAt i).phase < stepsOf cfg (voiceOf cfg i)) :
    advance i 0 d = d := by
  have hosc : d.advanced (d.oscAt i) 0 (voiceOf cfg i) = d.oscAt i := by
    have hphase := advanced_zero_phase d h
    generalize voiceOf cfg i = v at hphase
    cases v with
    | pulse c s lo hi => exact congrArg (fun n => { d.oscAt i with phase := n }) hphase
    | wave w lo hi => exact congrArg (fun n => { d.oscAt i with phase := n }) hphase
    | noise c m t => rfl
  rw [advance, hosc, Device.setOsc_oscAt]

/-- Settles O40: advancing adds up on every chip, and REF-1's voices are two pulses, a wave and a noise. -/
theorem advanceAdds : Obligations.AdvanceAdds := by
  intro d i m n
  refine ⟨advance_advance i m n d, advance_zero, fun hi => ?_, fun hi => ?_, fun hi => ?_⟩
  · rw [advance, voiceOf_pulse ⟨i, hi⟩ i rfl]
    rfl
  · obtain rfl : i = 2 := Fin.ext hi
    rfl
  · obtain rfl : i = 3 := Fin.ext hi
    rfl

/-! ### A run put together from its parts -/

theorem overshoot_congr {d e : Device cfg} (h : ∀ a, e.reg a = d.reg a) (i : Fin cfg.numOsc) (time stop : Nat) :
    e.overshoot i time stop = d.overshoot i time stop := by
  rw [Device.overshoot, Device.overshoot, period_congr h]

/-- The converse of `run_parts`. -/
theorem run_of_parts {i : Fin cfg.numOsc} {start stop : Nat} {d e f : Device cfg} (hle : start ≤ stop)
    (hupd : update i start (d.amp i) d = .ok e)
    (hexp : runExpiries i (start + (d.oscAt i).delay.toNat) stop e = .ok f) :
    run i start stop d = .ok (f.setDelay i (d.overshoot i (start + (d.oscAt i).delay.toNat) stop)) := by
  have hdelay : (e.oscAt i).delay = (d.oscAt i).delay := by rw [update_osc hupd]
  rw [run, if_neg (Nat.not_lt.2 hle), hupd, Progress.andThen_ok, runOn, hdelay, hexp, Progress.andThen_ok,
    overshoot_congr (update_ok_frame hupd).chip.reg]

theorem runExpiries_of_still {i : Fin cfg.numOsc} {d : Device cfg}
    (h : d.silent i = true ∨ d.inaudible (voiceOf cfg i) = true) (time stop : Nat) :
    runExpiries i time stop d = .ok (advance i (expiries time stop (d.period (voiceOf cfg i))) d) :=
  if_pos (Bool.or_eq_true _ _ ▸ h)

theorem runExpiries_of_heard {i : Fin cfg.numOsc} {d : Device cfg}
    (h : ¬ (d.silent i = true ∨ d.inaudible (voiceOf cfg i) = true)) (time stop : Nat) :
    runExpiries i time stop d =
      stepLoop i (d.period (voiceOf cfg i)) (expiries time stop (d.period (voiceOf cfg i))) time d :=
  if_neg (Bool.or_eq_true _ _ ▸ h)

/-- What a run leaves as it was decides whether its oscillator is heard. -/
theorem Device.RunFrame.still_iff {i : Fin cfg.numOsc} {d e : Device cfg} (h : d.RunFrame i e) :
    (e.silent i = true ∨ e.inaudible (voiceOf cfg i) = true) ↔
      (d.silent i = true ∨ d.inaudible (voiceOf cfg i) = true) := by
  rw [silent_congr h.chip.reg h.self, inaudible_congr h.chip.reg]

/-! ### A steady oscillator (R318) -/

/-- A stepping loop that meets the last amplitude at every expiry completes and changes no buffer. -/
theorem stepLoop_steady {i : Fin cfg.numOsc} {p : Nat} : ∀ {n time : Nat} {d : Device cfg},
    (∀ k < n, (advance i (k + 1) d).amp i = (d.oscAt i).lastAmp) →
    ∃ e, stepLoop i p n time d = .ok e ∧ e.buf = d.buf ∧ (e.oscAt i).lastAmp = (d.oscAt i).lastAmp
  | 0, _, d, _ => ⟨d, rfl, rfl, rfl⟩
  | n + 1, time, d, h => by
    have hlast : ((advance i 1 d).oscAt i).lastAmp = (d.oscAt i).lastAmp := by
      rw [oscAt_advance_self, advanced_lastAmp]
    have hrest : ∀ k < n, (advance i (k + 1) (advance i 1 d)).amp i = ((advance i 1 d).oscAt i).lastAmp :=
      fun k hk => by rw [advance_advance, Nat.add_comm 1, hlast]; exact h (k + 1) (by omega)
    obtain ⟨e, hloop, hbuf, hamp⟩ := stepLoop_steady (time := time + p) hrest
    refine ⟨e, ?_, hbuf, hamp.trans hlast⟩
    rw [stepLoop, update_steady ((h 0 (by omega)).trans hlast.symm), Progress.andThen_ok, hloop]

/-- The expiries of a steady oscillator, heard or not, change no buffer. -/
theorem runExpiries_steady {i : Fin cfg.numOsc} {time stop : Nat} {d : Device cfg}
    (h : ∀ n, time + n * d.period (voiceOf cfg i) < stop → (advance i (n + 1) d).amp i = (d.oscAt i).lastAmp) :
    ∃ e, runExpiries i time stop d = .ok e ∧ e.buf = d.buf ∧ (e.oscAt i).lastAmp = (d.oscAt i).lastAmp := by
  by_cases hstill : d.silent i = true ∨ d.inaudible (voiceOf cfg i) = true
  · exact ⟨_, runExpiries_of_still hstill time stop, rfl, by rw [oscAt_advance_self, advanced_lastAmp]⟩
  · rw [runExpiries_of_heard hstill]
    exact stepLoop_steady fun n hn => h n ((lt_expiries_iff (one_le_period d _)).1 hn)

/-- Settles O42: no update of the run has a difference to splat. -/
theorem steadyRunNeverSplats : Obligations.SteadyRunNeverSplats := by
  intro d i start stop hle hamp h
  obtain ⟨e, hexp, hbuf, hlast⟩ := runExpiries_steady h
  refine ⟨_, run_of_parts hle (update_steady hamp start) hexp, fun b => ?_, ?_⟩
  · rw [Device.bufAt_setDelay, Device.bufAt, Device.bufAt, hbuf]
  · rw [oscAt_setDelay_self]
    exact hlast

/-! ### The delay is read by a run alone

An update and the expiries of a run neither read nor write the delay, so they do the same from another delay. -/

theorem Device.setDelay_setDelay (i : Fin cfg.numOsc) (k m : Nat) (d : Device cfg) :
    (d.setDelay i k).setDelay i m = d.setDelay i m := by
  rw [Device.setDelay, oscAt_setDelay_self, Device.setDelay, Device.setOsc_setOsc, Device.setDelay]

theorem advance_setDelay (i : Fin cfg.numOsc) (k n : Nat) (d : Device cfg) :
    advance i n (d.setDelay i k) = (advance i n d).setDelay i k := by
  rw [advance, oscAt_setDelay_self, Device.setDelay, Device.setOsc_setOsc, Device.setDelay, oscAt_advance_self, advance,
    Device.setOsc_setOsc]
  cases voiceOf cfg i <;> rfl

theorem setLastAmp_setDelay (i : Fin cfg.numOsc) (k : Nat) (a : Int) (d : Device cfg) :
    (d.setDelay i k).setLastAmp i a = (d.setLastAmp i a).setDelay i k := by
  simp only [Device.setLastAmp, Device.setDelay, Device.oscAt_setOsc_self, Device.setOsc_setOsc]

theorem update_setDelay {i : Fin cfg.numOsc} {t : Nat} {a : Int} {d e : Device cfg} (h : update i t a d = .ok e)
    (k : Nat) : update i t a (d.setDelay i k) = .ok (e.setDelay i k) := by
  have hout : ((d.setDelay i k).oscAt i).output = (d.oscAt i).output := by rw [oscAt_setDelay_self]
  have hlast : ((d.setDelay i k).oscAt i).lastAmp = (d.oscAt i).lastAmp := by rw [oscAt_setDelay_self]
  rcases update_cases i t a d with ⟨hnone | hsame, hok⟩ | ⟨b, hb, hne, ⟨c, htrap, -⟩ | ⟨hf, hwin, hok⟩⟩
  · rw [update_unbound (hout.trans hnone), Progress.ok.inj (hok.symm.trans h)]
  · rw [update_steady (hsame.trans hlast.symm), Progress.ok.inj (hok.symm.trans h)]
  · exact absurd (htrap.symm.trans h) (by simp)
  · rw [update_bound (hout.trans hb) (hlast ▸ hne), hlast,
      (offset_eq_ok (d := d.setDelay i k)).2 ⟨hf, hwin, rfl⟩, Progress.andThen_ok,
      ← Progress.ok.inj (hok.symm.trans h)]
    exact congrArg Progress.ok (setLastAmp_setDelay i k a (d.setBuf b _))

theorem stepLoop_setDelay {i : Fin cfg.numOsc} {p : Nat} (k : Nat) : ∀ {n time : Nat} {d e : Device cfg},
    stepLoop i p n time d = .ok e → stepLoop i p n time (d.setDelay i k) = .ok (e.setDelay i k)
  | 0, _, _, _, h => by rw [stepLoop, Progress.ok.inj h]
  | n + 1, time, d, e, h => by
    obtain ⟨f, hupd, hrest⟩ := Progress.andThen_eq_ok.1 h
    rw [stepLoop, advance_setDelay, amp_setDelay, update_setDelay hupd, Progress.andThen_ok]
    exact stepLoop_setDelay k hrest

theorem runExpiries_setDelay {i : Fin cfg.numOsc} {time stop : Nat} {d e : Device cfg}
    (h : runExpiries i time stop d = .ok e) (k : Nat) :
    runExpiries i time stop (d.setDelay i k) = .ok (e.setDelay i k) := by
  have hiff := (setDelay_frame i k d).still_iff
  rcases runExpiries_cases h with ⟨hstill, rfl⟩ | ⟨hheard, hloop⟩
  · rw [runExpiries_of_still (hiff.2 hstill), Device.period_setDelay, advance_setDelay]
  · rw [runExpiries_of_heard (hiff.not.2 hheard), Device.period_setDelay]
    exact stepLoop_setDelay k hloop

/-! ### A run cut in two -/

/-- The expiries of a run cut at `mid`: those before it, and those from the first one after it on (R314, R315). -/
theorem runExpiries_split {i : Fin cfg.numOsc} {time mid stop : Nat} {d f : Device cfg} (hle : mid ≤ stop)
    (h : runExpiries i time stop d = .ok f) :
    ∃ e, runExpiries i time mid d = .ok e ∧
      runExpiries i (time + expiries time mid (d.period (voiceOf cfg i)) * d.period (voiceOf cfg i)) stop e =
        .ok f := by
  have hcount := expiries_split (time := time) (one_le_period d (voiceOf cfg i)) hle
  rcases runExpiries_cases h with ⟨hstill, rfl⟩ | ⟨hheard, hloop⟩
  · refine ⟨_, runExpiries_of_still hstill time mid, ?_⟩
    rw [runExpiries_of_still ((advance_frame i _ d).still_iff.2 hstill), Device.period_advance, advance_advance,
      ← hcount]
  · rw [hcount, stepLoop_add] at hloop
    obtain ⟨e, hfirst, hrest⟩ := Progress.andThen_eq_ok.1 hloop
    have hframe := stepLoop_frame i (d.period (voiceOf cfg i)) (expiries time mid (d.period (voiceOf cfg i))) time d
    rw [hfirst, Progress.keeps_ok] at hframe
    refine ⟨e, (runExpiries_of_heard hheard time mid).trans hfirst, ?_⟩
    rw [runExpiries_of_heard (hframe.still_iff.not.2 hheard), period_congr hframe.chip.reg]
    exact hrest

/-- The next expiry past `stop` is the same one when the expiries before `mid` are counted first (R316). -/
theorem Device.overshoot_split (d : Device cfg) (i : Fin cfg.numOsc) (time : Nat) {mid stop : Nat}
    (hle : mid ≤ stop) :
    d.overshoot i (time + expiries time mid (d.period (voiceOf cfg i)) * d.period (voiceOf cfg i)) stop =
      d.overshoot i time stop := by
  rw [Device.overshoot, Device.overshoot, expiries_split (time := time) (one_le_period d (voiceOf cfg i)) hle,
    Nat.add_mul, Nat.add_assoc]

/-- After a completed run its oscillator has nothing to update (R66). -/
theorem update_of_run {i : Fin cfg.numOsc} {start stop : Nat} {d d' : Device cfg} (h : run i start stop d = .ok d')
    (t : Nat) : update i t (d'.amp i) d' = .ok d' := by
  by_cases hout : (d'.oscAt i).output = none
  · exact update_unbound hout t _
  · have hframe := run_frame i start stop d
    rw [h, Progress.keeps_ok] at hframe
    exact update_steady (run_lastAmp h (hframe.self.output ▸ hout)).symm t

/-- Settles O43: the second run has nothing to update at `mid`, and starts from the expiry the first one left. -/
theorem runSplitsAnywhere : Obligations.RunSplitsAnywhere := by
  intro d d' i start mid stop hstart hstop h
  obtain ⟨-, e, f, hupd, hexp, rfl⟩ := run_parts h
  obtain ⟨g, hfirst, hrest⟩ := runExpiries_split hstop hexp
  have hrun := run_of_parts hstart hupd hfirst
  have hframe := run_frame i start mid d
  rw [hrun, Progress.keeps_ok] at hframe
  have hnext := run_delay hrun
  rw [Device.expiryCount] at hnext
  rw [period_congr (update_ok_frame hupd).chip.reg, ← hnext] at hrest
  rw [hrun, Progress.andThen_ok, run_of_parts hstop (update_of_run hrun mid) (runExpiries_setDelay hrest _),
    Device.setDelay_setDelay, hnext, overshoot_congr hframe.chip.reg, d.overshoot_split i _ hstop]

end Sys2Proof.Machine
end

section
/-! The noise register: its step is linear over GF(2), and its loops from the seed have exactly 32767 and 93 steps
(spec/42_oscillators.md R330, R331, R334). -/

namespace Sys2Proof.Machine

/-! ### The step, bit by bit -/

section
variable {w tap k : Nat}

/-- A step shifts the register down one place (R330). -/
theorem lfsrStep_bit_low (l : BitVec w) (hk : k + 1 < w) : (lfsrStep tap l).getLsbD k = l.getLsbD (k + 1) := by
  rw [lfsrStep_bit tap l k (by omega), decide_eq_false (by omega), Bool.false_and, Bool.or_false]

/-- A step puts the feedback in the top bit (R330). -/
theorem lfsrStep_bit_top (l : BitVec w) (hk : k + 1 = w) :
    (lfsrStep tap l).getLsbD k = (l.getLsbD 0 ^^ l.getLsbD tap) := by
  rw [lfsrStep_bit tap l k (by omega), decide_eq_true (by omega), Bool.true_and,
    BitVec.getLsbD_of_ge l (k + 1) (by omega), Bool.false_or]

/-- The register is a window on its output: bit `k` is put out `k` steps later. -/
theorem lfsrStep_iterate_bit (n : Nat) (l : BitVec w) (hk : k < w) :
    ((lfsrStep tap)^[n] l).getLsbD k = ((lfsrStep tap)^[n + k] l).getLsbD 0 := by
  induction k generalizing n with
  | zero => rfl
  | succ k ih =>
    rw [← lfsrStep_bit_low (tap := tap) _ hk, ← Function.iterate_succ_apply' (lfsrStep tap), ih (n + 1) (by omega),
      Nat.succ_add_eq_add_succ]

end

/-! ### The step as a linear map -/

section
variable {w tap : Nat}

/-- A step is linear: the shift is, and so is the feedback. -/
theorem lfsrStep_xor (l m : BitVec w) : lfsrStep tap (l ^^^ m) = lfsrStep tap l ^^^ lfsrStep tap m := by
  refine BitVec.eq_of_getLsbD_eq fun k hk => ?_
  rw [BitVec.getLsbD_xor]
  rcases Nat.lt_or_eq_of_le (Nat.succ_le_of_lt hk) with hlow | htop
  · simp only [lfsrStep_bit_low _ hlow, BitVec.getLsbD_xor]
  · simp only [lfsrStep_bit_top _ htop, BitVec.getLsbD_xor]
    simp only [Bool.xor_assoc, Bool.xor_left_comm]

theorem lfsrStep_iterate_xor (n : Nat) (l m : BitVec w) :
    (lfsrStep tap)^[n] (l ^^^ m) = (lfsrStep tap)^[n] l ^^^ (lfsrStep tap)^[n] m := by
  induction n generalizing l m with
  | zero => rfl
  | succ n ih => simp only [Function.iterate_succ_apply, lfsrStep_xor, ih]

/-- The feedback as a relation of maps: `w` steps on, the register is the sum of what it was and of what it was `tap`
steps on. -/
theorem lfsrStep_iterate_width (h : tap < w) (l : BitVec w) :
    (lfsrStep tap)^[w] l = (lfsrStep tap)^[tap] l ^^^ l := by
  refine BitVec.eq_of_getLsbD_eq fun k hk => ?_
  calc ((lfsrStep tap)^[w] l).getLsbD k
      = ((lfsrStep tap)^[k + 1] l).getLsbD (w - 1) := by
        rw [lfsrStep_iterate_bit w l hk, lfsrStep_iterate_bit (k + 1) l (by omega),
          show w + k = k + 1 + (w - 1) by omega]
    _ = (((lfsrStep tap)^[k] l).getLsbD 0 ^^ ((lfsrStep tap)^[k] l).getLsbD tap) := by
        rw [Function.iterate_succ_apply', lfsrStep_bit_top _ (by omega)]
    _ = (l.getLsbD k ^^ ((lfsrStep tap)^[tap] l).getLsbD k) := by
        have hout := lfsrStep_iterate_bit (tap := tap) 0 l hk
        rw [Nat.zero_add] at hout
        rw [← hout, lfsrStep_iterate_bit k l h, lfsrStep_iterate_bit tap l hk, Nat.add_comm]
        rfl
    _ = ((lfsrStep tap)^[tap] l ^^^ l).getLsbD k := by rw [BitVec.getLsbD_xor, Bool.xor_comm]

/-- Squaring over GF(2): a relation of three iterates holds with every count doubled. -/
theorem lfsrStep_iterate_double {a b c : Nat}
    (h : ∀ l : BitVec w, (lfsrStep tap)^[a] l = (lfsrStep tap)^[b] l ^^^ (lfsrStep tap)^[c] l) (l : BitVec w) :
    (lfsrStep tap)^[a + a] l = (lfsrStep tap)^[b + b] l ^^^ (lfsrStep tap)^[c + c] l := by
  have hcancel : ∀ p q r : BitVec w, (p ^^^ q) ^^^ (q ^^^ r) = p ^^^ r := fun p q r => by
    rw [BitVec.xor_assoc, ← BitVec.xor_assoc q, BitVec.xor_self, BitVec.zero_xor]
  calc (lfsrStep tap)^[a + a] l
      = (lfsrStep tap)^[b] ((lfsrStep tap)^[b] l ^^^ (lfsrStep tap)^[c] l) ^^^
          (lfsrStep tap)^[c] ((lfsrStep tap)^[b] l ^^^ (lfsrStep tap)^[c] l) := by
        rw [Function.iterate_add_apply, h, h l]
    _ = ((lfsrStep tap)^[b + b] l ^^^ (lfsrStep tap)^[b + c] l) ^^^
          ((lfsrStep tap)^[b + c] l ^^^ (lfsrStep tap)^[c + c] l) := by
        simp only [lfsrStep_iterate_xor, ← Function.iterate_add_apply, Nat.add_comm c b]
    _ = (lfsrStep tap)^[b + b] l ^^^ (lfsrStep tap)^[c + c] l := hcancel ..

/-- The relation of the feedback, doubled `k` times. -/
theorem lfsrStep_iterate_width_pow (h : tap < w) (k : Nat) (l : BitVec w) :
    (lfsrStep tap)^[w * 2 ^ k] l = (lfsrStep tap)^[tap * 2 ^ k] l ^^^ l := by
  induction k generalizing l with
  | zero => simpa using lfsrStep_iterate_width h l
  | succ k ih =>
    rw [pow_succ, mul_two, mul_add, mul_add]
    exact lfsrStep_iterate_double (c := 0) ih l

end

/-! ### The loops (R331) -/

/-- A period of `x` is the least one when no quotient of it by a prime is a period. -/
theorem minimalPeriod_eq_of_div_prime {α : Type} {f : α → α} {x : α} {n : Nat} (hn : n ≠ 0)
    (h : Function.IsPeriodicPt f n x) (hdiv : ∀ p ∈ n.primeFactorsList, f^[n / p] x ≠ x) :
    Function.minimalPeriod f x = n := by
  obtain ⟨a, ha⟩ := h.minimalPeriod_dvd
  have ha' : n = a * Function.minimalPeriod f x := ha.trans (mul_comm ..)
  by_contra hne
  obtain ⟨p, hp, b, rfl⟩ := Nat.exists_prime_and_dvd (n := a) (by rintro rfl; omega)
  have hquot : n = p * (b * Function.minimalPeriod f x) := by rw [ha', mul_assoc]
  refine hdiv p ((Nat.mem_primeFactorsList hn).2 ⟨hp, _, hquot⟩) ?_
  rw [Nat.div_eq_of_eq_mul_right hp.pos hquot]
  exact (Function.isPeriodicPt_minimalPeriod f x).const_mul b

/-- Sixteen steps of the long loop are the sum of two steps and one, and so on with every count doubled: this takes an
iterate of a power of two down to iterates below sixteen. -/
theorem longLoop_iterate (k : Nat) (l : BitVec 15) :
    (lfsrStep 1)^[2 ^ (k + 4)] l = (lfsrStep 1)^[2 ^ (k + 1)] l ^^^ (lfsrStep 1)^[2 ^ k] l := by
  have hwidth := lfsrStep_iterate_width_pow (show 1 < 15 by decide) k ((lfsrStep 1)^[2 ^ k] l)
  rw [← Function.iterate_add_apply, ← Function.iterate_add_apply] at hwidth
  rw [show 2 ^ (k + 4) = 15 * 2 ^ k + 2 ^ k by ring, hwidth, show 2 ^ (k + 1) = 1 * 2 ^ k + 2 ^ k by ring]

/-- The prime factors of 32767 are 7, 31 and 151; none of its quotients by them is a period. -/
theorem longLoop_minimalPeriod : Function.minimalPeriod (lfsrStep 1) (1 : BitVec 15) = 32767 := by
  have hback : lfsrStep 1 (3 : BitVec 15) = 1 := by decide
  have hpow : (lfsrStep 1)^[2 ^ 15] (3 : BitVec 15) = 1 := by simp only [longLoop_iterate]; decide
  rw [show 2 ^ 15 = 32767 + 1 by norm_num, Function.iterate_succ_apply, hback] at hpow
  refine minimalPeriod_eq_of_div_prime (by decide) hpow ?_
  have h4681 : (lfsrStep 1)^[2 ^ 12 + 2 ^ 9 + 2 ^ 6 + 2 ^ 3 + 1] (1 : BitVec 15) ≠ 1 := by
    simp only [Function.iterate_add_apply, longLoop_iterate]; decide
  have h1057 : (lfsrStep 1)^[2 ^ 10 + 2 ^ 5 + 1] (1 : BitVec 15) ≠ 1 := by
    simp only [Function.iterate_add_apply, longLoop_iterate]; decide
  have h217 : (lfsrStep 1)^[2 ^ 7 + 2 ^ 6 + 2 ^ 4 + 2 ^ 3 + 1] (1 : BitVec 15) ≠ 1 := by
    simp only [Function.iterate_add_apply, longLoop_iterate]; decide
  simp only [Nat.primeFactorsList_ofNat, List.forall_mem_cons, List.not_mem_nil, false_imp_iff,
    implies_true, and_true]
  exact ⟨h4681, h1057, h217⟩

/-- The prime factors of 93 are 3 and 31; neither of its quotients by them is a period. -/
theorem shortLoop_minimalPeriod : Function.minimalPeriod (lfsrStep 6) (1 : BitVec 15) = 93 := by
  refine minimalPeriod_eq_of_div_prime (by decide) ?_ ?_
  · show (lfsrStep 6)^[15 * 2 ^ 2 + 15 * 2 ^ 1 + 3] (1 : BitVec 15) = 1
    simp only [Function.iterate_add_apply, lfsrStep_iterate_width_pow (show 6 < 15 by decide)]; decide
  · simp only [Nat.primeFactorsList_ofNat, List.forall_mem_cons, List.not_mem_nil, false_imp_iff,
      implies_true, and_true]
    decide

/-- Settles O39: the loops have no shorter period, no state of the register but 0 steps to 0, and the trace is
iterated. -/
theorem noiseLoopLengths : Obligations.NoiseLoopLengths :=
  ⟨longLoop_minimalPeriod, shortLoop_minimalPeriod, fun _ _ h1 h2 hl => lfsrStep_ne_zero h1 h2 hl, by decide⟩

end Sys2Proof.Machine
end

section
/-! The envelope and sweep clocks of an oscillator (spec/42_oscillators.md R336, R340 to R343). -/

namespace Sys2Proof.Machine

variable {cfg : ChipConfig}

/-! ### The envelope (R336) -/

/-- The level once the divider has run out `falls` times since the start clock: one less each time, staying at 0, or
restarting at 15 with `LOOP`. -/
def envLevelAfter (loop : Bool) (falls : Nat) : Nat := if loop then 15 - falls % 16 else 15 - falls

/-- The level one fall on, as the clock computes it. -/
theorem envLevelAfter_succ {level : BitVec 4} {loop : Bool} {falls : Nat} (h : level.toNat = envLevelAfter loop falls) :
    (if level ≠ 0 then level - 1 else if loop then 15 else level).toNat = envLevelAfter loop (falls + 1) := by
  by_cases hzero : level = 0
  · subst hzero
    change 0 = envLevelAfter loop falls at h
    rw [if_neg (by simp)]
    cases loop with
    | false =>
      change 0 = 15 - (falls + 1)
      simp only [envLevelAfter, Bool.false_eq_true, if_false] at h
      omega
    | true =>
      change 15 = 15 - (falls + 1) % 16
      simp only [envLevelAfter, if_true] at h
      omega
  · have hdec : (level - 1).toNat = level.toNat - 1 := by bv_omega
    have hpos : level.toNat ≠ 0 := fun h0 => hzero (BitVec.eq_of_toNat_eq h0)
    rw [if_pos hzero, hdec]
    cases loop with
    | false => simp only [envLevelAfter, Bool.false_eq_true, if_false] at h ⊢; omega
    | true => simp only [envLevelAfter, if_true] at h ⊢; omega

/-- The envelope `n` clocks after the start clock, under control register `ctrl` of period `V`: the divider has counted
down from `V` and been reloaded every `V + 1` clocks, and the level has fallen each time. -/
structure Osc.EnvelopeAt (ctrl : Byte) (n : Nat) (o : Osc cfg) : Prop where
  start : o.envStart = false
  div : o.envDiv.toNat + n % (ctrl.toNat % 16 + 1) = ctrl.toNat % 16
  level : o.envLevel.toNat = envLevelAfter (ctrlLoop ctrl) (n / (ctrl.toNat % 16 + 1))

theorem envClocked_start (ctrl : Byte) {o : Osc cfg} (h : o.envStart = true) :
    (envClocked ctrl o).EnvelopeAt ctrl 0 := by
  rw [envClocked, if_pos h]
  refine ⟨rfl, ?_, ?_⟩
  · rw [Nat.zero_mod, ctrlVolp_toNat, Nat.add_zero]
  · rw [Nat.zero_div, envLevelAfter, ite_self]; rfl

theorem envClocked_next {ctrl : Byte} {n : Nat} {o : Osc cfg} (h : o.EnvelopeAt ctrl n) :
    (envClocked ctrl o).EnvelopeAt ctrl (n + 1) := by
  obtain ⟨hstart, hdiv, hlevel⟩ := h
  rw [envClocked, if_neg (by simp [hstart])]
  by_cases hzero : o.envDiv = 0
  · have hdvd : ctrl.toNat % 16 + 1 ∣ n + 1 := by
      have hn := Nat.div_add_mod n (ctrl.toNat % 16 + 1)
      rw [hzero] at hdiv
      change 0 + _ = _ at hdiv
      exact ⟨n / (ctrl.toNat % 16 + 1) + 1, by rw [Nat.mul_succ]; omega⟩
    rw [if_pos hzero]
    refine ⟨hstart, ?_, ?_⟩
    · rw [ctrlVolp_toNat, Nat.mod_eq_zero_of_dvd hdvd, Nat.add_zero]
    · rw [Nat.succ_div_of_dvd hdvd]
      exact envLevelAfter_succ hlevel
  · have hpos : o.envDiv.toNat ≠ 0 := fun h0 => hzero (BitVec.eq_of_toNat_eq h0)
    have hdec : (o.envDiv - 1).toNat = o.envDiv.toNat - 1 := by bv_omega
    have hmod : (n + 1) % (ctrl.toNat % 16 + 1) = n % (ctrl.toNat % 16 + 1) + 1 := by
      have hone : 1 % (ctrl.toNat % 16 + 1) = 1 := Nat.mod_eq_of_lt (by omega)
      rw [Nat.add_mod_of_add_mod_lt (by omega), hone]
    rw [if_neg hzero]
    refine ⟨hstart, ?_, ?_⟩
    · rw [hdec, hmod]; omega
    · rw [Nat.succ_div_of_not_dvd (by rw [Nat.dvd_iff_mod_eq_zero, hmod]; omega)]
      exact hlevel

theorem envClocked_iterate (ctrl : Byte) {o : Osc cfg} (h : o.envStart = true) :
    ∀ n, ((envClocked ctrl)^[n + 1] o).EnvelopeAt ctrl n
  | 0 => envClocked_start ctrl h
  | n + 1 => by rw [Function.iterate_succ_apply']; exact envClocked_next (envClocked_iterate ctrl h n)

/-- Settles O44: the control registers are those of the voices, and the level is that of the envelope `n` clocks on. -/
theorem envelopeDecay : Obligations.EnvelopeDecay := by
  refine ⟨fun d i => ⟨fun hi => ?_, fun hi => ?_, fun hi => ?_⟩, fun ctrl o n h => (envClocked_iterate ctrl h n).level⟩
  · obtain rfl : i = 0 := Fin.ext hi
    rfl
  · obtain rfl : i = 1 := Fin.ext hi
    rfl
  · obtain rfl : i = 3 := Fin.ext hi
    rfl

/-! ### The sweep (R340 to R343) -/

/-- The divider that is written back is the one read again. -/
theorem dividerOf_rewritten (old : Byte) (n : BitVec 11) :
    dividerOf (n.extractLsb' 0 8) (old.extractLsb' 3 5 ++ n.extractLsb' 8 3) = n := by
  apply BitVec.eq_of_toNat_eq
  rw [dividerOf_toNat, append_toNat (old.extractLsb' 3 5), BitVec.extractLsb'_toNat, BitVec.extractLsb'_toNat,
    BitVec.extractLsb'_toNat]
  have := n.isLt
  simp only [Nat.shiftRight_eq_div_pow]
  omega

/-- A write-back stores the target and keeps the top bits of the high register (R341). -/
theorem Device.writeBack_divider {d : Device cfg} (hwf : d.regs.wf) {nlo nhi : Nat} (hne : nlo ≠ nhi) {target : Nat}
    (ht : target < 2048) :
    (d.writeBack nlo nhi target).divider nlo nhi = target ∧
      ((d.writeBack nlo nhi target).reg nhi).toNat / 8 = (d.reg nhi).toNat / 8 := by
  have hlo : (d.writeBack nlo nhi target).reg nlo = (BitVec.ofNat 11 target).extractLsb' 0 8 := by
    rw [Device.writeBack, Device.reg_setReg_ne _ _ hne, Device.reg_setReg hwf, if_pos rfl]
  have hhi : (d.writeBack nlo nhi target).reg nhi =
      (d.reg nhi).extractLsb' 3 5 ++ (BitVec.ofNat 11 target).extractLsb' 8 3 := by
    rw [Device.writeBack, Device.reg_setReg (Memory.wf_write hwf _ _), if_pos rfl]
  constructor
  · rw [Device.divider, hlo, hhi, dividerOf_rewritten, BitVec.toNat_ofNat, Nat.mod_eq_of_lt ht]
  · rw [hhi, append_toNat ((d.reg nhi).extractLsb' 3 5), BitVec.extractLsb'_toNat]
    simp only [Nat.shiftRight_eq_div_pow]
    have := (d.reg nhi).isLt
    omega

/-- A sweep clock writes its target back: the sweep divider is 0, and the unit is enabled with a shift and does not
mute its pulse (R341, R342). -/
abbrev sweepDue (sw : Byte) (n : Nat) (o : Osc cfg) : Prop :=
  o.swDiv = 0 ∧ sw.getLsbD 7 = true ∧ sw.toNat % 8 ≠ 0 ∧ (sw.getLsbD 3 = true ∨ sweepTarget sw n ≤ 0x7FF)

/-- An enabled unit with a shift does not mute when it decreases the divider or its target fits (R342). -/
theorem sweepMutes_eq_false_iff {sw : Byte} (hen : sw.getLsbD 7 = true) (hshift : sw.toNat % 8 ≠ 0) (n : Nat) :
    sweepMutes sw n = false ↔ sw.getLsbD 3 = true ∨ sweepTarget sw n ≤ 0x7FF := by
  rw [← Bool.not_eq_true, sweepMutes_iff, sweepTarget_eq]
  cases sw.getLsbD 3 with
  | true => simp
  | false => simp [hen, hshift]

/-- The write-back test of the model is `sweepDue`. -/
theorem sweepDue_iff (sw : Byte) (n : Nat) (o : Osc cfg) :
    (o.swDiv == 0 && sweepEnable sw && sweepShift sw != 0 && !sweepMutes sw n) = true ↔ sweepDue sw n o := by
  simp only [Bool.and_eq_true, beq_iff_eq, bne_iff_ne, Bool.not_eq_true', sweepEnable, sweepShift_eq, and_assoc]
  exact and_congr_right fun _ => and_congr_right fun hen => and_congr_right fun hshift =>
    sweepMutes_eq_false_iff hen hshift n

/-- A target that is written back fits the divider (R340). -/
theorem sweepDue.target_lt {sw : Byte} {n : Nat} {o : Osc cfg} (h : sweepDue sw n o) (hn : n < 2048) :
    sweepTarget sw n < 2048 := by
  obtain ⟨-, -, -, hneg | hfits⟩ := h
  · rw [sweepTarget_eq, if_pos hneg]
    exact (Nat.sub_le ..).trans_lt hn
  · exact Nat.lt_succ_of_le hfits

/-- The sweep clock of a pulse that has a sweep unit (R341). -/
theorem sweepClock_pulse {i : Fin cfg.numOsc} {ctrl sweep nlo nhi : Nat}
    (hv : voiceOf cfg i = .pulse ctrl (some sweep) nlo nhi) (d : Device cfg) :
    sweepClock i d =
      (if sweepDue (d.reg sweep) (d.divider nlo nhi) (d.oscAt i)
        then d.writeBack nlo nhi (sweepTarget (d.reg sweep) (d.divider nlo nhi)) else d).setOsc i
        (sweepDivided (d.reg sweep) (d.oscAt i)) := by
  simp only [sweepClock, hv, sweepDue_iff]
  split <;> rfl

/-- The sweep divider is reloaded at 0 or by a pending reload, and counted down otherwise (R341, R343). -/
theorem sweepDivided_eq (sw : Byte) (o : Osc cfg) :
    sweepDivided sw o = { o with
      swDiv := if o.swDiv = 0 ∨ o.swReload = true then sw.extractLsb' 4 3 else o.swDiv - 1
      swReload := if o.swDiv = 0 ∨ o.swReload = true then false else o.swReload } := by
  unfold sweepDivided
  split <;> rfl

/-- Settles O45: the clock writes back when it is due, then sets the sweep divider; the rest is its frame. -/
theorem sweepClockWritesBack : Obligations.SweepClockWritesBack := by
  rintro d p i n sh target hwf hi rfl rfl rfl
  have hclock := sweepClock_pulse (voiceOf_pulse p i hi) d
  have hframe := (sweepClock_frame i d).1
  rw [voiceOf_pulse p i hi, sweptBy] at hframe
  rw [← sweepTarget_eq]
  refine ⟨?_, fun a hlo hhi => hframe.reg a (by simp [hlo, hhi]), ?_, hframe.osc, ?_⟩
  · split
    · next hdue =>
      rw [hclock, if_pos hdue]
      exact Device.writeBack_divider hwf (by omega) (sweepDue.target_lt hdue (d.divider_lt _ _))
    · next hnot =>
      rw [hclock, if_neg hnot]
      exact fun a => rfl
  · rw [hclock, Device.oscAt_setOsc_self, sweepDivided_eq]
  · rw [hclock]
    split <;> rfl

end Sys2Proof.Machine
end

section
/-! `SET_OUTPUT` retires the level held in the old buffer and binds the new one (spec/42_oscillators.md R350). -/

namespace Sys2Proof.Machine

variable {cfg : ChipConfig}

/-- An oscillator that holds no level in a buffer has nothing to retire. -/
theorem retire_of_level_zero {i : Fin cfg.numOsc} {d : Device cfg}
    (h : (d.oscAt i).output = none ∨ (d.oscAt i).lastAmp = 0) : retire i d = .ok d := by
  unfold retire
  split
  · rfl
  · next hsome => exact if_pos (h.resolve_left (by simp [hsome]))

/-- Retiring a level is a splat of its negation at `last_time`. -/
theorem retire_of_level {i : Fin cfg.numOsc} {d : Device cfg} {b : Fin cfg.numBuf} (hout : (d.oscAt i).output = some b)
    (hlevel : (d.oscAt i).lastAmp ≠ 0) :
    retire i d = offset (synthOf cfg i) d.lastTime.toNat (-(d.oscAt i).lastAmp) b d := by
  simp only [retire, hout, if_neg hlevel]

/-- `SET_OUTPUT` to a new binding retires, then binds. -/
theorem bodyOf_setOutput_new {x : Byte} {i : Fin Config.chip.numOsc} {u : Word}
    {new : Option (Fin Config.chip.numBuf)} {d : Device Config.chip} (hx : x.toNat = i.1)
    (hu : new = none ∧ u = 0xFFFFFFFF ∨ ∃ b, new = some b ∧ u.toNat = b.1) (hne : new ≠ (d.oscAt i).output) :
    bodyOf (.setOutput x u) d = ((retire i d).andThen fun e => .ok (e.rebind i new)).answer := by
  rw [bodyOf, setOutput_at hx ((outputOperand_eq_some (by decide)).2 hu), if_neg hne]

/-- Settles O46: the level is retired by one splat, by none, or by one past the window, which faults. -/
theorem setOutputRebinds : Obligations.SetOutputRebinds := by
  intro s x i u new hf hx hu
  refine ⟨fun hsame => ?_, fun hne hlevel => ?_, fun b hne hout hlevel hfactor => ⟨fun hin => ?_, fun hnot => ?_⟩⟩
  · refine exec_done (i := .setOutput x u) (d := s.dev) hf ?_
    rw [bodyOf, setOutput_at hx ((outputOperand_eq_some (by decide)).2 hu), if_pos hsame]
  · refine ⟨_, exec_done (d := s.dev.rebind i new) hf ?_, ⟨rfl, rfl, rfl⟩, rfl⟩
    rw [bodyOf_setOutput_new hx hu hne, retire_of_level_zero hlevel, Progress.andThen_ok, Progress.answer_ok]
  · obtain ⟨e, hsplat, hosc⟩ : ∃ e, offset (synthOf Config.chip i) s.dev.lastTime.toNat (-(s.dev.oscAt i).lastAmp) b
        s.dev = .ok e ∧ e.oscAt i = s.dev.oscAt i := ⟨_, offset_eq_ok.2 ⟨hfactor, hin, rfl⟩, rfl⟩
    refine ⟨_, e, exec_done (d := e.rebind i new) hf ?_, ⟨rfl, rfl, rfl⟩, hsplat, ?_⟩
    · rw [bodyOf_setOutput_new hx hu hne, retire_of_level hout hlevel, hsplat, Progress.andThen_ok, Progress.answer_ok]
    · rw [← hosc]
      rfl
  · refine exec_fault (d := s.dev) hf ?_
    rw [bodyOf_setOutput_new hx hu hne, retire_of_level hout hlevel, offset_out_of_window hfactor hnot,
      Progress.andThen_trap, Progress.answer_trap]

end Sys2Proof.Machine
end

section
/-! `RESET` and what it makes of two histories, and the frame-sequencer tick of REF-1 (spec/43_chip.md R426, R427,
R431). -/

namespace Sys2Proof.Machine

variable {cfg : ChipConfig}

/-! ### The tick (R431) -/

/-- Settles O53: REF-1's envelopes and sweeps in the order of their lists; the rest is the frame of a tick. -/
theorem frameSequencerTick : Obligations.FrameSequencerTick := by
  intro d
  refine ⟨?_, fsTick_frame d⟩
  have hsteps : d.fsStep ∈ Config.chip.sweepSteps ↔ d.fsStep = 1 ∨ d.fsStep = 3 := by simp
  simp only [fsTick, hsteps]
  rfl

/-! ### `RESET` (R426) -/

/-- `RESET` keeps the configuration (R601). -/
theorem Device.sameConfiguration_afterReset (d : Device cfg) : d.SameConfiguration d.afterReset where
  fault := rfl
  syn := rfl
  output i := by rw [Device.oscAt_afterReset]; rfl
  buf b := by rw [Device.bufAt_afterReset]; rfl

/-- Right after power-on there is nothing for `RESET` to change. -/
theorem Device.afterReset_powerOn : (Device.powerOn cfg).afterReset = Device.powerOn cfg := by
  have hbuf : (Vector.ofFn fun b : Fin cfg.numBuf => ((Device.powerOn cfg).bufAt b).flushed) =
      Vector.replicate _ Buffer.powerOn := by
    ext b hb : 1
    rw [Vector.getElem_ofFn, Device.bufAt_powerOn, Vector.getElem_replicate]
    rfl
  have hosc : (Vector.ofFn fun i : Fin cfg.numOsc => ((Device.powerOn cfg).oscAt i).afterReset) =
      Vector.replicate _ (Osc.powerOn cfg) := by
    ext i hi : 1
    rw [Vector.getElem_ofFn, Device.oscAt_powerOn, Vector.getElem_replicate]
    rfl
  rw [Device.afterReset, hbuf, hosc]
  rfl

theorem exec_reset {s : State} (hf : s.dev.fault = none) :
    exec .reset s = .next ({ s with dev := s.dev.afterReset }.respond .ok []) := exec_done hf rfl

/-- Settles O54: the device after `RESET`, component by component. -/
theorem resetReturnsToPowerOn : Obligations.ResetReturnsToPowerOn := by
  refine ⟨fun s hf => ⟨_, exec_reset hf, ⟨rfl, rfl, rfl⟩, s.dev.sameConfiguration_afterReset, fun _ => rfl,
    fun j hj => ?_, rfl, s.dev.oscAt_afterReset, rfl, rfl, rfl, fun b => ?_⟩, ?_⟩
  · exact Vector.getElem_replicate hj
  · rw [State.respond_dev, Device.bufAt_afterReset]
    exact ⟨rfl, fun j hj => Vector.getElem_replicate hj⟩
  · rw [exec_reset rfl]
    exact congrArg (fun d => Host.Outcome.next (State.respond { State.reset with dev := d } .ok []))
      Device.afterReset_powerOn

/-! ### Replay (R427) -/

/-- What `RESET` keeps is all it makes the device of. -/
theorem Device.SameConfiguration.afterReset_eq {d e : Device cfg} (h : d.SameConfiguration e) :
    e.afterReset = d.afterReset := by
  have hbuf : ∀ b, (e.bufAt b).flushed = (d.bufAt b).flushed := fun b => by rw [h.buf b]; rfl
  have hosc : ∀ i, (e.oscAt i).afterReset = (d.oscAt i).afterReset := fun i => by
    rw [Osc.afterReset, h.output i, Osc.afterReset]
  simp only [Device.afterReset, h.fault, h.syn, hbuf, hosc]

/-- Two machines with one device and the same commands to come; `s` and `s'` have returned the responses `before` and
`before'`, and then both the same ones. -/
structure State.Replays (before before' : List Response) (s s' : State) : Prop where
  dev : s'.dev = s.dev
  inbox : s'.inbox = s.inbox
  outbox : ∃ rs, s.outbox = before ++ rs ∧ s'.outbox = before' ++ rs

/-- One more response, the same on both sides. -/
theorem State.Replays.respond {before before' : List Response} {s s' t t' : State} (h : s.Replays before before' s')
    (hdev : t'.dev = t.dev) (hinbox : t'.inbox = t.inbox) {r : Response} (hr : t.outbox = s.outbox ++ [r])
    (hr' : t'.outbox = s'.outbox ++ [r]) : t.Replays before before' t' := by
  obtain ⟨rs, hs, hs'⟩ := h.outbox
  exact ⟨hdev, hinbox, rs ++ [r], by rw [hr, hs, List.append_assoc], by rw [hr', hs', List.append_assoc]⟩

/-- The answer to a command depends on the device alone. -/
theorem State.Replays.answerCommand {before before' : List Response} {s s' t t' : State}
    (h : s.Replays before before' s') {c : Cmd} (hst : answerCommand exec c s = .next t)
    (hst' : answerCommand exec c s' = .next t') : t.Replays before before' t' := by
  rcases answerCommand_cases hst with ⟨f, hf, rfl⟩ | ⟨hf, ⟨i, hdec, hrun⟩ | ⟨e, hdec, rfl⟩⟩
  · rw [answerCommand_faulted (h.dev ▸ hf), Host.Outcome.next.injEq] at hst'
    subst hst'
    exact h.respond h.dev h.inbox rfl rfl
  · rw [answerCommand_decoded (h.dev ▸ hf) hdec] at hst'
    obtain ⟨_, hrun', hdev, hinbox', r, hr, hr'⟩ := exec_dev i hrun h.dev
    obtain ⟨_, hrun₀, -, hinbox, -⟩ := exec_dev i hrun rfl
    rw [hst', Host.Outcome.next.injEq] at hrun'
    rw [hrun, Host.Outcome.next.injEq] at hrun₀
    subst hrun' hrun₀
    exact h.respond hdev (hinbox'.trans (h.inbox.trans hinbox.symm)) hr hr'
  · rw [answerCommand_undecodable (h.dev ▸ hf) hdec, Host.Outcome.next.injEq] at hst'
    subst hst'
    exact h.respond h.dev h.inbox rfl rfl

/-- Replaying machines stay so at every step: each is idle, or both answer the same command. -/
theorem State.Replays.step {before before' : List Response} {s s' t t' : State} (h : s.Replays before before' s')
    (hst : step s = .next t) (hst' : step s' = .next t') : t.Replays before before' t' := by
  simp only [Machine.step, stepOn, h.inbox] at hst hst'
  cases hfetch : fetchCommand s.inbox with
  | idle =>
    simp only [hfetch, Host.Outcome.next.injEq] at hst hst'
    exact hst ▸ hst' ▸ h
  | incomplete => simp only [hfetch, reduceCtorEq] at hst
  | command c rest =>
    simp only [hfetch] at hst hst'
    have hrest : State.Replays before before' { s with inbox := rest } { s' with inbox := rest } :=
      ⟨h.dev, rfl, h.outbox⟩
    exact hrest.answerCommand hst hst'

/-- A run of `n + 1` steps is a step and a run of `n`. -/
theorem run_succ_eq_next {n : Nat} {s t : State} (h : core.run (n + 1) s = .next t) :
    ∃ m, Machine.step s = .next m ∧ core.run n m = .next t := by
  have hrun : core.step s = Machine.step s := rfl
  cases hst : Machine.step s with
  | next m => exact ⟨m, rfl, by simpa only [Host.Core.run, hrun, hst] using h⟩
  | fault r => simp only [Host.Core.run, hrun, hst, reduceCtorEq] at h
  | refused r => simp only [Host.Core.run, hrun, hst, reduceCtorEq] at h

theorem State.Replays.run {before before' : List Response} : ∀ {n : Nat} {s s' t t' : State},
    s.Replays before before' s' → core.run n s = .next t → core.run n s' = .next t' → t.Replays before before' t'
  | 0, _, _, _, _, h, hst, hst' => Host.Outcome.next.inj hst ▸ Host.Outcome.next.inj hst' ▸ h
  | n + 1, _, _, _, _, h, hst, hst' => by
    obtain ⟨m, hm, hrun⟩ := run_succ_eq_next hst
    obtain ⟨m', hm', hrun'⟩ := run_succ_eq_next hst'
    exact State.Replays.run (h.step hm hm') hrun hrun'

/-- The step that takes a `RESET` off the transport. -/
theorem step_reset {s : State} {cmds : List Byte} (hf : s.dev.fault = none)
    (hin : s.inbox = (encode .reset).bytes ++ cmds) :
    Machine.step s = .next ({ s with inbox := cmds, dev := s.dev.afterReset }.respond .ok []) := by
  rw [stepRunsDecodedCommand s _ cmds .reset hin hf (decodeEncodeRoundTrip .reset)]
  exact exec_reset (s := { s with inbox := cmds }) hf

/-- Settles O55: after `RESET` the two devices are one, and answer the commands alike from then on. -/
theorem replayIsBitIdentical : Obligations.ReplayIsBitIdentical := by
  intro s s' t t' cmds n hsame hf hin hin' hrun hrun'
  obtain ⟨m, hm, hrest⟩ := run_succ_eq_next hrun
  obtain ⟨m', hm', hrest'⟩ := run_succ_eq_next hrun'
  rw [step_reset hf hin, Host.Outcome.next.injEq] at hm
  rw [step_reset (hsame.fault.trans hf) hin', Host.Outcome.next.injEq] at hm'
  subst hm hm'
  have hreset : State.Replays s.outbox s'.outbox
      ({ s with inbox := cmds, dev := s.dev.afterReset }.respond .ok [])
      ({ s' with inbox := cmds, dev := s'.dev.afterReset }.respond .ok []) :=
    ⟨hsame.afterReset_eq, rfl, [⟨.ok, []⟩], rfl, rfl⟩
  obtain ⟨hdev, -, rs, hout, hout'⟩ := hreset.run hrest hrest'
  exact ⟨hdev.symm, by rw [hout, hout', List.drop_left, List.drop_left]⟩

end Sys2Proof.Machine
end

section
/-! Register writes: the byte stored, the side effect of its address, and a write repeated (spec/43_chip.md R402 to
R413). -/

namespace Sys2Proof.Machine

variable {cfg : ChipConfig}

/-! ### Fields of a written byte -/

theorem triggerBit_iff (v : Byte) : triggerBit v = true ↔ 0x80 ≤ v.toNat := by
  rw [show triggerBit v = v.msb from rfl, BitVec.msb_eq_decide, decide_eq_true_iff]

theorem addrField_toNat (v : Byte) : (addrField v).toNat = v.toNat % 32 := by
  rw [addrField, BitVec.extractLsb'_toNat, Nat.shiftRight_zero]

theorem dataSample_toNat (v : Byte) : (dataSample v).toNat = v.toNat % 16 := ctrlVolp_toNat v

/-! ### Side effects -/

/-- The side effect listed for address `a`, if it has one (R413). -/
def writeEffectAt (cfg : ChipConfig) (a : Nat) : Option (WriteEffect cfg.numOsc) := cfg.writeEffects.lookup a

theorem sideEffect_eq (a : Nat) (v : Byte) (d : Device cfg) :
    sideEffect a v d = (writeEffectAt cfg a).elim d (applyEffect v d) := by
  unfold sideEffect writeEffectAt
  split
  · next h => rw [h, Option.elim_none]
  · next h => rw [h, Option.elim_some]

/-- A side effect writes oscillators, the wave RAM and its latch, and nothing else (R413). -/
theorem sideEffect_frame (a : Nat) (v : Byte) (d : Device cfg) :
    { sideEffect a v d with osc := d.osc, ram := d.ram, latch := d.latch } = d := by
  have trigger : ∀ (p : Fin cfg.numOsc) (o : Osc cfg),
      { (if triggerBit v then d.setOsc p o else d) with osc := d.osc, ram := d.ram, latch := d.latch } = d := by
    intro p o
    split <;> rfl
  rw [sideEffect_eq]
  cases writeEffectAt cfg a with
  | none => rfl
  | some e =>
    cases e with
    | sweepReload p => rfl
    | pulseTrigger p => exact trigger p _
    | waveTrigger p => exact trigger p _
    | noiseTrigger p => exact trigger p _
    | ramAddress => rfl
    | ramData k => rfl

theorem sideEffect_regs (a : Nat) (v : Byte) (d : Device cfg) : (sideEffect a v d).regs = d.regs :=
  (congrArg Device.regs (sideEffect_frame a v d) :)

theorem sideEffect_fault (a : Nat) (v : Byte) (d : Device cfg) : (sideEffect a v d).fault = d.fault :=
  (congrArg Device.fault (sideEffect_frame a v d) :)

/-- An oscillator that is set when `TRIG` is written (R407, R409, R411). -/
theorem Device.oscAt_trigger (d : Device cfg) (v : Byte) (p i : Fin cfg.numOsc) (o : Osc cfg) :
    (if triggerBit v then d.setOsc p o else d).oscAt i =
      if triggerBit v = true ∧ p = i then o else d.oscAt i := by
  by_cases hv : triggerBit v = true
  · simp [hv, Device.oscAt_setOsc, eq_comm]
  · simp [hv]

/-- A write to `a` with `TRIG` restarts the phase of oscillator `i` (R407, R409). -/
def restartsPhase (cfg : ChipConfig) (a : Nat) (i : Fin cfg.numOsc) : Bool :=
  writeEffectAt cfg a = some (.pulseTrigger i) ∨ writeEffectAt cfg a = some (.waveTrigger i)

/-- A write to `a` with `TRIG` starts the envelope of oscillator `i` (R407, R411). -/
def startsEnvelope (cfg : ChipConfig) (a : Nat) (i : Fin cfg.numOsc) : Bool :=
  writeEffectAt cfg a = some (.pulseTrigger i) ∨ writeEffectAt cfg a = some (.noiseTrigger i)

/-- A write to `a` reloads the sweep divider of oscillator `i` (R405). -/
def reloadsSweep (cfg : ChipConfig) (a : Nat) (i : Fin cfg.numOsc) : Bool :=
  writeEffectAt cfg a = some (.sweepReload i)

/-- Address `a` is `W_ADDR` (R412). -/
def loadsLatch (cfg : ChipConfig) (a : Nat) : Bool := writeEffectAt cfg a = some .ramAddress

/-- Address `a` is a `W_DATA` whose `AINC` is in register `k` (R412). -/
def storesSample (cfg : ChipConfig) (a k : Nat) : Bool := writeEffectAt cfg a = some (.ramData k)

/-- The oscillators after a side effect (R405 to R411). -/
theorem oscAt_sideEffect (a : Nat) (v : Byte) (d : Device cfg) (i : Fin cfg.numOsc) :
    (sideEffect a v d).oscAt i = { d.oscAt i with
      phase := if triggerBit v = true ∧ restartsPhase cfg a i = true then 0 else (d.oscAt i).phase
      envStart := if triggerBit v = true ∧ startsEnvelope cfg a i = true then true else (d.oscAt i).envStart
      swReload := if reloadsSweep cfg a i = true then true else (d.oscAt i).swReload } := by
  simp only [sideEffect_eq, restartsPhase, startsEnvelope, reloadsSweep, decide_eq_true_eq]
  cases writeEffectAt cfg a with
  | none => simp
  | some e =>
    cases e with
    | sweepReload p =>
      refine (d.oscAt_setOsc p i _).trans ?_
      by_cases hp : i = p
      · simp [hp]
      · simp [hp, Ne.symm hp]
    | pulseTrigger p =>
      refine (d.oscAt_trigger v p i _).trans ?_
      by_cases hp : triggerBit v = true ∧ p = i <;> simp [hp]
    | waveTrigger p =>
      refine (d.oscAt_trigger v p i _).trans ?_
      by_cases hp : triggerBit v = true ∧ p = i <;> simp [hp]
    | noiseTrigger p =>
      refine (d.oscAt_trigger v p i _).trans ?_
      by_cases hp : triggerBit v = true ∧ p = i <;> simp [hp]
    | ramAddress => simp [applyEffect, Device.oscAt]
    | ramData k => simp [applyEffect, Device.oscAt]

/-- A side effect on an oscillator leaves the wave RAM and its latch alone. -/
theorem Device.wave_trigger (d : Device cfg) (v : Byte) (p : Fin cfg.numOsc) (o : Osc cfg) :
    (if triggerBit v then d.setOsc p o else d).latch.1 = d.latch.1 ∧
      (if triggerBit v then d.setOsc p o else d).ram = d.ram := by
  split <;> exact ⟨rfl, rfl⟩

/-- The latch and the wave RAM after a side effect, on a chip whose `W_DATA` reads `AINC` in register `k` (R412). -/
theorem wave_sideEffect {a k : Nat} (hk : ∀ x, writeEffectAt cfg a = some (.ramData x) → x = k) (v : Byte)
    (d : Device cfg) :
    (sideEffect a v d).latch.1 =
        (if loadsLatch cfg a = true then (addrField v).toNat % cfg.waveRamSize
        else if storesSample cfg a k = true ∧ addrAutoInc (d.reg k) = true then (d.latch.1 + 1) % cfg.waveRamSize
        else d.latch.1) ∧
      (sideEffect a v d).ram =
        if storesSample cfg a k = true then d.ram.set d.latch.1 (dataSample v) else d.ram := by
  simp only [sideEffect_eq, loadsLatch, storesSample, decide_eq_true_eq]
  generalize writeEffectAt cfg a = effect at hk
  cases effect with
  | none => simp
  | some e =>
    cases e with
    | sweepReload p => simp [applyEffect]
    | pulseTrigger p => simp only [reduceCtorEq, Option.some.injEq, false_and, if_false]; exact d.wave_trigger v p _
    | waveTrigger p => simp only [reduceCtorEq, Option.some.injEq, false_and, if_false]; exact d.wave_trigger v p _
    | noiseTrigger p => simp only [reduceCtorEq, Option.some.injEq, false_and, if_false]; exact d.wave_trigger v p _
    | ramAddress => simp [applyEffect]
    | ramData x =>
      obtain rfl := hk x rfl
      by_cases hinc : addrAutoInc (d.reg x) = true <;> simp [applyEffect, hinc]

/-! ### The side effects of REF-1 (R413) -/

/-- With one entry per key, what is looked up is what is listed. -/
theorem lookup_eq_some_iff_mem {α : Type} {a : Nat} {e : α} : ∀ {l : List (Nat × α)}, (l.map Prod.fst).Nodup →
    (l.lookup a = some e ↔ (a, e) ∈ l)
  | [], _ => by simp
  | (b, x) :: l, h => by
    obtain ⟨hb, hl⟩ := List.nodup_cons.1 h
    rw [List.mem_cons, Prod.mk.injEq]
    by_cases hab : a = b
    · subst hab
      have hnot : (a, e) ∉ l := fun hm => hb (List.mem_map_of_mem (f := Prod.fst) hm : (a, e).1 ∈ _)
      simp [hnot, eq_comm]
    · rw [List.lookup_cons, beq_false_of_ne hab]
      simp [hab, lookup_eq_some_iff_mem hl]

/-- The table of R413. -/
theorem ref1_writeEffectAt {y : Half} {e : WriteEffect Config.chip.numOsc} :
    writeEffectAt Config.chip y.toNat = some e ↔ (y.toNat, e) ∈ Config.chip.writeEffects :=
  lookup_eq_some_iff_mem (by decide)

section
variable (y : Half) (i : Fin Config.chip.numOsc)

theorem ref1_restartsPhase : restartsPhase Config.chip y.toNat i = true ↔
    y = 0x03 ∧ i.1 = 0 ∨ y = 0x07 ∧ i.1 = 1 ∨ y = 0x0A ∧ i.1 = 2 := by
  rw [restartsPhase, decide_eq_true_iff, ref1_writeEffectAt, ref1_writeEffectAt, BitVec.toNat_eq, BitVec.toNat_eq,
    BitVec.toNat_eq]
  simp [Fin.ext_iff, or_assoc, -Fin.val_eq_zero_iff]

theorem ref1_startsEnvelope : startsEnvelope Config.chip y.toNat i = true ↔
    y = 0x03 ∧ i.1 = 0 ∨ y = 0x07 ∧ i.1 = 1 ∨ y = 0x0F ∧ i.1 = 3 := by
  rw [startsEnvelope, decide_eq_true_iff, ref1_writeEffectAt, ref1_writeEffectAt, BitVec.toNat_eq, BitVec.toNat_eq,
    BitVec.toNat_eq]
  simp [Fin.ext_iff, or_assoc, -Fin.val_eq_zero_iff]

theorem ref1_reloadsSweep : reloadsSweep Config.chip y.toNat i = true ↔
    y = 0x01 ∧ i.1 = 0 ∨ y = 0x05 ∧ i.1 = 1 := by
  rw [reloadsSweep, decide_eq_true_iff, ref1_writeEffectAt, BitVec.toNat_eq, BitVec.toNat_eq]
  simp [Fin.ext_iff, -Fin.val_eq_zero_iff]

theorem ref1_loadsLatch : loadsLatch Config.chip y.toNat = true ↔ y = 0x0B := by
  rw [loadsLatch, decide_eq_true_iff, ref1_writeEffectAt, BitVec.toNat_eq]
  simp

theorem ref1_ramData (k : Nat) : writeEffectAt Config.chip y.toNat = some (.ramData k) ↔ y = 0x0C ∧ k = 0x0B := by
  rw [ref1_writeEffectAt, BitVec.toNat_eq]
  simp

theorem ref1_storesSample : storesSample Config.chip y.toNat 0x0B = true ↔ y = 0x0C := by
  rw [storesSample, decide_eq_true_iff, ref1_ramData, and_iff_left rfl]

end

/-! ### A write in the window (R402) -/

theorem exec_write {s : State} {y : Half} (hf : s.dev.fault = none) (hy : y.toNat < 0x11) (v : Byte) :
    exec (.write y v) s =
      .next ({ s with dev := sideEffect y.toNat v (s.dev.setReg y.toNat v) }.respond .ok []) :=
  exec_done hf (write_at hy v s.dev)

/-- `AINC` is in the register of `W_ADDR`, which a write to `W_DATA` leaves alone. -/
theorem reg_ainc_setReg {y : Half} (hy : y = 0x0C) (d : Device cfg) (v : Byte) :
    (d.setReg y.toNat v).reg 0x0B = d.reg 0x0B :=
  d.reg_setReg_ne v (by subst hy; decide)

/-- Settles O47: the byte is that of the register file, and the side effect is that of REF-1's address table. -/
theorem writeStoresOneByte : Obligations.WriteStoresOneByte := by
  intro s y v hinv hf hy
  have hframe := sideEffect_frame y.toNat v (s.dev.setReg y.toNat v)
  have hreg : ∀ a, (sideEffect y.toNat v (s.dev.setReg y.toNat v)).reg a = if a = y.toNat then v else s.dev.reg a :=
    fun a => (congrArg (Memory.read · a) (sideEffect_regs ..)).trans (Device.reg_setReg hinv.regs.1 _ a v)
  have hainc : y = 0x0C ∧ addrAutoInc ((s.dev.setReg y.toNat v).reg 0x0B) = true ↔
      y = 0x0C ∧ (s.dev.reg 0x0B).getLsbD 7 = true :=
    and_congr_right fun hc => by rw [reg_ainc_setReg hc, addrAutoInc]
  obtain ⟨hlatch, hram⟩ := wave_sideEffect (fun k hk => ((ref1_ramData y k).1 hk).2) v (s.dev.setReg y.toNat v)
  simp only [ref1_loadsLatch, ref1_storesSample, addrField_toNat, hainc, Device.setReg_latch, Device.setReg_ram,
    Nat.mod_mod] at hlatch hram
  refine ⟨_, exec_write hf hy v, ⟨rfl, rfl, rfl⟩, ?_, fun a ha => ?_, fun i => ?_, hlatch, fun j hj => ?_,
    (sideEffect_fault ..).trans hf, (congrArg Device.buf hframe :), (congrArg Device.syn hframe :),
    (congrArg Device.lastTime hframe :), (congrArg Device.fsNext hframe :), (congrArg Device.fsStep hframe :)⟩
  · exact (hreg _).trans (if_pos rfl)
  · exact (hreg a).trans (if_neg ha)
  · refine (oscAt_sideEffect y.toNat v _ i).trans ?_
    simp only [ref1_restartsPhase, ref1_startsEnvelope, ref1_reloadsSweep, triggerBit_iff, Device.oscAt_setReg]
  · refine (congrArg (fun r => (r[j]).toNat) hram).trans ?_
    by_cases hc : y = 0x0C
    · simp only [hc, if_true, true_and, Vector.getElem_set, apply_ite BitVec.toNat, dataSample_toNat, eq_comm]
    · simp only [hc, if_false, false_and]

/-! ### A write repeated (R404) -/

/-- A side effect only reads the registers, so the byte may be stored after it as well as before. -/
theorem setReg_sideEffect (a b : Nat) (v w : Byte) {d : Device cfg} (h : d.setReg b w = d) :
    (sideEffect a v d).setReg b w = sideEffect a v d := by
  have hsame : d.regs.write b w = d.regs := congrArg Device.regs h
  rw [Device.setReg, sideEffect_regs, hsame, ← sideEffect_regs a v d]

/-- Every side effect but that of a `W_DATA` with `AINC` is done once it was done (R405 to R412). -/
theorem applyEffect_repeat (v : Byte) (d : Device cfg) {e : WriteEffect cfg.numOsc}
    (h : ∀ k, e = .ramData k → addrAutoInc (d.reg k) = false) :
    applyEffect v (applyEffect v d e) e = applyEffect v d e := by
  cases e with
  | sweepReload p => simp [applyEffect]
  | pulseTrigger p => by_cases hv : triggerBit v = true <;> simp [applyEffect, hv]
  | waveTrigger p => by_cases hv : triggerBit v = true <;> simp [applyEffect, hv]
  | noiseTrigger p => by_cases hv : triggerBit v = true <;> simp [applyEffect, hv]
  | ramAddress => rfl
  | ramData k =>
    have hinc := h k rfl
    simp only [Device.reg] at hinc
    simp [applyEffect, Device.reg, hinc]

theorem sideEffect_repeat (a : Nat) (v : Byte) {d : Device cfg}
    (h : ∀ k, writeEffectAt cfg a = some (.ramData k) → addrAutoInc (d.reg k) = false) :
    sideEffect a v (sideEffect a v d) = sideEffect a v d := by
  simp only [sideEffect_eq]
  cases heffect : writeEffectAt cfg a with
  | none => rfl
  | some e => exact applyEffect_repeat v d fun k hk => h k (by rw [heffect, hk])

/-- Settles O48: the second write stores what is there and repeats a side effect that is done. -/
theorem repeatedWriteChangesNothing : Obligations.RepeatedWriteChangesNothing := by
  intro s y v hinv hf hy
  refine ⟨fun hnot => ?_, fun hmem hheld => ?_⟩
  · have hstored : (s.dev.setReg y.toNat v).setReg y.toNat v = s.dev.setReg y.toNat v := by
      simp only [Device.setReg, Memory.write_write hinv.regs.1]
    have hfault : (sideEffect y.toNat v (s.dev.setReg y.toNat v)).fault = none :=
      (sideEffect_fault ..).trans hf
    refine ⟨_, _, exec_write hf hy v, exec_write hfault hy v, ?_⟩
    simp only [State.respond_dev]
    rw [setReg_sideEffect _ _ _ _ hstored]
    refine sideEffect_repeat _ v fun k hk => ?_
    obtain ⟨hc, rfl⟩ := (ref1_ramData y k).1 hk
    rw [reg_ainc_setReg hc, ← Bool.not_eq_true]
    exact fun hinc => hnot ⟨hc, hinc⟩
  · have hnone : ∀ a ∈ [0x00, 0x02, 0x04, 0x06, 0x08, 0x09, 0x0D, 0x0E, 0x10],
        writeEffectAt Config.chip a = none := by decide
    refine ⟨_, exec_write hf hy v, ?_⟩
    subst hheld
    rw [State.respond_dev, sideEffect_eq, hnone _ hmem, Option.elim_none, Device.setReg, Device.reg,
      Memory.write_read hinv.regs.1]

end Sys2Proof.Machine
end

section
/-! `RUN_UNTIL` and `END_FRAME`: time does not run backward, a run in the lookahead window completes, and a frame is a
run with its times re-based (spec/43_chip.md R420 to R423). -/

namespace Sys2Proof.Machine

variable {cfg : ChipConfig}

/-! ### Backward and nowhere -/

/-- Settles O49: both commands end with the fault of the run; a run to chip time does nothing. -/
theorem runUntilBackwardOrNowhere : Obligations.RunUntilBackwardOrNowhere := by
  intro s u hf
  refine ⟨fun hback i hi => ?_, fun hsame => ?_⟩
  · exact exec_fault hf (bodyOf_run_trap (runTo_back (BitVec.lt_def.2 hback)) hi)
  · subst hsame
    refine exec_done (d := s.dev) hf ?_
    rw [bodyOf, runUntil, runTo_lastTime, Progress.answer_ok]

/-! ### A run that completes -/

theorem exec_runUntil_ok {s : State} {u : Word} {e : Device Config.chip} (hf : s.dev.fault = none)
    (h : runTo u s.dev = .ok e) : exec (.runUntil u) s = .next ({ s with dev := e }.respond .ok []) :=
  exec_done hf (by rw [bodyOf, runUntil, h, Progress.answer_ok])

/-- A run forward in the lookahead window, or to chip time, completes (R520). -/
theorem runTo_completes {u : Word} {d : Device cfg} (hinv : d.Inv) (hle : d.lastTime.toNat ≤ u.toNat)
    (hmay : d.mayRun u.toNat) : ∃ e, runTo u d = .ok e := by
  rcases Nat.eq_or_lt_of_le hle with hsame | hlt
  · obtain rfl : d.lastTime = u := BitVec.eq_of_toNat_eq hsame
    exact ⟨d, runTo_lastTime d⟩
  · rw [runTo_forward (BitVec.lt_def.2 hlt)]
    exact runPasses_completes u.isLt hmay hinv.tick.1 hlt fun m => (lt_expiries_iff cfg.fs_ok.1).1

/-- Settles O52: the run completes, and the re-basing subtracts its end from both times. -/
theorem endFrameRebasesTime : Obligations.EndFrameRebasesTime := by
  intro s u hinv hf hle hmay
  obtain ⟨e, hrun⟩ := runTo_completes hinv hle hmay
  have hlast : e.lastTime = u := runTo_ok_lastTime hrun
  have hkeep := runTo_keepsInv hinv u
  have hadvance := runTo_advance u s.dev
  rw [hrun, Progress.keeps_ok] at hkeep hadvance
  have hframe : exec (.endFrame u) s = .next ({ s with dev := e.rebase u }.respond .ok []) :=
    exec_done hf (by rw [bodyOf, endFrame, hrun, Progress.andThen_ok, Progress.answer_ok])
  refine ⟨_, _, hframe, exec_runUntil_ok hf hrun, ⟨rfl, rfl, rfl⟩, ?_, hlast ▸ hkeep.tick.1,
    hadvance.times _ _ e.fsStep⟩
  simp only [State.respond_dev, Device.rebase, hlast, BitVec.sub_self]
  rfl

/-! ### Ticks -/

/-- With no tick due before `stop` there is none to perform. -/
theorem ticksBefore_eq_zero {next stop : Nat} (h : stop ≤ next) : ticksBefore cfg next stop = 0 := expiries_eq_zero h

/-- A tick due before `stop` is performed, and then those due after it. -/
theorem ticksBefore_of_due {next stop : Nat} (h : next < stop) :
    ticksBefore cfg next stop = ticksBefore cfg (next + cfg.fsPeriod) stop + 1 := by
  have hone : expiries next (next + 1) cfg.fsPeriod = 1 := by
    have hperiod : next + 1 - next + cfg.fsPeriod - 1 = cfg.fsPeriod := by omega
    rw [expiries, if_pos (Nat.lt_succ_self next), ceilDiv, hperiod, Nat.div_self cfg.fs_ok.1]
  rw [ticksBefore, expiries_split cfg.fs_ok.1 (Nat.succ_le_of_lt h), hone, Nat.one_mul, Nat.add_comm, ticksBefore]

/-- The machine at the first tick: run to its time, ticked, with the next tick's time (R420). -/
theorem runTo_tickDue {u : Word} {e : Device cfg} {next : Nat} (hlast : e.lastTime = BitVec.ofNat 32 next)
    (hnext : e.fsNext = next) (hdue : next < u.toNat) :
    runTo u (tickDue e) = runPasses u.toNat (ticksBefore cfg (next + cfg.fsPeriod) u.toNat) (tickDue e) := by
  have hlt : (tickDue e).lastTime < u := by
    rw [tickDue_lastTime, hlast, BitVec.lt_def, BitVec.toNat_ofNat, Nat.mod_eq_of_lt (hdue.trans u.isLt)]
    exact hdue
  rw [runTo_forward hlt, tickDue_fsNext, hnext]

/-- Settles O50: the passes of the run complete, and the first of them is the one to `end` or to the first tick. -/
theorem runUntilCompletes : Obligations.RunUntilCompletes := by
  intro s u hinv hf hlt hmay
  obtain ⟨f, hrun⟩ := runTo_completes hinv hlt.le hmay
  have hpasses := hrun
  rw [runTo_forward (BitVec.lt_def.2 hlt)] at hpasses
  obtain ⟨hadvance, hlast, hnext, hstep⟩ := runPasses_ok hpasses
  refine ⟨_, ticksBefore Config.chip s.dev.fsNext u.toNat, exec_runUntil_ok hf hrun, ⟨rfl, rfl, rfl⟩, hadvance,
    runTo_ok_lastTime hrun, hnext, fun m => ?_, hstep hinv.step, fun hnone => ?_, fun hdue => ?_⟩
  · rw [Nat.mul_comm]
    exact lt_expiries_iff Config.chip.fs_ok.1
  · rw [ticksBefore_eq_zero hnone, runPasses] at hpasses
    obtain ⟨e, hall, hset⟩ := Progress.andThen_eq_ok.1 hpasses
    exact ⟨e, hall, by rw [State.respond_dev, ← Progress.ok.inj hset, BitVec.ofNat_toNat, BitVec.setWidth_eq]⟩
  · rw [ticksBefore_of_due hdue, runPasses] at hpasses
    obtain ⟨p, hpass, hrest⟩ := Progress.andThen_eq_ok.1 hpasses
    obtain ⟨hframe, hplast, hpnext, -⟩ := runPass_ok hpass
    obtain ⟨e, hall, hset⟩ := Progress.andThen_eq_ok.1 hpass
    obtain rfl := Progress.ok.inj hset
    have htick : tickDue { e with lastTime := BitVec.ofNat 32 s.dev.fsNext } =
        { fsTick { e with lastTime := BitVec.ofNat 32 s.dev.fsNext } with fsNext := s.dev.fsNext + 3200 } := by
      rw [tickDue, (fsTick_frame _).2.2.1, hpnext]
    rw [← runTo_tickDue hplast hpnext hdue, htick] at hrest
    refine ⟨e, _, hall, exec_runUntil_ok ?_ hrest, rfl⟩
    exact (fsTick_advance _).fault.trans (hframe.fault.trans hf)

end Sys2Proof.Machine
end

section
/-! `RUN_UNTIL` cut in two at any time (spec/43_chip.md R420, R424). The runs of two oscillators commute: neither sees
what the other changes, and their splats add up. So the parts of all runs that lie before the cut may come first. -/

namespace Sys2Proof.Machine

variable {cfg : ChipConfig}

/-! ### A change that a run does not see

A run of oscillator `i` reads and writes its own oscillator, reads registers, wave RAM, synthesizers and factors, and
adds to delay lines. A change of the device that leaves those alone is the same before the run and after it. -/

/-- A change `g` of the device that a run of oscillator `i` neither sees nor undoes. -/
structure Unseen (i : Fin cfg.numOsc) (g : Device cfg → Device cfg) : Prop where
  reg : ∀ d a, (g d).reg a = d.reg a
  ram : ∀ d, (g d).ram = d.ram
  syn : ∀ d s, (g d).synAt s = d.synAt s
  factor : ∀ d b, ((g d).bufAt b).factor = (d.bufAt b).factor
  osc : ∀ d, (g d).oscAt i = d.oscAt i
  setOsc : ∀ d o, g (d.setOsc i o) = (g d).setOsc i o
  splat : ∀ d b y t x, g (d.setBuf b ((d.bufAt b).splat y t x)) = (g d).setBuf b (((g d).bufAt b).splat y t x)

section
variable {i : Fin cfg.numOsc} {g : Device cfg → Device cfg} (hg : Unseen i g)
include hg

theorem Unseen.amp (d : Device cfg) : (g d).amp i = d.amp i :=
  amp_congr (hg.reg d) (hg.ram d) (by rw [hg.osc]; exact .refl _) (by rw [hg.osc]) (by rw [hg.osc])

theorem Unseen.still_iff (d : Device cfg) :
    ((g d).silent i = true ∨ (g d).inaudible (voiceOf cfg i) = true) ↔
      (d.silent i = true ∨ d.inaudible (voiceOf cfg i) = true) := by
  rw [silent_congr (hg.reg d) (by rw [hg.osc]; exact .refl _), inaudible_congr (hg.reg d)]

theorem Unseen.advance (n : Nat) (d : Device cfg) : Machine.advance i n (g d) = g (Machine.advance i n d) := by
  rw [Machine.advance, hg.osc, advanced_congr (hg.reg d), Machine.advance, hg.setOsc]

theorem Unseen.update {t : Nat} {a : Int} {d e : Device cfg} (h : update i t a d = .ok e) :
    Machine.update i t a (g d) = .ok (g e) := by
  have hosc := hg.osc d
  rcases update_cases i t a d with ⟨hnone | hsame, hok⟩ | ⟨b, hb, hne, ⟨c, htrap, -⟩ | ⟨hf, hwin, hok⟩⟩
  · rw [update_unbound (hosc ▸ hnone), Progress.ok.inj (hok.symm.trans h)]
  · rw [update_steady (hosc ▸ hsame), Progress.ok.inj (hok.symm.trans h)]
  · exact absurd (htrap.symm.trans h) (by simp)
  · have hsplat := (offset_eq_ok (d := g d) (x := a - (d.oscAt i).lastAmp)).2
      ⟨by rwa [hg.factor], by rwa [hg.factor, hg.syn], rfl⟩
    rw [update_bound (hosc ▸ hb) (hosc ▸ hne), hosc, hsplat, Progress.andThen_ok,
      ← Progress.ok.inj (hok.symm.trans h), Device.setLastAmp, Device.setLastAmp, hg.setOsc, hg.splat, hg.syn,
      Device.oscAt_setBuf, Device.oscAt_setBuf, hosc]

theorem Unseen.stepLoop {p : Nat} : ∀ {n time : Nat} {d e : Device cfg},
    stepLoop i p n time d = .ok e → Machine.stepLoop i p n time (g d) = .ok (g e)
  | 0, _, _, _, h => by rw [Machine.stepLoop, Progress.ok.inj h]
  | n + 1, time, d, e, h => by
    obtain ⟨f, hupd, hrest⟩ := Progress.andThen_eq_ok.1 h
    rw [Machine.stepLoop, hg.advance, hg.amp, hg.update hupd, Progress.andThen_ok]
    exact Unseen.stepLoop hrest

theorem Unseen.runExpiries {time stop : Nat} {d e : Device cfg} (h : runExpiries i time stop d = .ok e) :
    Machine.runExpiries i time stop (g d) = .ok (g e) := by
  rcases runExpiries_cases h with ⟨hstill, rfl⟩ | ⟨hheard, hloop⟩
  · rw [runExpiries_of_still ((hg.still_iff d).2 hstill), period_congr (hg.reg d), hg.advance]
  · rw [runExpiries_of_heard ((hg.still_iff d).not.2 hheard), period_congr (hg.reg d)]
    exact hg.stepLoop hloop

/-- A completed run does the same before an unseen change and after it. -/
theorem Unseen.run {start stop : Nat} {d e : Device cfg} (h : run i start stop d = .ok e) :
    Machine.run i start stop (g d) = .ok (g e) := by
  obtain ⟨hle, f, f', hupd, hexp, rfl⟩ := run_parts h
  have hupd' : Machine.update i start ((g d).amp i) (g d) = .ok (g f) := by rw [hg.amp]; exact hg.update hupd
  rw [run_of_parts hle hupd' (by rw [hg.osc]; exact hg.runExpiries hexp), hg.osc, overshoot_congr (hg.reg d),
    Device.setDelay, hg.osc, ← hg.setOsc, Device.setDelay]

end

/-! ### What a run of one oscillator is to another

Seen from the others, a run sets its own oscillator and adds to the delay lines. -/

/-- Two devices are equal when they are buffer by buffer, oscillator by oscillator, and in the rest. -/
theorem Device.ext_at {d e : Device cfg} (hbuf : ∀ b, d.bufAt b = e.bufAt b) (hosc : ∀ i, d.oscAt i = e.oscAt i)
    (hrest : { d with buf := e.buf, osc := e.osc } = e) : d = e := by
  have hb : d.buf = e.buf := Vector.ext fun b h => hbuf ⟨b, h⟩
  have ho : d.osc = e.osc := Vector.ext fun i h => hosc ⟨i, h⟩
  rw [← hrest, ← hb, ← ho]

/-- A buffer with `m` added to its delay line, slot by slot. -/
def Buffer.plus (b : Buffer) (m : Vector Slot Config.delayLen) : Buffer := { b with dl := b.dl.zipWith (· + ·) m }

theorem Buffer.plus_comm (b : Buffer) (m n : Vector Slot Config.delayLen) : (b.plus m).plus n = (b.plus n).plus m := by
  refine congrArg (fun l => { b with dl := l }) (Vector.ext fun k hk => ?_)
  simp only [Buffer.plus, Vector.getElem_zipWith]
  exact add_right_comm ..

/-- A splat is an addition, so it commutes with one (R110). -/
theorem Buffer.splat_plus (b : Buffer) (m : Vector Slot Config.delayLen) (y : Synth) (t : Nat) (x : Int) :
    (b.splat y t x).plus m = (b.plus m).splat y t x := by
  refine congrArg (fun l => { b with dl := l }) (Vector.ext fun k hk => ?_)
  simp only [Buffer.plus, Buffer.splat, Vector.getElem_zipWith, addSplat_slot]
  split
  · exact add_right_comm ..
  · rfl

/-- The device with oscillator `j` set to `o` and `m b` added to the delay line of each buffer `b`. -/
def Device.mixed (j : Fin cfg.numOsc) (o : Osc cfg) (m : Fin cfg.numBuf → Vector Slot Config.delayLen)
    (d : Device cfg) : Device cfg :=
  { d.setOsc j o with buf := Vector.ofFn fun b => (d.bufAt b).plus (m b) }

section
variable (j : Fin cfg.numOsc) (o : Osc cfg) (m : Fin cfg.numBuf → Vector Slot Config.delayLen) (d : Device cfg)

@[simp] theorem Device.bufAt_mixed (b : Fin cfg.numBuf) : (d.mixed j o m).bufAt b = (d.bufAt b).plus (m b) := by
  simp [Device.mixed, Device.bufAt]

theorem Device.oscAt_mixed (i : Fin cfg.numOsc) : (d.mixed j o m).oscAt i = if i = j then o else d.oscAt i :=
  d.oscAt_setOsc j i o

theorem Unseen.mixed {i : Fin cfg.numOsc} (hij : i ≠ j) : Unseen i (Device.mixed j o m) where
  reg _ _ := rfl
  ram _ := rfl
  syn _ _ := rfl
  factor d b := by rw [Device.bufAt_mixed, Buffer.plus]
  osc d := by rw [Device.oscAt_mixed, if_neg hij]
  setOsc d p := by
    refine Device.ext_at (fun b => by simp) (fun k => ?_) rfl
    simp only [Device.oscAt_mixed, Device.oscAt_setOsc]
    split_ifs with hj hi
    · exact absurd (hi.symm.trans hj) hij
    · rfl
    · rfl
    · rfl
  splat d b y t x := by
    refine Device.ext_at (fun c => ?_) (fun k => by simp [Device.oscAt_mixed]) rfl
    simp only [Device.bufAt_mixed, Device.bufAt_setBuf]
    split
    · next hc => rw [hc, Buffer.splat_plus]
    · rfl

theorem Device.mixed_comm {i : Fin cfg.numOsc} (hij : i ≠ j) (p : Osc cfg)
    (n : Fin cfg.numBuf → Vector Slot Config.delayLen) :
    (d.mixed i p n).mixed j o m = (d.mixed j o m).mixed i p n := by
  refine Device.ext_at (fun b => ?_) (fun k => ?_) rfl
  · simp only [Device.bufAt_mixed, Buffer.plus_comm]
  · simp only [Device.oscAt_mixed]
    split_ifs with hj hi
    · exact absurd (hi.symm.trans hj) hij
    · rfl
    · rfl
    · rfl

end

/-- What tells two lines apart, slot by slot. -/
def lineChange (l l' : Vector Slot Config.delayLen) : Vector Slot Config.delayLen := l'.zipWith (· - ·) l

theorem Buffer.plus_lineChange {b c : Buffer} (h : c = { b with dl := c.dl }) : b.plus (lineChange b.dl c.dl) = c := by
  rw [h]
  refine congrArg (fun l => { b with dl := l }) (Vector.ext fun k hk => ?_)
  simp only [lineChange, Vector.getElem_zipWith]
  rw [BitVec.add_comm, BitVec.sub_add_cancel]

/-- The change of the device that takes `d` to `e` when only oscillator `i` ran. -/
def Device.mixTo (i : Fin cfg.numOsc) (d e : Device cfg) : Device cfg → Device cfg :=
  Device.mixed i (e.oscAt i) fun b => lineChange (d.bufAt b).dl (e.bufAt b).dl

theorem Unseen.mixTo {i j : Fin cfg.numOsc} (hij : i ≠ j) (d e : Device cfg) : Unseen i (d.mixTo j e) :=
  .mixed j _ _ hij

theorem Device.mixTo_comm {i j : Fin cfg.numOsc} (hij : i ≠ j) (d e d' e' f : Device cfg) :
    d.mixTo j e (d'.mixTo i e' f) = d'.mixTo i e' (d.mixTo j e f) := f.mixed_comm j _ _ hij _ _

theorem Device.RunFrame.mixTo_eq {i : Fin cfg.numOsc} {d e : Device cfg} (h : d.RunFrame i e) (hd : d.regs.wf)
    (he : e.regs.wf) : d.mixTo i e d = e := by
  have hregs : d.regs = e.regs := Memory.ext_of_wf hd he fun a => (h.chip.reg a).symm
  have hsyn : d.syn = e.syn := Vector.ext fun s hs => (h.syn ⟨s, hs⟩).symm
  refine Device.ext_at (fun b => ?_) (fun k => ?_) ?_
  · rw [Device.mixTo, Device.bufAt_mixed, Buffer.plus_lineChange (h.line b)]
  · rw [Device.mixTo, Device.oscAt_mixed]
    split
    · next hk => rw [hk]
    · next hk => exact (h.osc k hk).symm
  · obtain ⟨hfault, hchip, -, -, -, -, -⟩ := h
    obtain ⟨-, hram, hlatch, hlast, hnext, hstep⟩ := hchip
    simp only [Device.mixTo, Device.mixed, Device.setOsc, hregs, hsyn, ← hfault, ← hram, ← hlatch, ← hlast,
      ← hnext, ← hstep]

/-- What a run leaves as it was does not say which of the two devices came first. -/
theorem Device.RunFrame.symm {i : Fin cfg.numOsc} {d e : Device cfg} (h : d.RunFrame i e) : e.RunFrame i d where
  fault := h.fault.symm
  chip := ⟨fun a => (h.chip.reg a).symm, h.chip.ram.symm, h.chip.latch.symm, h.chip.lastTime.symm,
    h.chip.fsNext.symm, h.chip.fsStep.symm⟩
  syn s := (h.syn s).symm
  osc j hj := (h.osc j hj).symm
  self := ⟨h.self.output.symm, h.self.envStart.symm, h.self.envDiv.symm, h.self.envLevel.symm, h.self.swDiv.symm,
    h.self.swReload.symm⟩
  line b := by rw [h.line b]
  buf b hb := (h.buf b (by rwa [← h.self.output])).symm

/-! ### The runs of two oscillators commute -/

theorem run_ok_frame {i : Fin cfg.numOsc} {start stop : Nat} {d e : Device cfg} (h : run i start stop d = .ok e) :
    d.RunFrame i e := by
  have hframe := run_frame i start stop d
  rwa [h] at hframe

theorem run_ok_keepsInv {i : Fin cfg.numOsc} {start stop : Nat} {d e : Device cfg} (hd : d.Inv)
    (h : run i start stop d = .ok e) : e.Inv := by
  have hkeep := run_keepsInv hd i start stop
  rwa [h] at hkeep

/-- The second of two runs, of different oscillators, may come first. -/
theorem run_comm {i j : Fin cfg.numOsc} (hij : i ≠ j) {a b a' b' : Nat} {d e f : Device cfg} (hd : d.Inv)
    (hi : run i a b d = .ok e) (hj : run j a' b' e = .ok f) :
    ∃ g, run j a' b' d = .ok g ∧ run i a b g = .ok f ∧ g.Inv := by
  have he := run_ok_keepsInv hd hi
  have hf := run_ok_keepsInv he hj
  have hback : e.mixTo i d e = d := (run_ok_frame hi).symm.mixTo_eq he.regs.1 hd.regs.1
  have hforth : e.mixTo j f e = f := (run_ok_frame hj).mixTo_eq he.regs.1 hf.regs.1
  have hfirst : run j a' b' d = .ok (e.mixTo i d f) := by
    have hrun := (Unseen.mixTo hij.symm e d).run hj
    rwa [hback] at hrun
  have hsame : e.mixTo i d f = e.mixTo j f d := by
    conv_lhs => rw [← hforth, Device.mixTo_comm hij.symm, hback]
  refine ⟨_, hfirst, ?_, run_ok_keepsInv hd hfirst⟩
  have hrun := (Unseen.mixTo hij e f).run hi
  rwa [hforth, ← hsame] at hrun

theorem runEach_ok_keepsInv {start stop : Nat} {l : List (Fin cfg.numOsc)} {d e : Device cfg} (hd : d.Inv)
    (h : runEach start stop l d = .ok e) : e.Inv := by
  have hkeep := runEach_keepsInv start stop l hd
  rwa [h] at hkeep

/-- A run commutes with the runs of other oscillators. -/
theorem run_runEach_comm {i : Fin cfg.numOsc} {a b a' b' : Nat} : ∀ {l : List (Fin cfg.numOsc)} {d e f : Device cfg},
    i ∉ l → d.Inv → run i a b d = .ok e → runEach a' b' l e = .ok f →
    ∃ g, runEach a' b' l d = .ok g ∧ run i a b g = .ok f
  | [], d, e, f, _, _, hi, hl => ⟨d, rfl, by rw [hi, ← hl, runEach]⟩
  | j :: l, d, e, f, hnot, hd, hi, hl => by
    obtain ⟨hij, hrest⟩ := not_or.1 (List.mem_cons.not.1 hnot)
    obtain ⟨p, hj, hl⟩ := Progress.andThen_eq_ok.1 hl
    obtain ⟨q, hj', hi', hq⟩ := run_comm hij hd hi hj
    obtain ⟨g, hl', hig⟩ := run_runEach_comm hrest hq hi' hl
    exact ⟨g, by rw [runEach, hj', Progress.andThen_ok, hl'], hig⟩

/-! ### A pass cut in two -/

/-- The runs of all oscillators over one span are those over its first part, and then those over the second. -/
theorem runEach_split {start mid stop : Nat} (hstart : start ≤ mid) (hstop : mid ≤ stop) :
    ∀ {l : List (Fin Config.chip.numOsc)} {d f : Device Config.chip}, l.Nodup → d.Inv →
    runEach start stop l d = .ok f → ∃ e, runEach start mid l d = .ok e ∧ runEach mid stop l e = .ok f
  | [], d, f, _, _, h => ⟨d, rfl, h⟩
  | i :: l, d, f, hnodup, hd, h => by
    obtain ⟨hnot, hrest⟩ := List.nodup_cons.1 hnodup
    obtain ⟨p, hi, hl⟩ := Progress.andThen_eq_ok.1 h
    obtain ⟨q, hfirst, hsecond⟩ := Progress.andThen_eq_ok.1 (runSplitsAnywhere d p i start mid stop hstart hstop hi)
    obtain ⟨r, hbefore, hafter⟩ := runEach_split hstart hstop hrest (run_ok_keepsInv hd hi) hl
    obtain ⟨g, hbefore', hsecond'⟩ := run_runEach_comm hnot (run_ok_keepsInv hd hfirst) hsecond hbefore
    exact ⟨g, by rw [runEach, hfirst, Progress.andThen_ok, hbefore'],
      by rw [runEach, hsecond', Progress.andThen_ok, hafter]⟩

/-- `last_time <- t`. -/
def Device.setLastTime (t : Word) (d : Device cfg) : Device cfg := { d with lastTime := t }

/-- No oscillator reads chip time: a run is told its span. -/
theorem Unseen.setLastTime (i : Fin cfg.numOsc) (t : Word) : Unseen i (Device.setLastTime t) :=
  ⟨fun _ _ => rfl, fun _ => rfl, fun _ _ => rfl, fun _ _ => rfl, fun _ => rfl, fun _ _ => rfl, fun _ _ _ _ _ => rfl⟩

theorem runEach_setLastTime {start stop : Nat} (t : Word) : ∀ {l : List (Fin cfg.numOsc)} {d e : Device cfg},
    runEach start stop l d = .ok e → runEach start stop l (d.setLastTime t) = .ok (e.setLastTime t)
  | [], _, _, h => by rw [runEach, Progress.ok.inj h]
  | i :: l, d, e, h => by
    obtain ⟨f, hi, hl⟩ := Progress.andThen_eq_ok.1 h
    rw [runEach, (Unseen.setLastTime i t).run hi, Progress.andThen_ok, runEach_setLastTime t hl]

/-- A pass is a pass to any time on its way, and then the rest of it. -/
theorem runPass_split {mid stop : Nat} {d f : Device Config.chip} (hd : d.Inv) (hstart : d.lastTime.toNat ≤ mid)
    (hstop : mid ≤ stop) (hmid : mid < 2 ^ 32) (h : runPass stop d = .ok f) :
    ∃ e, runPass mid d = .ok e ∧ runPass stop e = .ok f := by
  obtain ⟨p, hall, hset⟩ := Progress.andThen_eq_ok.1 h
  obtain ⟨q, hfirst, hsecond⟩ := runEach_split hstart hstop (List.nodup_finRange _) hd hall
  refine ⟨q.setLastTime (BitVec.ofNat 32 mid), by rw [runPass, hfirst, Progress.andThen_ok, Device.setLastTime], ?_⟩
  have hlast : (q.setLastTime (BitVec.ofNat 32 mid)).lastTime.toNat = mid := by
    rw [Device.setLastTime, BitVec.toNat_ofNat, Nat.mod_eq_of_lt hmid]
  rw [runPass, hlast, runEach_setLastTime _ hsecond, Progress.andThen_ok, ← hset]
  rfl

/-! ### The loop cut in two -/

/-- After a pass that ends in a tick chip time is that of the tick, and the invariant holds again (R67). -/
theorem tickDue_keepsInv {d e : Device cfg} (hd : d.Inv) (hlt : d.fsNext < 2 ^ 32) (h : runPass d.fsNext d = .ok e) :
    (tickDue e).Inv ∧ (tickDue e).lastTime.toNat = d.fsNext := by
  have hkeep := runPass_keepsInv hd hd.tick.1 le_rfl hlt
  rw [h, Progress.keeps_ok] at hkeep
  obtain ⟨-, hlast, hnext, -⟩ := runPass_ok h
  have htime : (tickDue e).lastTime.toNat = d.fsNext := by
    rw [tickDue_lastTime, hlast, BitVec.toNat_ofNat, Nat.mod_eq_of_lt hlt]
  have hclock : (fsTick e).Inv := fsTick_keepsInv hkeep
  have hdue : (tickDue e).fsNext = d.fsNext + cfg.fsPeriod := by rw [tickDue_fsNext, hnext]
  exact ⟨hclock.times (t := (tickDue e).lastTime) (n := (tickDue e).fsNext) (by omega) (by omega) hclock.step,
    htime⟩

/-- Passes with `k` ticks due before `mid`, and `n` after it. -/
theorem runPasses_split {mid stop : Nat} (hstop : mid ≤ stop) (hmid : mid < 2 ^ 32) :
    ∀ {k n : Nat} {d f : Device Config.chip}, d.Inv → d.lastTime.toNat ≤ mid →
    (∀ m < k, d.fsNext + m * Config.chip.fsPeriod < mid) → mid ≤ d.fsNext + k * Config.chip.fsPeriod →
    runPasses stop (k + n) d = .ok f → ∃ e, runPasses mid k d = .ok e ∧ runPasses stop n e = .ok f
  | 0, 0, d, f, hd, hstart, _, _, h => runPass_split hd hstart hstop hmid h
  | 0, n + 1, d, f, hd, hstart, _, hlast, h => by
    rw [Nat.zero_add, runPasses] at h
    obtain ⟨p, hpass, hrest⟩ := Progress.andThen_eq_ok.1 h
    obtain ⟨e, hfirst, hsecond⟩ := runPass_split hd hstart (by omega) hmid hpass
    obtain ⟨-, -, hnext, -⟩ := runPass_ok hfirst
    exact ⟨e, hfirst, by rw [runPasses, hnext, hsecond, Progress.andThen_ok, hrest]⟩
  | k + 1, n, d, f, hd, hstart, hdue, hlast, h => by
    have hlt : d.fsNext < mid := by have := hdue 0 (by omega); omega
    rw [Nat.succ_add, runPasses] at h
    obtain ⟨p, hpass, hrest⟩ := Progress.andThen_eq_ok.1 h
    obtain ⟨hinv, htime⟩ := tickDue_keepsInv hd (by omega) hpass
    obtain ⟨-, -, hnext, -⟩ := runPass_ok hpass
    have hthen : (tickDue p).fsNext = d.fsNext + Config.chip.fsPeriod := by rw [tickDue_fsNext, hnext]
    rw [Nat.succ_mul] at hlast
    have hdue' : ∀ m < k, (tickDue p).fsNext + m * Config.chip.fsPeriod < mid := fun m hm => by
      have := hdue (m + 1) (by omega)
      rw [Nat.succ_mul] at this
      omega
    obtain ⟨e, hbefore, hafter⟩ := runPasses_split hstop hmid hinv (by omega) hdue' (by omega) hrest
    exact ⟨e, by rw [runPasses, hpass, Progress.andThen_ok, hbefore], hafter⟩

/-- A run of the chip is a run to any time on its way, and then the rest of it. -/
theorem runTo_split {a u : Word} {d f : Device Config.chip} (hd : d.Inv) (ha : d.lastTime.toNat ≤ a.toNat)
    (hu : a.toNat ≤ u.toNat) (h : runTo u d = .ok f) : ∃ e, runTo a d = .ok e ∧ runTo u e = .ok f := by
  rcases Nat.eq_or_lt_of_le ha with hsame | hstart
  · obtain rfl : d.lastTime = a := BitVec.eq_of_toNat_eq hsame
    exact ⟨d, runTo_lastTime d, h⟩
  rcases Nat.eq_or_lt_of_le hu with hsame | hstop
  · obtain rfl : a = u := BitVec.eq_of_toNat_eq hsame
    obtain rfl : f.lastTime = a := runTo_ok_lastTime h
    exact ⟨f, h, runTo_lastTime f⟩
  · have hperiod := Config.chip.fs_ok.1
    rw [runTo_forward (BitVec.lt_def.2 (hstart.trans hstop)), ticksBefore, expiries_split hperiod hu] at h
    obtain ⟨e, hbefore, hafter⟩ := runPasses_split hu a.isLt hd ha (fun m => (lt_expiries_iff hperiod).1)
      (le_expiries_mul hperiod) h
    have hfirst : runTo a d = .ok e := by rw [runTo_forward (BitVec.lt_def.2 hstart), ticksBefore, hbefore]
    obtain ⟨-, -, hnext, -⟩ := runPasses_ok hbefore
    refine ⟨e, hfirst, ?_⟩
    rw [runTo_forward (by rw [runTo_ok_lastTime hfirst]; exact BitVec.lt_def.2 hstop), ticksBefore, hnext,
      Nat.mul_comm, hafter]

/-- A run that leaves no fault is one that completed. -/
theorem runTo_of_exec {s t : State} {u : Word} (hf : s.dev.fault = none) (h : exec (.runUntil u) s = .next t)
    (hok : t.dev.fault = none) : runTo u s.dev = .ok t.dev := by
  rw [exec_ready hf, Host.Outcome.next.injEq, bodyOf, runUntil] at h
  subst h
  cases hrun : runTo u s.dev with
  | ok e => rfl
  | trap e c => rw [hrun] at hok; exact absurd hok (by simp [State.conclude])

/-- Settles O59: the ticks before the cut and after it are those of the whole run, and each pass may be cut. -/
theorem runUntilSplitsAnywhere : Obligations.RunUntilSplitsAnywhere := by
  intro s t a u hinv hf ha hu h hok
  obtain ⟨e, hfirst, hsecond⟩ := runTo_split hinv ha hu (runTo_of_exec hf h hok)
  have hfault : e.fault = none := by
    have hframe := runTo_advance a s.dev
    rw [hfirst] at hframe
    exact hframe.fault.trans hf
  exact ⟨_, _, exec_runUntil_ok hf hfirst, exec_runUntil_ok hfault hsecond, rfl⟩

end Sys2Proof.Machine
end

section
/-! A command to a faulted device, and the transport without a whole command (spec/60_exceptions.md R506, R519,
spec/70_reset_and_hazards.md R612); what an error and a refusal leave as it was (R503, R505); and the statuses of each
command (R502). -/

namespace Sys2Proof.Machine

variable {cfg : ChipConfig}

/-! ### A faulted device -/

/-- Settles O9: the step takes the command off the transport and does not decode it, and no command runs its body. -/
theorem faultedDeviceAnswersFaulted : Obligations.FaultedDeviceAnswersFaulted := by
  intro s f hf
  refine ⟨fun c rest hin => ?_, fun i => exec_faulted hf i⟩
  rw [step_command hin]
  exact answerCommand_faulted (s := { s with inbox := rest }) hf

/-! ### A transport that holds no whole command -/

theorem step_idle {s : State} (h : fetchCommand s.inbox = .idle) : step s = .next s := by
  simp only [step, stepOn, h]

theorem step_incomplete {s : State} (h : fetchCommand s.inbox = .incomplete) : step s = .refused .partialCommand := by
  simp only [step, stepOn, h]

/-- Settles O10: an empty transport is idle, and one to eleven bytes are no whole command. -/
theorem idleAndPartialTransport : Obligations.IdleAndPartialTransport :=
  ⟨fun s hempty => step_idle ((fetchCommand_eq_idle_iff s.inbox).2 hempty),
    fun s hpos hshort => step_incomplete ((fetchCommand_eq_incomplete_iff s.inbox).2 ⟨hpos, hshort⟩)⟩

/-! ### What an error and a refusal leave as it was -/

section
variable {a : Answer cfg}

theorem conclude_dev_of_error {e : ErrorCode} (s : State cfg) (h : a.status = .error e) :
    (s.conclude a).dev = s.dev := by
  rw [Answer.status_eq_error h]; rfl

theorem conclude_of_refusal {r : RefusalCode} (s : State cfg) (h : a.status = .refusal r) :
    (s.conclude a).dev = s.dev ∧ (s.conclude a).refusals = s.refusals + 1 := by
  rw [Answer.status_eq_refusal h]; exact ⟨rfl, rfl⟩

/-- Nothing but a refusal marks the run (R505). -/
theorem conclude_refusals (s : State cfg) (h : ∀ r, a.status ≠ .refusal r) : (s.conclude a).refusals = s.refusals := by
  cases a with
  | done d xs => rfl
  | error e => rfl
  | fault d c => rfl
  | refusal r => exact absurd rfl (h r)

end

/-- Settles O13: a faulted device only responds, and the status of an answer decides what its end may change. -/
theorem errorsAndRefusalsChangeNothing : Obligations.ErrorsAndRefusalsChangeNothing := by
  intro s i
  cases hf : s.dev.fault with
  | some f => exact ⟨_, _, exec_faulted hf i, rfl, fun _ _ => rfl, by simp, fun _ => rfl⟩
  | none =>
    exact ⟨_, _, exec_ready hf i, conclude_outbox_eq s _, fun _ => conclude_dev_of_error s,
      fun _ => conclude_of_refusal s, conclude_refusals s⟩

/-! ### The statuses of each command (R502) -/

/-- The answer is OK, or its status is one of `l`. -/
def Answer.StatusIn (a : Answer cfg) (l : List Status) : Prop := a.status = .ok ∨ a.status ∈ l

/-- A command that ends with its micro-operation is OK, or has the status of a fault the micro-operation can raise. -/
theorem Progress.answer_statusIn {p : Progress cfg} {l : List Status} (h : ∀ d c, p = .trap d c → .fault c ∈ l) :
    p.answer.StatusIn l := by
  cases p with
  | ok d => exact .inl rfl
  | trap d c => exact .inr (h d c rfl)

/-- Every indexed command may answer `IndexOutOfRange`; its other statuses are those of an index in range. -/
theorem statusIn_of_index {n : Nat} {x : Byte} {a : Answer cfg} {l : List Status}
    (hout : n ≤ x.toNat → a = .error .indexOutOfRange)
    (hin : ∀ i : Fin n, x.toNat = i.1 → a.StatusIn (.error .indexOutOfRange :: l)) :
    a.StatusIn (.error .indexOutOfRange :: l) := by
  rcases le_or_eq_fin n x.toNat with hx | ⟨i, hx⟩
  · rw [hout hx]; exact .inr List.mem_cons_self
  · exact hin i hx

theorem setSampleRate_statusIn (x : Byte) (u v : Word) (d : Device cfg) :
    (setSampleRate x u v d).StatusIn (statusesOf (.setSampleRate x u v)) := by
  refine statusIn_of_index (fun hx => setSampleRate_out hx u v d) fun b hx => ?_
  have hrate : (Answer.error .invalidRate : Answer cfg).StatusIn (statusesOf (.setSampleRate x u v)) :=
    .inr (by simp [Answer.status, statusesOf])
  rw [setSampleRate_at hx]
  split_ifs
  · exact hrate
  · exact hrate
  · exact hrate
  · exact .inl rfl

theorem setVolume_statusIn (x : Byte) (u : F32) (d : Device cfg) :
    (setVolume x u d).StatusIn (statusesOf (.setVolume x u)) := by
  refine statusIn_of_index (fun hx => setVolume_out hx u d) fun y hx => ?_
  by_cases hbad : f32Finite u = false ∨ f32Level u = none
  · rw [setVolume_bad hx hbad]; exact .inr (by simp [Answer.status])
  · obtain ⟨hfin, hlev⟩ := not_or.1 hbad
    obtain ⟨l, hl⟩ := Option.ne_none_iff_exists'.1 hlev
    rw [setVolume_at hx (Bool.eq_true_of_not_eq_false hfin) hl]
    split_ifs
    · exact .inr (by simp [Answer.status])
    · exact .inl rfl

theorem setTreble_statusIn (x : Byte) (cutoff : Half) (u : F32) (v : Word) (d : Device cfg) :
    (setTreble x cutoff u v d).StatusIn (statusesOf (.setTreble x cutoff u v)) := by
  refine statusIn_of_index (fun hx => setTreble_out hx cutoff u v d) fun y hx => ?_
  cases hfin : f32Finite u with
  | false => rw [setTreble_bad hx hfin]; exact .inr (by simp [Answer.status])
  | true =>
    rw [setTreble_at hx hfin]
    split_ifs
    · exact .inr (by simp [Answer.status])
    · exact .inl rfl

/-- Retiring a level never finds its buffer unconfigured: the invariant says it is configured (R350). -/
theorem retire_eq_trap {d e : Device cfg} (hinv : d.Inv) {i : Fin cfg.numOsc} {c : FaultCode}
    (h : retire i d = .trap e c) : c = .timeOutOfRange := by
  by_cases hnone : (d.oscAt i).output = none ∨ (d.oscAt i).lastAmp = 0
  · rw [retire_of_level_zero hnone] at h; cases h
  · obtain ⟨hbound, hlevel⟩ := not_or.1 hnone
    obtain ⟨b, hb⟩ := Option.ne_none_iff_exists'.1 hbound
    rw [retire_of_level hb hlevel] at h
    rcases (offset_eq_trap h).2 with ⟨-, hfactor⟩ | hrange
    · exact absurd hfactor (hinv.bound i b hb hlevel)
    · exact hrange

theorem setOutput_statusIn {d : Device cfg} (hinv : d.Inv) (x : Byte) (u : Word) :
    (setOutput x u d).StatusIn (statusesOf (.setOutput x u)) := by
  refine statusIn_of_index (fun hx => setOutput_out hx u d) fun i hx => ?_
  cases hout : outputOperand cfg.numBuf u with
  | none => rw [setOutput_bad hx hout]; exact .inr List.mem_cons_self
  | some new =>
    rw [setOutput_at hx hout]
    split_ifs
    · exact .inl rfl
    · refine Progress.answer_statusIn fun e c htrap => ?_
      rcases Progress.andThen_eq_trap.1 htrap with hretire | ⟨e', -, hbind⟩
      · rw [retire_eq_trap hinv hretire]; exact List.mem_cons_of_mem _ List.mem_cons_self
      · cases hbind

theorem write_statusIn (y : Half) (v : Byte) (d : Device cfg) :
    (write y v d).StatusIn (statusesOf (.write y v)) := by
  rcases Nat.lt_or_ge y.toNat cfg.regSize with hy | hy
  · rw [write_at hy]; exact .inl rfl
  · rw [write_out hy]; exact .inr List.mem_cons_self

/-- A run may raise each of the three faults. -/
theorem fault_mem_runUntil (u : Word) (c : FaultCode) : Status.fault c ∈ statusesOf (.runUntil u) := by
  cases c <;> simp [statusesOf]

theorem bodyOf_statusIn {d : Device cfg} (hinv : d.Inv) (i : Instr) : (bodyOf i d).StatusIn (statusesOf i) := by
  cases i with
  | setSampleRate x u v => exact setSampleRate_statusIn x u v d
  | setBassFreq x u =>
    exact statusIn_of_index (fun hx => setBassFreq_out hx u d) fun b hx => .inl (by rw [bodyOf, setBassFreq_at hx]; rfl)
  | readSample x =>
    exact statusIn_of_index (fun hx => readSample_out hx d) fun b hx => .inl (by rw [bodyOf, readSample_at hx]; rfl)
  | readSamples x u =>
    exact statusIn_of_index (fun hx => readSamples_out hx u d) fun b hx => .inl (by rw [bodyOf, readSamples_at hx]; rfl)
  | flush x =>
    exact statusIn_of_index (fun hx => flush_out hx d) fun b hx => .inl (by rw [bodyOf, flush_at hx]; rfl)
  | setVolume x u => exact setVolume_statusIn x u d
  | setTreble x y u v => exact setTreble_statusIn x y u v d
  | setOutput x u => exact setOutput_statusIn hinv x u
  | write y v => exact write_statusIn y v d
  | runUntil u => exact Progress.answer_statusIn fun _ c _ => fault_mem_runUntil u c
  | endFrame u => exact Progress.answer_statusIn fun _ c _ => fault_mem_runUntil u c
  | reset => exact .inl rfl

/-- Settles O15: the response carries the status of the body's answer, which is one of the command's. -/
theorem statusesOfEachCommand : Obligations.StatusesOfEachCommand := by
  intro s t i r hinv hf hst hr
  rw [exec_ready hf, Host.Outcome.next.injEq] at hst
  subst hst
  rw [conclude_outbox_eq, List.append_cancel_left_eq, List.singleton_inj] at hr
  subst hr
  exact bodyOf_statusIn hinv i

end Sys2Proof.Machine
end

section
/-! The power-on state, where every run starts: it keeps the invariant, and nothing has gone wrong in it
(spec/70_reset_and_hazards.md R600). -/

namespace Sys2Proof.Machine

/-- Power-on clears `FAULT`, and no command has been refused yet, on a chip of any configuration (R600). -/
theorem State.powerOn_clean (cfg : ChipConfig) : (State.powerOn cfg).clean := ⟨rfl, rfl⟩

/-- Settles O56: REF-1's power-on state is the generic one, which keeps the invariant of every chip and is clean. -/
theorem powerOnKeepsInvariant : Obligations.PowerOnKeepsInvariant :=
  ⟨Device.powerOn_inv Config.chip, State.powerOn_clean Config.chip⟩

end Sys2Proof.Machine
end
